-- ==== Sys2Proof/Word.lean ====
section
/-! DEFINITION. The two word types of the block: a 32-bit register or command word (00_scope.md R5, `REG_BITS`)
and an 8-bit data byte of a frame or payload. Counts and lengths are natural numbers (00_scope.md R9, R12). -/

namespace Sys2Proof

/-- A 32-bit register value or command word. -/
abbrev Word := BitVec 32

/-- A byte of a buffer, of a frame or of an address field. -/
abbrev Byte := BitVec 8

/-- A data-length code, an index 0 to 15 into the table of 41_dlc.md R120. -/
abbrev Dlc := Fin 16

end Sys2Proof
end

