-- ==== Sys2Proof/Syntax.lean ====
section
/-! DEFINITION. The spec's enumerations (00_scope.md R13 to R17), the names of the operand/result registers
(10_state.md R21) and the 34 commands (30_encoding.md R85), one constructor for each row of the opcode table.
The numbers of all of them stand in Decode.lean. -/

namespace Sys2Proof

/-- AddressingFormat (R13), in the order the spec lists the variants. -/
inductive Format where
  | n11   -- Normal-11bit
  | nf    -- Normal-Fixed
  | ext   -- Extended
  | m11   -- Mixed-11bit
  | m29   -- Mixed-29bit
deriving DecidableEq, Repr

/-- The two formats whose identifier has structure, for which alone `off`, `id_encode` and `id_decode` are defined
(40_identifier.md R102 to R105). -/
inductive Windowed where
  | nf
  | m29
deriving DecidableEq, Repr

/-- AddressingType (R14). -/
inductive AddrType where
  | phys
  | func
deriving DecidableEq, Repr

/-- PacketType (R15). -/
inductive PacketType where
  | sf   -- Single Frame
  | ff   -- First Frame
  | cf   -- Consecutive Frame
  | fc   -- Flow Control
deriving DecidableEq, Repr

/-- FlowStatus (R16). -/
inductive FlowStatus where
  | cts   -- ContinueToSend
  | wait
  | ovfl  -- Overflow
deriving DecidableEq, Repr

/-- Direction of a packet record (R17). -/
inductive Direction where
  | tx
  | rx
deriving DecidableEq, Repr

/-- The error codes a command can end with (60_exceptions.md R250, codes 1 to 6; 7 to 15 are never produced). -/
inductive Err where
  | invalidValue
  | unusedArg
  | inconsistent
  | ambiguity
  | notImpl
  | illegal
deriving DecidableEq, Repr

/-- The nineteen operand/result registers by name (10_state.md R21). `aty` is the register `AT`. -/
inductive Reg where
  | id | ta | sa | ae | aty | dlc | bs | st | dl | sn | fs | plen | flen | res | rp | stt | dir | tsl | tsh
deriving DecidableEq, Repr

/-- The commands (30_encoding.md R85). `any` is `W.ANY`, `fmt` is `W.FMT` (all eight values: 5 to 7 decode and are
refused as an operand, R82), `pm` is `W.PM`; a command carries exactly the fields its row uses. -/
inductive Instr where
  | nop
  | sreset
  | clrstk
  | idIsstd
  | idIsext
  | idClassify (fmt : BitVec 3) (pm : BitVec 8)
  | idEncode (fmt : BitVec 3)
  | idDecode (fmt : BitVec 3)
  | dlcDecode
  | dlcEncode
  | dlcMin
  | aiNbytes (fmt : BitVec 3)
  | aiEncdata (fmt : BitVec 3) (pm : BitVec 8)
  | aiDecode (fmt : BitVec 3)
  | aiValidate (fmt : BitVec 3) (pm : BitVec 8)
  | ptGet (fmt : BitVec 3)
  | sfEnc (any : Bool) (fmt : BitVec 3) (pm : BitVec 8)
  | sfDec (fmt : BitVec 3)
  | ffEnc (any : Bool) (fmt : BitVec 3) (pm : BitVec 8)
  | ffDec (fmt : BitVec 3)
  | cfEnc (any : Bool) (fmt : BitVec 3) (pm : BitVec 8)
  | cfDec (fmt : BitVec 3)
  | fcEnc (any : Bool) (fmt : BitVec 3) (pm : BitVec 8)
  | fcDec (fmt : BitVec 3)
  | stminDec
  | stminEnc
  | pktSf (any : Bool) (fmt : BitVec 3) (pm : BitVec 8)
  | pktFf (any : Bool) (fmt : BitVec 3) (pm : BitVec 8)
  | pktCf (any : Bool) (fmt : BitVec 3) (pm : BitVec 8)
  | pktFc (any : Bool) (fmt : BitVec 3) (pm : BitVec 8)
  | pktLoad (fmt : BitVec 3)
  | pktSetai (fmt : BitVec 3) (pm : BitVec 8)
  | pktView
  | pktClear
deriving DecidableEq, Repr

end Sys2Proof
end

