-- ==== Sys2Proof/WellFormed.lean ====
section
/-! DEFINITION. When a command term is one the encoding admits: no presence bit but those its row allows
(30_encoding.md R83, R85 column "PM bits allowed"). The other fields are well-formed by their type. -/

namespace Sys2Proof

/-- The presence mask a command carries; a row without optional operands carries none. -/
def Instr.presence : Instr → BitVec 8
  | .nop => 0 | .sreset => 0 | .clrstk => 0
  | .idIsstd => 0 | .idIsext => 0 | .idClassify _ pm => pm | .idEncode _ => 0 | .idDecode _ => 0
  | .dlcDecode => 0 | .dlcEncode => 0 | .dlcMin => 0
  | .aiNbytes _ => 0 | .aiEncdata _ pm => pm | .aiDecode _ => 0 | .aiValidate _ pm => pm
  | .ptGet _ => 0 | .sfEnc _ _ pm => pm | .sfDec _ => 0 | .ffEnc _ _ pm => pm | .ffDec _ => 0
  | .cfEnc _ _ pm => pm | .cfDec _ => 0 | .fcEnc _ _ pm => pm | .fcDec _ => 0
  | .stminDec => 0 | .stminEnc => 0
  | .pktSf _ _ pm => pm | .pktFf _ _ pm => pm | .pktCf _ _ pm => pm | .pktFc _ _ pm => pm
  | .pktLoad _ => 0 | .pktSetai _ pm => pm | .pktView => 0 | .pktClear => 0

/-- R85, column "PM bits allowed". -/
def Instr.presenceAllowed : Instr → BitVec 8
  | .nop => 0x00 | .sreset => 0x00 | .clrstk => 0x00
  | .idIsstd => 0x00 | .idIsext => 0x00 | .idClassify _ _ => 0x10 | .idEncode _ => 0x00 | .idDecode _ => 0x00
  | .dlcDecode => 0x00 | .dlcEncode => 0x00 | .dlcMin => 0x00
  | .aiNbytes _ => 0x00 | .aiEncdata _ _ => 0x0A | .aiDecode _ => 0x00 | .aiValidate _ _ => 0x0F
  | .ptGet _ => 0x00 | .sfEnc _ _ _ => 0x20 | .sfDec _ => 0x00 | .ffEnc _ _ _ => 0x20 | .ffDec _ => 0x00
  | .cfEnc _ _ _ => 0x20 | .cfDec _ => 0x00 | .fcEnc _ _ _ => 0xE0 | .fcDec _ => 0x00
  | .stminDec => 0x00 | .stminEnc => 0x00
  | .pktSf _ _ _ => 0x2F | .pktFf _ _ _ => 0x2F | .pktCf _ _ _ => 0x2F | .pktFc _ _ _ => 0xEF
  | .pktLoad _ => 0x00 | .pktSetai _ _ => 0x0F | .pktView => 0x00 | .pktClear => 0x00

/-- A command term is well-formed when it sets no presence bit its row does not allow (R83). -/
abbrev Instr.WellFormed (i : Instr) : Prop := i.presence &&& ~~~i.presenceAllowed = 0#8

end Sys2Proof
end

