-- ==== Sys2Proof/Decode.lean ====
section
/-! DEFINITION. The spec's numbers for its enumerations and registers, the decoder of command words and its encoder
(30_encoding.md). Decoding is total on the 2^32 words (R86); a word it refuses is refused by the reason R87 gives. -/

namespace Sys2Proof

/-! ## Numbers of the enumerations (00_scope.md R13 to R17, 60_exceptions.md R250) -/

/-- R13. -/
def Format.number : Format → BitVec 3
  | .n11 => 0 | .nf => 1 | .ext => 2 | .m11 => 3 | .m29 => 4

/-- R13: the values 5 to 7 name no format. -/
def formatOf (n : BitVec 3) : Option Format :=
  match n.toNat with
  | 0 => some .n11
  | 1 => some .nf
  | 2 => some .ext
  | 3 => some .m11
  | 4 => some .m29
  | _ => none

/-- The formats whose identifier has structure (40_identifier.md R102). -/
def windowedOf : Format → Option Windowed
  | .n11 => none | .nf => some .nf | .ext => none | .m11 => none | .m29 => some .m29

/-- The same two formats back among the five. -/
def Windowed.format : Windowed → Format
  | .nf => .nf | .m29 => .m29

/-- R14. -/
def AddrType.number : AddrType → Nat
  | .phys => 0 | .func => 1

/-- R14. -/
def addrTypeOf (n : Nat) : Option AddrType :=
  match n with
  | 0 => some .phys
  | 1 => some .func
  | _ => none

/-- R15. -/
def PacketType.number : PacketType → Nat
  | .sf => 0 | .ff => 1 | .cf => 2 | .fc => 3

/-- R15: the nibbles 4 to 15 name no packet type. -/
def packetTypeOf (nibble : BitVec 4) : Option PacketType :=
  match nibble.toNat with
  | 0 => some .sf
  | 1 => some .ff
  | 2 => some .cf
  | 3 => some .fc
  | _ => none

/-- R16. -/
def FlowStatus.number : FlowStatus → BitVec 4
  | .cts => 0 | .wait => 1 | .ovfl => 2

/-- R16: the nibbles 3 to 15 name no flow status. -/
def flowStatusOf (nibble : BitVec 4) : Option FlowStatus :=
  match nibble.toNat with
  | 0 => some .cts
  | 1 => some .wait
  | 2 => some .ovfl
  | _ => none

/-- R17. -/
def Direction.number : Direction → Nat
  | .tx => 0 | .rx => 1

/-- R17. -/
def directionOf (n : Nat) : Option Direction :=
  match n with
  | 0 => some .tx
  | 1 => some .rx
  | _ => none

/-- R250: the status codes of the errors. -/
def Err.code : Err → Nat
  | .invalidValue => 1 | .unusedArg => 2 | .inconsistent => 3 | .ambiguity => 4 | .notImpl => 5 | .illegal => 6

/-- 10_state.md R21: the index of a register. It is also its bit number in `W.PM` (0 to 7) and in `x[RP]`
(0 to 11; bit 11, `PL`, stands at the index of `PLEN`), R24. -/
def Reg.index : Reg → Fin 19
  | .id => 0 | .ta => 1 | .sa => 2 | .ae => 3 | .aty => 4 | .dlc => 5 | .bs => 6 | .st => 7 | .dl => 8 | .sn => 9
  | .fs => 10 | .plen => 11 | .flen => 12 | .res => 13 | .rp => 14 | .stt => 15 | .dir => 16 | .tsl => 17 | .tsh => 18

/-- The registers in the order of their indices (R21). -/
def allRegs : List Reg :=
  [.id, .ta, .sa, .ae, .aty, .dlc, .bs, .st, .dl, .sn] ++ [.fs, .plen, .flen, .res, .rp, .stt, .dir, .tsl, .tsh]

/-! ## The one word format (R81) -/

/-- `OPC`, bits 31:24. -/
def opcOf (w : Word) : BitVec 8 := w.extractLsb' 24 8
/-- `ANY`, bit 23. -/
def anyOf (w : Word) : Bool := w.getLsbD 23
/-- `FMT`, bits 22:20. -/
def fmtOf (w : Word) : BitVec 3 := w.extractLsb' 20 3
/-- The reserved bits 19:8. -/
def reservedOf (w : Word) : BitVec 12 := w.extractLsb' 8 12
/-- `PM`, bits 7:0. -/
def pmOf (w : Word) : BitVec 8 := w.extractLsb' 0 8

/-- A command word from its fields, the reserved bits 0. -/
def commandWord (opc : BitVec 8) (any : Bool) (fmt : BitVec 3) (pm : BitVec 8) : Word :=
  opc ++ BitVec.ofBool any ++ fmt ++ 0#12 ++ pm

/-! ## The opcode table (R85) -/

/-- Why a word is no command (R87, the five kinds it lists). -/
inductive BadWord where
  | unassignedOpcode
  | reservedBits
  | modeBit
  | formatBits
  | presenceBits
deriving DecidableEq, Repr

/-- One row of the opcode table of R85, as far as decoding needs it. -/
structure Row where
  opc       : BitVec 8
  takesFmt  : Bool
  takesAny  : Bool
  pmAllowed : BitVec 8
  make      : (any : Bool) → (fmt : BitVec 3) → (pm : BitVec 8) → Instr

/-- Rows without format, mode and optional operands. -/
def plainRow (opc : BitVec 8) (i : Instr) : Row := ⟨opc, false, false, 0x00, fun _ _ _ => i⟩
/-- Rows with a format and nothing else. -/
def formatRow (opc : BitVec 8) (mk : BitVec 3 → Instr) : Row := ⟨opc, true, false, 0x00, fun _ f _ => mk f⟩
/-- Rows with a format and optional operands. -/
def presenceRow (opc : BitVec 8) (pmAllowed : BitVec 8) (mk : BitVec 3 → BitVec 8 → Instr) : Row :=
  ⟨opc, true, false, pmAllowed, fun _ f p => mk f p⟩
/-- Rows of the packet encoders: a mode, a format and optional operands. -/
def encoderRow (opc : BitVec 8) (pmAllowed : BitVec 8) (mk : Bool → BitVec 3 → BitVec 8 → Instr) : Row :=
  ⟨opc, true, true, pmAllowed, mk⟩

/-- System, identifier and data-length rows. -/
def codecRows : List Row :=
  [plainRow 0x00 .nop, plainRow 0x01 .sreset, plainRow 0x02 .clrstk,
   plainRow 0x10 .idIsstd, plainRow 0x11 .idIsext, presenceRow 0x12 0x10 .idClassify,
   formatRow 0x13 .idEncode, formatRow 0x14 .idDecode,
   plainRow 0x20 .dlcDecode, plainRow 0x21 .dlcEncode, plainRow 0x22 .dlcMin]

/-- Addressing rows and packet-type rows. -/
def frameRows : List Row :=
  [formatRow 0x30 .aiNbytes, presenceRow 0x31 0x0A .aiEncdata, formatRow 0x32 .aiDecode, presenceRow 0x33 0x0F .aiValidate,
   formatRow 0x40 .ptGet, encoderRow 0x41 0x20 .sfEnc, formatRow 0x42 .sfDec, encoderRow 0x43 0x20 .ffEnc,
   formatRow 0x44 .ffDec, encoderRow 0x45 0x20 .cfEnc, formatRow 0x46 .cfDec, encoderRow 0x47 0xE0 .fcEnc,
   formatRow 0x48 .fcDec, plainRow 0x49 .stminDec, plainRow 0x4A .stminEnc]

/-- Packet rows. -/
def packetRows : List Row :=
  [encoderRow 0x50 0x2F .pktSf, encoderRow 0x51 0x2F .pktFf, encoderRow 0x52 0x2F .pktCf, encoderRow 0x53 0xEF .pktFc,
   formatRow 0x54 .pktLoad, presenceRow 0x55 0x0F .pktSetai, plainRow 0x56 .pktView, plainRow 0x57 .pktClear]

/-- The 34 rows of R85. -/
def opcodeTable : List Row := codecRows ++ frameRows ++ packetRows

/-- A word whose opcode is this row's: the command, or the reason it matches no row (R86, R87). -/
def Row.read (r : Row) (w : Word) : Except BadWord Instr :=
  if reservedOf w ≠ 0#12 then .error .reservedBits
  else if r.takesAny = false ∧ anyOf w = true then .error .modeBit
  else if r.takesFmt = false ∧ fmtOf w ≠ 0#3 then .error .formatBits
  else if pmOf w &&& ~~~r.pmAllowed ≠ 0#8 then .error .presenceBits
  else .ok (r.make (anyOf w) (fmtOf w) (pmOf w))

/-- Decoding of a command word (R86), total. -/
def decode (w : Word) : Except BadWord Instr :=
  match opcodeTable.find? (fun r => r.opc == opcOf w) with
  | some r => r.read w
  | none => .error .unassignedOpcode

/-- The command word of a command (R85, columns OPC, FMT, ANY, PM). -/
def encode : Instr → Word
  | .nop => commandWord 0x00 false 0 0
  | .sreset => commandWord 0x01 false 0 0
  | .clrstk => commandWord 0x02 false 0 0
  | .idIsstd => commandWord 0x10 false 0 0
  | .idIsext => commandWord 0x11 false 0 0
  | .idClassify fmt pm => commandWord 0x12 false fmt pm
  | .idEncode fmt => commandWord 0x13 false fmt 0
  | .idDecode fmt => commandWord 0x14 false fmt 0
  | .dlcDecode => commandWord 0x20 false 0 0
  | .dlcEncode => commandWord 0x21 false 0 0
  | .dlcMin => commandWord 0x22 false 0 0
  | .aiNbytes fmt => commandWord 0x30 false fmt 0
  | .aiEncdata fmt pm => commandWord 0x31 false fmt pm
  | .aiDecode fmt => commandWord 0x32 false fmt 0
  | .aiValidate fmt pm => commandWord 0x33 false fmt pm
  | .ptGet fmt => commandWord 0x40 false fmt 0
  | .sfEnc any fmt pm => commandWord 0x41 any fmt pm
  | .sfDec fmt => commandWord 0x42 false fmt 0
  | .ffEnc any fmt pm => commandWord 0x43 any fmt pm
  | .ffDec fmt => commandWord 0x44 false fmt 0
  | .cfEnc any fmt pm => commandWord 0x45 any fmt pm
  | .cfDec fmt => commandWord 0x46 false fmt 0
  | .fcEnc any fmt pm => commandWord 0x47 any fmt pm
  | .fcDec fmt => commandWord 0x48 false fmt 0
  | .stminDec => commandWord 0x49 false 0 0
  | .stminEnc => commandWord 0x4A false 0 0
  | .pktSf any fmt pm => commandWord 0x50 any fmt pm
  | .pktFf any fmt pm => commandWord 0x51 any fmt pm
  | .pktCf any fmt pm => commandWord 0x52 any fmt pm
  | .pktFc any fmt pm => commandWord 0x53 any fmt pm
  | .pktLoad fmt => commandWord 0x54 false fmt 0
  | .pktSetai fmt pm => commandWord 0x55 false fmt pm
  | .pktView => commandWord 0x56 false 0 0
  | .pktClear => commandWord 0x57 false 0 0

/-- The match and mask columns of R85 as the spec prints them, row by row: a word selects a row when
`(w & mask) == match`. The decoder above does not use them. -/
def matchMaskTable : List (Word × Word) :=
  [(0x00000000, 0xFFFFFFFF), (0x01000000, 0xFFFFFFFF), (0x02000000, 0xFFFFFFFF), (0x10000000, 0xFFFFFFFF),
   (0x11000000, 0xFFFFFFFF), (0x12000000, 0xFF8FFFEF), (0x13000000, 0xFF8FFFFF), (0x14000000, 0xFF8FFFFF),
   (0x20000000, 0xFFFFFFFF), (0x21000000, 0xFFFFFFFF), (0x22000000, 0xFFFFFFFF)] ++
  [(0x30000000, 0xFF8FFFFF), (0x31000000, 0xFF8FFFF5), (0x32000000, 0xFF8FFFFF), (0x33000000, 0xFF8FFFF0),
   (0x40000000, 0xFF8FFFFF), (0x41000000, 0xFF0FFFDF), (0x42000000, 0xFF8FFFFF), (0x43000000, 0xFF0FFFDF),
   (0x44000000, 0xFF8FFFFF), (0x45000000, 0xFF0FFFDF), (0x46000000, 0xFF8FFFFF), (0x47000000, 0xFF0FFF1F),
   (0x48000000, 0xFF8FFFFF), (0x49000000, 0xFFFFFFFF), (0x4A000000, 0xFFFFFFFF)] ++
  [(0x50000000, 0xFF0FFFD0), (0x51000000, 0xFF0FFFD0), (0x52000000, 0xFF0FFFD0), (0x53000000, 0xFF0FFF10),
   (0x54000000, 0xFF8FFFFF), (0x55000000, 0xFF8FFFF0), (0x56000000, 0xFFFFFFFF), (0x57000000, 0xFFFFFFFF)]

/-- The command the decoder reads from a table word: a command word is one 32-bit number (R81), whose bits the table
numbers as R81 does; the bits above `nbits` are 0. -/
def decodeTableWord (nbits w : Nat) : Option Instr :=
  match decode (BitVec.ofNat 32 (w % 2 ^ nbits)) with
  | .ok i => some i
  | .error _ => none

end Sys2Proof
end

