-- ==== Sys2Proof/Config.lean ====
section
/-! DEFINITION. What is fixed for one block (00_scope.md R5, R6) and the free values of its reset (70_reset_and_hazards.md R282). -/

namespace Sys2Proof

/-- The four identifier window offsets (R5, R102). A run carries them unchanged beside the state: see log entry 1. -/
structure Offsets where
  nfPhys  : Word
  nfFunc  : Word
  m29Phys : Word
  m29Func : Word
deriving DecidableEq, Repr

/-- One offset's own constraints (R6): low 16 bits zero, and the whole window inside the 29-bit identifier range. -/
abbrev Config.offsetOk (o : Word) : Prop :=
  o.toNat % 0x10000 = 0 ∧ 0x800 ≤ o.toNat ∧ o.toNat + 0xFFFF ≤ 0x1FFFFFFF

/-- The constraints of R6 on the four offsets together: each is in order, and the two windows of one format differ.
A Normal-Fixed window may coincide with a Mixed-29bit one. -/
abbrev Offsets.Ok (o : Offsets) : Prop :=
  Config.offsetOk o.nfPhys ∧ Config.offsetOk o.nfFunc ∧ Config.offsetOk o.m29Phys ∧ Config.offsetOk o.m29Func ∧
  o.nfPhys ≠ o.nfFunc ∧ o.m29Phys ≠ o.m29Func

/-- R5, column "Value for this hardware" of the four `OFF_*` rows.
PRESUMED: the spec marks the four numbers as general knowledge (93_implementation_defined.md G1); log entry 1. -/
def Config.defaultOffsets : Offsets where
  nfPhys  := 0x18DA0000#32
  nfFunc  := 0x18DB0000#32
  m29Phys := 0x18CE0000#32
  m29Func := 0x18CD0000#32

/-- `FILL_RESET`, the reset value of the filler byte (R5, R281). -/
def Config.fillReset : Byte := 0xCC#8

/-- FREE VALUE (R282): the byte that a location of `FB` or `PB`, given by its offset, holds after the hardware reset
number `epoch` until something writes it. Nothing is known of it but that it stays the same. Log entry 2. -/
opaque Config.initByte : (epoch : Nat) → (offset : Nat) → Byte

/-- FREE VALUE (R282): the byte that `PKT.DATA[index]` holds after the hardware reset number `epoch` until a
packet command writes it. Log entry 2. -/
opaque Config.initPacketByte : (epoch : Nat) → (index : Nat) → Byte

end Sys2Proof
end

