-- ==== Sys2Proof/Machine/State.lean ====
section
/-! DEFINITION. The architectural state of the block (10_state.md), the inputs that drive it (20_memory.md R66,
70_reset_and_hazards.md R280), the reasons a step can stop, and the state right after reset (R281). -/

namespace Sys2Proof.Machine

/-- Byte memory: the bytes that something has written, by address, addresses strictly rising. An address that is not
listed has not been written since the hardware reset; what it then reads as is a free value of Config (log entry 2). -/
abbrev Memory := List Host.Cell

/-- The packet register set `PKT` (R40). A field whose presence flag is false, and every field while `valid` is
false, holds bits without meaning (R41, 47_packet.md R216). -/
structure Packet where
  /-- `VALID`: the set holds a packet. -/
  valid    : Bool
  /-- `REC`: the packet is a record. -/
  isRecord : Bool
  /-- `FMT`. -/
  fmt      : Format
  /-- `AT`. -/
  aty      : AddrType
  /-- `ID`. -/
  id       : Word
  /-- `TAP` and `TA`. -/
  tap      : Bool
  ta       : Byte
  /-- `SAP` and `SA`. -/
  sap      : Bool
  sa       : Byte
  /-- `AEP` and `AE`. -/
  aep      : Bool
  ae       : Byte
  /-- `PTYPE`. -/
  ptype    : PacketType
  /-- `DLC`. -/
  dlc      : Dlc
  /-- `LEN`. -/
  len      : BitVec 7
  /-- `DATA[0..63]`, by index. -/
  data     : Memory
  /-- `DIR`. -/
  dir      : Direction
  /-- `TS`. -/
  ts       : BitVec 64
deriving DecidableEq, Repr

/-- The five host actions (20_memory.md R66); an offset is relative to `BASE`. -/
inductive HostAction where
  | wr (off : Nat) (v : Word)
  | rd (off : Nat)
  | wrb (off : Nat) (b : Byte)
  | rdb (off : Nat)
  | cmd (w : Word)
deriving DecidableEq, Repr

/-- What can happen to the block from outside: a host action (R8), or the platform's hardware reset (R280). -/
inductive Input where
  | host (a : HostAction)
  | hardReset
deriving DecidableEq, Repr

/-- The state of one block, and beside it the four fields of the model's own that stand for its surroundings. -/
structure State where
  /-- The operand/result registers `x[0..18]` (R21). -/
  x       : Vector Word 19
  /-- `STATUS` (R31): `ERR` in bits 3:0, `WARN` in bit 4. -/
  status  : Word
  /-- `ESTICKY` (R32): `E[k]` in bit `k`, `WARN` in bit 8, `BUS` in bit 9. -/
  esticky : Word
  /-- `CFG` (R33): `FILL` in bits 7:0. -/
  cfg     : Word
  /-- `ECMD` (R34). -/
  ecmd    : Word
  /-- The bytes of `FB` (offsets `0x100` to `0x13F`) and `PB` (`0x140` to `0x17F`) that have been written (R38, R61). -/
  mem     : Memory
  /-- The packet register set (R40). -/
  pkt     : Packet
  /-- MODEL'S OWN: the four identifier offsets of this block, a parameter no step changes (R5, R20; log entry 1). -/
  offs    : Offsets
  /-- MODEL'S OWN: how many hardware resets have happened, which selects the free values of R282 (log entry 2). -/
  epoch   : Nat
  /-- MODEL'S OWN: the inputs still to come, in issue order (R8, R74; log entry 3). -/
  pending : List Input
  /-- MODEL'S OWN: the value the latest host read returned to the host (R68, R69; log entry 4). -/
  rdata   : Word
deriving DecidableEq, Repr

/-- No step of this block stops with a fault: every command ends with a status code, a bad access is ignored, and there
is no wait or stuck state (60_exceptions.md R250, R270; 93_implementation_defined.md part 1). The type is empty, so
nothing raises one. -/
inductive Fault where
deriving DecidableEq, Repr

/-- The reason a step refuses. -/
inductive Refusal where
  /-- Raised by the dispatcher alone, for an instruction without a meaning; safe. No instruction of this model is. -/
  | notModelled (mnemonic : String)
deriving DecidableEq, Repr

/-- `PKT` after reset (R281): every scalar field 0 and no data byte written. -/
def Packet.reset : Packet where
  valid := false
  isRecord := false
  fmt := .n11
  aty := .phys
  id := 0#32
  tap := false
  ta := 0#8
  sap := false
  sa := 0#8
  aep := false
  ae := 0#8
  ptype := .sf
  dlc := 0
  len := 0#7
  data := []
  dir := .tx
  ts := 0#64

/-- The block right after the first hardware reset (R281), with no input waiting. -/
def State.reset : State where
  x := Vector.replicate 19 0#32
  status := 0#32
  esticky := 0#32
  cfg := Config.fillReset.setWidth 32
  ecmd := 0#32
  mem := []
  pkt := Packet.reset
  offs := Config.defaultOffsets
  epoch := 0
  pending := []
  rdata := 0#32

end Sys2Proof.Machine
end

