-- ==== Sys2Proof/Machine/Flags.lean ====
section
/-! DEFINITION. The words of `STATUS` and `ESTICKY` (10_state.md R28, R31, R32) and the view `PKTST` (R35): every
computation of a status or summary bit. -/

namespace Sys2Proof.Machine

/-- `STATUS` with `ERR = code` and `WARN = warn`, the reserved bits 0 (R31). -/
def statusWord (code : Nat) (warn : Bool) : Word :=
  BitVec.ofNat 32 code ||| (if warn then 0x10#32 else 0#32)

/-- `STATUS.ERR` (R31). -/
def State.err (s : State) : Nat := (s.status.extractLsb' 0 4).toNat

/-- `STATUS.WARN` (R31). -/
def State.warn (s : State) : Bool := s.status.getLsbD 4

/-- `ESTICKY` with the bit `E[k]` of an error's code `k` (R32). -/
def stickyErr (sticky : Word) (e : Err) : Word := sticky ||| (1#32 <<< e.code)

/-- `ESTICKY` with the bit `WARN` when the command ended with the warning (R32). -/
def stickyWarn (sticky : Word) (warn : Bool) : Word := sticky ||| (if warn then 0x100#32 else 0#32)

/-- `ESTICKY` with the bit `BUS` (R32). -/
def stickyBus (sticky : Word) : Word := sticky ||| 0x200#32

/-- The bit `b` at place `n` of a word. -/
def bitAt (b : Bool) (n : Nat) : Word := if b then 1#32 <<< n else 0#32

/-- `PKTST`, the live view of `PKT` (R35). -/
def Packet.summary (p : Packet) : Word :=
  bitAt p.valid 0 ||| bitAt p.isRecord 1 ||| (p.fmt.number.setWidth 32 <<< 4) |||
  (BitVec.ofNat 32 p.ptype.number <<< 8) ||| (BitVec.ofNat 32 p.dlc.val <<< 12) ||| (p.len.setWidth 32 <<< 16) |||
  (BitVec.ofNat 32 p.aty.number <<< 24) ||| (BitVec.ofNat 32 p.dir.number <<< 25)

/-- The packed packet summary that `PKT_VIEW` writes to `x[RES]` (47_packet.md R232). -/
def Packet.viewResult (p : Packet) : Word :=
  BitVec.ofNat 32 p.ptype.number ||| (p.fmt.number.setWidth 32 <<< 4) ||| bitAt p.isRecord 8 |||
  (BitVec.ofNat 32 p.dir.number <<< 9)

end Sys2Proof.Machine
end

