-- ==== Sys2Proof/Machine/Ops.lean ====
section
/-! DEFINITION. The named operations over byte memory, registers, buffers and `PKT` that the meanings share, and the two
ways a command ends (60_exceptions.md R255, R256). There is no return from an error: nothing was entered (R264). -/

namespace Sys2Proof.Machine

/-! ## Byte memory -/

/-- The byte written at an address, if any has been. -/
def Memory.read : Memory → Nat → Option Byte
  | [], _ => none
  | (k, v) :: m, a => if k = a then some v else Memory.read m a

/-- Writing one byte keeps the addresses strictly rising. -/
def Memory.write : Memory → Nat → Byte → Memory
  | [], a, b => [(a, b)]
  | (k, v) :: m, a, b =>
    if a < k then (a, b) :: (k, v) :: m
    else if a = k then (a, b) :: m
    else (k, v) :: Memory.write m a b

/-- Writing a list of bytes at rising addresses. -/
def Memory.writeBytes : Memory → Nat → List Byte → Memory
  | m, _, [] => m
  | m, a, b :: bs => Memory.writeBytes (Memory.write m a b) (a + 1) bs

/-- The one canonical form: addresses strictly rising. An unlisted address reads as `none`, so no entry can equal it. -/
abbrev Memory.wf (m : Memory) : Prop := m.Pairwise (fun c d => c.1 < d.1)

/-- `f start, f (start+1), …`, `n` bytes: the slice notation `FB[start..start+n)` of 00_scope.md R10. -/
def bytesFrom (f : Nat → Byte) : (start : Nat) → (n : Nat) → List Byte
  | _, 0 => []
  | start, n + 1 => f start :: bytesFrom f (start + 1) n

/-! ## Buffers (10_state.md R38; 20_memory.md R61, R62) -/

/-- Offset of `FB[0]`. -/
def fbBase : Nat := 0x100
/-- Offset of `PB[0]`. -/
def pbBase : Nat := 0x140

/-- The byte at a buffer offset: what was written last, else its unknown reset byte (R282). -/
def State.byteAt (s : State) (off : Nat) : Byte := (s.mem.read off).getD (Config.initByte s.epoch off)

/-- `FB[i]`. -/
def State.fb (s : State) (i : Nat) : Byte := s.byteAt (fbBase + i)
/-- `PB[i]`. -/
def State.pb (s : State) (i : Nat) : Byte := s.byteAt (pbBase + i)
/-- `FB[0..n)`. -/
def State.frame (s : State) (n : Nat) : List Byte := bytesFrom s.fb 0 n
/-- `PB[0..n)`. -/
def State.payload (s : State) (n : Nat) : List Byte := bytesFrom s.pb 0 n

/-- Write bytes at a buffer offset. -/
def State.storeBytes (s : State) (off : Nat) (bs : List Byte) : State := { s with mem := s.mem.writeBytes off bs }
/-- `FB[i], FB[i+1], … <- bs`. -/
def State.storeFb (s : State) (i : Nat) (bs : List Byte) : State := s.storeBytes (fbBase + i) bs
/-- `PB[i], PB[i+1], … <- bs`. -/
def State.storePb (s : State) (i : Nat) (bs : List Byte) : State := s.storeBytes (pbBase + i) bs

/-- `PKT.DATA[i]`. -/
def State.packetByte (s : State) (i : Nat) : Byte := (s.pkt.data.read i).getD (Config.initPacketByte s.epoch i)
/-- `PKT.DATA[0..n)`. -/
def State.packetFrame (s : State) (n : Nat) : List Byte := bytesFrom s.packetByte 0 n

/-! ## Registers (10_state.md R21, R24, R33) -/

/-- `x[r]`. -/
def State.reg (s : State) (r : Reg) : Word := s.x[r.index]

/-- `x[r] <- v`, all 32 bits (R10). -/
def State.setReg (s : State) (r : Reg) (v : Word) : State := { s with x := s.x.set r.index v r.index.isLt }

/-- `x[r] <- n` for a number that fits the register (R10: zero-extended). -/
def State.setRegNat (s : State) (r : Reg) (n : Nat) : State := s.setReg r (BitVec.ofNat 32 n)

/-- `x[r] <- b` for a byte (R10: zero-extended). -/
def State.setRegByte (s : State) (r : Reg) (b : Byte) : State := s.setReg r (b.setWidth 32)

/-- `x[r] <- b` when the byte is present; an absent result leaves its register alone (R24). -/
def State.setRegByte? (s : State) (r : Reg) : Option Byte → State
  | some b => s.setRegByte r b
  | none => s

/-- The set of registers named, as the bits of their indices (R24). -/
def presenceMask : List Reg → Word
  | [] => 0#32
  | r :: rs => (1#32 <<< r.index.val) ||| presenceMask rs

/-- A register's name when its value is present, for building `x[RP]` (R24). -/
def presentReg {α : Type} (r : Reg) : Option α → List Reg
  | some _ => [r]
  | none => []

/-- `x[RP] <- {…}` (R24). -/
def State.setPresence (s : State) (rs : List Reg) : State := s.setReg .rp (presenceMask rs)

/-- `CFG.FILL` (R33). -/
def State.fill (s : State) : Byte := s.cfg.setWidth 8

/-! ## How a command ends (60_exceptions.md R255, R256) -/

/-- `ok` (R255): `STATUS.ERR` 0, `STATUS.WARN` as given, and the sticky warning with it. -/
def State.endOk (s : State) (warn : Bool) : State :=
  { s with status := statusWord 0 warn, esticky := stickyWarn s.esticky warn }

/-- `raise E_X` (R256): the status code, its sticky bit and the failing command word; nothing else changes. -/
def State.endError (s : State) (e : Err) (w : Word) : State :=
  { s with status := statusWord e.code false, esticky := stickyErr s.esticky e, ecmd := w }

/-- The end of the command word `w` executed in `s`: its effect's state with `ok`, or `s` itself with the error. -/
def concludeWith (w : Word) (s : State) (warn : Bool) (r : Except Err State) : Host.Outcome State Fault Refusal :=
  match r with
  | .ok t => .next (t.endOk warn)
  | .error e => .next (s.endError e w)

/-- The end of a command that cannot warn: every command but `STMIN_DEC` (R254). -/
def conclude (w : Word) (s : State) (r : Except Err State) : Host.Outcome State Fault Refusal :=
  concludeWith w s false r

/-- "if c: raise E_X" of the spec's pseudocode (00_scope.md R10). -/
def raiseIf (c : Prop) [Decidable c] (e : Err) : Except Err Unit := if c then .error e else .ok ()

/-! ## Reset (70_reset_and_hazards.md R281, R282; 48_system.md R241) -/

/-- Every location with a reset value takes it; buffer and packet data bytes keep what they hold (R241). -/
def State.softReset (s : State) : State :=
  { s with
    x := State.reset.x
    status := State.reset.status
    esticky := State.reset.esticky
    cfg := State.reset.cfg
    ecmd := State.reset.ecmd
    pkt := { Packet.reset with data := s.pkt.data } }

/-- A hardware reset (R280): as above, and every buffer and packet data byte becomes unknown again (R282). -/
def State.hardReset (s : State) : State :=
  { State.reset with offs := s.offs, epoch := s.epoch + 1, pending := s.pending, rdata := s.rdata }

end Sys2Proof.Machine
end

