-- ==== Sys2Proof/Machine/Operands.lean ====
section
/-! DEFINITION. Reading the operands of a command: each form with the range check its register has when a command reads
it (10_state.md R21, 60_exceptions.md R258), the optional operands of the presence mask (30_encoding.md R83), and the
group of addressing operands that AI_VALIDATE, the build commands and PKT_SETAI share. -/

namespace Sys2Proof.Machine

/-- `hi4(b)` (00_scope.md R9). -/
def hi4 (b : Byte) : BitVec 4 := b.extractLsb' 4 4
/-- `lo4(b)` (R9). -/
def lo4 (b : Byte) : BitVec 4 := b.extractLsb' 0 4
/-- `{hi, lo}`, two nibbles as a byte (R9). -/
def nibbles (hi lo : BitVec 4) : Byte := hi ++ lo

/-- `W.FMT` as an operand (30_encoding.md R82). -/
def formatOperand (n : BitVec 3) : Except Err Format :=
  match formatOf n with
  | some f => .ok f
  | none => .error .invalidValue

/-- An identifier: at most `0x1FFFFFFF` (40_identifier.md R100). -/
def idOperand (v : Word) : Except Err Word := if v.toNat ≤ 0x1FFFFFFF then .ok v else .error .invalidValue

/-- A raw byte: at most `0xFF`. -/
def byteOperand (v : Word) : Except Err Byte := if v.toNat ≤ 0xFF then .ok (v.setWidth 8) else .error .invalidValue

/-- A nibble: at most 15. -/
def nibbleOperand (v : Word) : Except Err (BitVec 4) := if v.toNat ≤ 15 then .ok (v.setWidth 4) else .error .invalidValue

/-- A data-length code: at most 15. -/
def codeOperand (v : Word) : Except Err Dlc := if h : v.toNat < 16 then .ok ⟨v.toNat, h⟩ else .error .invalidValue

/-- A payload or frame length: at most 64. -/
def lengthOperand (v : Word) : Except Err Nat := if v.toNat ≤ 64 then .ok v.toNat else .error .invalidValue

/-- An addressing type: 0 or 1. -/
def addrTypeOperand (v : Word) : Except Err AddrType :=
  match addrTypeOf v.toNat with
  | some a => .ok a
  | none => .error .invalidValue

/-- A record direction: 0 or 1. -/
def directionOperand (v : Word) : Except Err Direction :=
  match directionOf v.toNat with
  | some d => .ok d
  | none => .error .invalidValue

/-- `pm(r)`, the presence bit of an optional operand (R83). -/
def supplied (pm : BitVec 8) (r : Reg) : Bool := pm.getLsbD r.index.val

/-- An optional operand is read and checked only when its presence bit is set (R83). -/
def optionalOperand {α : Type} (pm : BitVec 8) (r : Reg) (read : Except Err α) : Except Err (Option α) :=
  if supplied pm r then (match read with | .ok v => .ok (some v) | .error e => .error e) else .ok none

/-- The addressing operands of a command, range-checked. -/
structure Addressing where
  fmt : Format
  aty : AddrType
  id? : Option Word
  ta? : Option Byte
  sa? : Option Byte
  ae? : Option Byte
deriving DecidableEq, Repr

/-- The checks of 42_addressing.md R148 and 47_packet.md R219, R228: format, then each supplied register, then `AT`. -/
def addressingOperands (fmt : BitVec 3) (pm : BitVec 8) (s : State) : Except Err Addressing := do
  let f ← formatOperand fmt
  let id? ← optionalOperand pm .id (idOperand (s.reg .id))
  let ta? ← optionalOperand pm .ta (byteOperand (s.reg .ta))
  let sa? ← optionalOperand pm .sa (byteOperand (s.reg .sa))
  let ae? ← optionalOperand pm .ae (byteOperand (s.reg .ae))
  let aty ← addrTypeOperand (s.reg .aty)
  .ok ⟨f, aty, id?, ta?, sa?, ae?⟩

end Sys2Proof.Machine
end

