-- ==== Sys2Proof/Machine/Identifier.lean ====
section
/-! DEFINITION. CAN identifier codec (40_identifier.md): the functions of R100 to R106 and the commands ID_ISSTD,
ID_ISEXT, ID_CLASSIFY, ID_ENCODE, ID_DECODE (R110 to R114). -/

namespace Sys2Proof.Machine

/-! ## Functions -/

/-- R101. -/
def isStandard (id : Word) : Bool := id.toNat ≤ 0x7FF

/-- R101. -/
def isExtended (id : Word) : Bool := 0x800 ≤ id.toNat ∧ id.toNat ≤ 0x1FFFFFFF

/-- `off(f, at)` (R102). -/
def windowOffset (o : Offsets) : Windowed → AddrType → Word
  | .nf, .phys => o.nfPhys
  | .nf, .func => o.nfFunc
  | .m29, .phys => o.m29Phys
  | .m29, .func => o.m29Func

/-- `in_window(id, f, at)` (R103). -/
def inWindow (o : Offsets) (id : Word) (f : Windowed) (aty : AddrType) : Bool :=
  (windowOffset o f aty).toNat ≤ id.toNat ∧ id.toNat ≤ (windowOffset o f aty).toNat + 0xFFFF

/-- `id_encode(f, at, ta, sa)` (R104). -/
def idEncode (o : Offsets) (f : Windowed) (aty : AddrType) (ta sa : Byte) : Word :=
  BitVec.ofNat 32 ((windowOffset o f aty).toNat + (ta.toNat <<< 8) + sa.toNat)

/-- What an identifier with structure carries. -/
structure IdFields where
  aty : AddrType
  ta  : Byte
  sa  : Byte
deriving DecidableEq, Repr

/-- `(id >> 8) & 0xFF` (R105). -/
def idTarget (id : Word) : Byte := id.extractLsb' 8 8
/-- `id & 0xFF` (R105). -/
def idSource (id : Word) : Byte := id.extractLsb' 0 8

/-- `id_decode(f, id)` (R105). -/
def idDecode (o : Offsets) (f : Windowed) (id : Word) : Except Err IdFields :=
  if isExtended id = false then .error .inconsistent
  else if inWindow o id f .phys then .ok ⟨.phys, idTarget id, idSource id⟩
  else if inWindow o id f .func then .ok ⟨.func, idTarget id, idSource id⟩
  else .error .notImpl

/-- Membership in the window of an addressing type, or of either when none is given (R106). -/
def inSomeWindow (o : Offsets) (id : Word) (f : Windowed) (aty? : Option AddrType) : Bool :=
  match aty? with
  | some aty => inWindow o id f aty
  | none => inWindow o id f .phys || inWindow o id f .func

/-- `id_classify(id, f, at?)` (R106). -/
def idClassify (o : Offsets) (id : Word) (f : Format) (aty? : Option AddrType) : Bool :=
  match f with
  | .n11 => isStandard id
  | .m11 => isStandard id
  | .ext => true
  | .nf => inSomeWindow o id .nf aty?
  | .m29 => inSomeWindow o id .m29 aty?

/-- The format of ID_ENCODE and ID_DECODE must have identifier structure (R113, R114). -/
def windowedOperand (f : Format) : Except Err Windowed :=
  match windowedOf f with
  | some g => .ok g
  | none => .error .inconsistent

/-- A truth value in `x[RES]`, with no other result (R110, R111, R112). -/
def State.setTruth (s : State) (b : Bool) : State := (s.setRegNat .res (if b then 1 else 0)).setPresence []

/-! ## Commands -/

/-- ID_ISSTD (R110). -/
def execIdIsstd (s : State) : Host.Outcome State Fault Refusal :=
  conclude (encode .idIsstd) s (.ok (s.setTruth (isStandard (s.reg .id))))

/-- ID_ISEXT (R111). -/
def execIdIsext (s : State) : Host.Outcome State Fault Refusal :=
  conclude (encode .idIsext) s (.ok (s.setTruth (isExtended (s.reg .id))))

/-- ID_CLASSIFY's checks and result (R112). -/
def idClassifyResult (fmt : BitVec 3) (pm : BitVec 8) (s : State) : Except Err State := do
  let f ← formatOperand fmt
  let id ← idOperand (s.reg .id)
  let aty? ← optionalOperand pm .aty (addrTypeOperand (s.reg .aty))
  .ok (s.setTruth (idClassify s.offs id f aty?))

/-- ID_CLASSIFY (R112). -/
def execIdClassify (fmt : BitVec 3) (pm : BitVec 8) (s : State) : Host.Outcome State Fault Refusal :=
  conclude (encode (.idClassify fmt pm)) s (idClassifyResult fmt pm s)

/-- ID_ENCODE's checks and result (R113). -/
def idEncodeResult (fmt : BitVec 3) (s : State) : Except Err State := do
  let f ← formatOperand fmt
  let ta ← byteOperand (s.reg .ta)
  let sa ← byteOperand (s.reg .sa)
  let aty ← addrTypeOperand (s.reg .aty)
  let g ← windowedOperand f
  .ok ((s.setReg .id (idEncode s.offs g aty ta sa)).setPresence [.id])

/-- ID_ENCODE (R113). -/
def execIdEncode (fmt : BitVec 3) (s : State) : Host.Outcome State Fault Refusal :=
  conclude (encode (.idEncode fmt)) s (idEncodeResult fmt s)

/-- ID_DECODE's checks and results (R114). -/
def idDecodeResult (fmt : BitVec 3) (s : State) : Except Err State := do
  let f ← formatOperand fmt
  let id ← idOperand (s.reg .id)
  let g ← windowedOperand f
  let r ← idDecode s.offs g id
  .ok ((((s.setRegNat .aty r.aty.number).setRegByte .ta r.ta).setRegByte .sa r.sa).setPresence [.aty, .ta, .sa])

/-- ID_DECODE (R114). -/
def execIdDecode (fmt : BitVec 3) (s : State) : Host.Outcome State Fault Refusal :=
  conclude (encode (.idDecode fmt)) s (idDecodeResult fmt s)

end Sys2Proof.Machine
end

