-- ==== Sys2Proof/Machine/Addressing.lean ====
section
/-! DEFINITION. Addressing-information codec (42_addressing.md): the functions of R132 to R140 and the commands
AI_NBYTES, AI_ENCDATA, AI_DECODE, AI_VALIDATE (R145 to R148). -/

namespace Sys2Proof.Machine

/-! ## Functions -/

/-- `ai_n(f)` (R132). -/
def aiBytes : Format → Nat
  | .n11 => 0 | .nf => 0 | .ext => 1 | .m11 => 1 | .m29 => 1

/-- `ai_enc_data(f, ta?, ae?)` (R134): an argument the format does not need is ignored. -/
def aiEncData (f : Format) (ta? ae? : Option Byte) : Except Err (List Byte) :=
  match f with
  | .n11 => .ok []
  | .nf => .ok []
  | .ext => match ta? with
    | some ta => .ok [ta]
    | none => .error .inconsistent
  | .m11 => match ae? with
    | some ae => .ok [ae]
    | none => .error .inconsistent
  | .m29 => match ae? with
    | some ae => .ok [ae]
    | none => .error .inconsistent

/-- What is recovered from an identifier and a data field (R135). -/
structure AiFields where
  aty? : Option AddrType
  ta?  : Option Byte
  sa?  : Option Byte
  ae?  : Option Byte
deriving DecidableEq, Repr

/-- The addressing data byte of a data field, when the format has one (R135). -/
def firstByte : List Byte → Except Err Byte
  | [] => .error .inconsistent
  | b :: _ => .ok b

/-- `ai_decode(f, id, data)` (R135). No field is offered by both sources, so R136's preference never chooses. -/
def aiDecode (o : Offsets) (f : Format) (id : Word) (data : List Byte) : Except Err AiFields :=
  match f with
  | .n11 => do
    raiseIf (isStandard id = false) .inconsistent
    .ok ⟨none, none, none, none⟩
  | .nf => do
    let r ← idDecode o .nf id
    .ok ⟨some r.aty, some r.ta, some r.sa, none⟩
  | .ext => do
    let b ← firstByte data
    .ok ⟨none, some b, none, none⟩
  | .m11 => do
    raiseIf (isStandard id = false) .inconsistent
    let b ← firstByte data
    .ok ⟨none, none, none, some b⟩
  | .m29 => do
    let r ← idDecode o .m29 id
    let b ← firstByte data
    .ok ⟨some r.aty, some r.ta, some r.sa, some b⟩

/-- The identifier, target and source of a format with identifier structure, all known. -/
structure Resolved where
  id : Word
  ta : Byte
  sa : Byte
deriving DecidableEq, Repr

/-- A supplied value that differs from the one the identifier carries (R140: "explicit `None` matches anything"). -/
def differs (given? : Option Byte) (v : Byte) : Bool :=
  match given? with
  | some g => g ≠ v
  | none => false

/-- A mandatory argument (R140). -/
def mandatory {α : Type} (v? : Option α) : Except Err α :=
  match v? with
  | some v => .ok v
  | none => .error .inconsistent

/-- `resolve29(f, at, id?, ta?, sa?)` (R140). -/
def resolve29 (o : Offsets) (f : Windowed) (aty : AddrType) (id? : Option Word) (ta? sa? : Option Byte) :
    Except Err Resolved :=
  match id? with
  | some id => do
    let r ← idDecode o f id
    raiseIf (r.aty ≠ aty) .inconsistent
    raiseIf (differs ta? r.ta) .inconsistent
    raiseIf (differs sa? r.sa) .inconsistent
    .ok ⟨id, r.ta, r.sa⟩
  | none => do
    let ta ← mandatory ta?
    let sa ← mandatory sa?
    .ok ⟨idEncode o f aty ta sa, ta, sa⟩

/-- A normalised addressing information value (R131): its optional fields are present exactly as R133 says. -/
structure Normalised where
  id  : Word
  ta? : Option Byte
  sa? : Option Byte
  ae? : Option Byte
deriving DecidableEq, Repr

/-- `ai_validate(f, at, id?, ta?, sa?, ae?)` (R140), the checks in the order written. -/
def aiValidate (o : Offsets) (v : Addressing) : Except Err Normalised :=
  match v.fmt with
  | .n11 => do
    raiseIf (v.ta?.isSome ∨ v.sa?.isSome ∨ v.ae?.isSome) .unusedArg
    let id ← mandatory v.id?
    raiseIf (isStandard id = false) .inconsistent
    .ok ⟨id, none, none, none⟩
  | .nf => do
    raiseIf v.ae?.isSome .unusedArg
    let r ← resolve29 o .nf v.aty v.id? v.ta? v.sa?
    .ok ⟨r.id, some r.ta, some r.sa, none⟩
  | .ext => do
    raiseIf (v.sa?.isSome ∨ v.ae?.isSome) .unusedArg
    let id ← mandatory v.id?
    let ta ← mandatory v.ta?
    .ok ⟨id, some ta, none, none⟩
  | .m11 => do
    raiseIf (v.ta?.isSome ∨ v.sa?.isSome) .unusedArg
    let id ← mandatory v.id?
    raiseIf (isStandard id = false) .inconsistent
    let ae ← mandatory v.ae?
    .ok ⟨id, none, none, some ae⟩
  | .m29 => do
    let ae ← mandatory v.ae?
    let r ← resolve29 o .m29 v.aty v.id? v.ta? v.sa?
    .ok ⟨r.id, some r.ta, some r.sa, some ae⟩

/-! ## Commands -/

/-- AI_NBYTES's check and result (R145). -/
def aiNbytesResult (fmt : BitVec 3) (s : State) : Except Err State := do
  let f ← formatOperand fmt
  .ok ((s.setRegNat .res (aiBytes f)).setPresence [])

/-- AI_NBYTES (R145). -/
def execAiNbytes (fmt : BitVec 3) (s : State) : Host.Outcome State Fault Refusal :=
  conclude (encode (.aiNbytes fmt)) s (aiNbytesResult fmt s)

/-- AI_ENCDATA's checks and results (R146). -/
def aiEncdataResult (fmt : BitVec 3) (pm : BitVec 8) (s : State) : Except Err State := do
  let f ← formatOperand fmt
  let ta? ← optionalOperand pm .ta (byteOperand (s.reg .ta))
  let ae? ← optionalOperand pm .ae (byteOperand (s.reg .ae))
  let d ← aiEncData f ta? ae?
  .ok (((s.storeFb 0 d).setRegNat .res d.length).setPresence [])

/-- AI_ENCDATA (R146). -/
def execAiEncdata (fmt : BitVec 3) (pm : BitVec 8) (s : State) : Host.Outcome State Fault Refusal :=
  conclude (encode (.aiEncdata fmt pm)) s (aiEncdataResult fmt pm s)

/-- `if at present: x[AT] <- at`. -/
def State.setAddrType? (s : State) : Option AddrType → State
  | some aty => s.setRegNat .aty aty.number
  | none => s

/-- AI_DECODE's checks and results (R147). -/
def aiDecodeResult (fmt : BitVec 3) (s : State) : Except Err State := do
  let f ← formatOperand fmt
  let id ← idOperand (s.reg .id)
  let n ← lengthOperand (s.reg .flen)
  let r ← aiDecode s.offs f id (s.frame n)
  .ok (((((s.setAddrType? r.aty?).setRegByte? .ta r.ta?).setRegByte? .sa r.sa?).setRegByte? .ae r.ae?).setPresence
    (presentReg .aty r.aty? ++ presentReg .ta r.ta? ++ presentReg .sa r.sa? ++ presentReg .ae r.ae?))

/-- AI_DECODE (R147). -/
def execAiDecode (fmt : BitVec 3) (s : State) : Host.Outcome State Fault Refusal :=
  conclude (encode (.aiDecode fmt)) s (aiDecodeResult fmt s)

/-- AI_VALIDATE's checks and results (R148). -/
def aiValidateResult (fmt : BitVec 3) (pm : BitVec 8) (s : State) : Except Err State := do
  let v ← addressingOperands fmt pm s
  let r ← aiValidate s.offs v
  .ok (((((s.setReg .id r.id).setRegByte? .ta r.ta?).setRegByte? .sa r.sa?).setRegByte? .ae r.ae?).setPresence
    ([.id, .aty] ++ presentReg .ta r.ta? ++ presentReg .sa r.sa? ++ presentReg .ae r.ae?))

/-- AI_VALIDATE (R148). -/
def execAiValidate (fmt : BitVec 3) (pm : BitVec 8) (s : State) : Host.Outcome State Fault Refusal :=
  conclude (encode (.aiValidate fmt pm)) s (aiValidateResult fmt pm s)

end Sys2Proof.Machine
end

