-- ==== Sys2Proof/Machine/DataLength.lean ====
section
/-! DEFINITION. CAN data-length codec (41_dlc.md): the table and functions of R120 to R122 and the commands DLC_DECODE,
DLC_ENCODE, DLC_MIN (R125 to R127). -/

namespace Sys2Proof.Machine

/-! ## Functions -/

/-- The table of R120, by code. -/
def dlcTable : Vector Nat 16 := #v[0, 1, 2, 3, 4, 5, 6, 7, 8, 12, 16, 20, 24, 32, 48, 64]

/-- `bytes(c)` (R120). -/
def dlcBytes (c : Dlc) : Nat := dlcTable[c]

/-- The sixteen codes in ascending order, and so in ascending order of their byte counts. -/
def allCodes : List Dlc := [0, 1, 2, 3, 4, 5, 6, 7, 8, 9, 10, 11, 12, 13, 14, 15]

/-- `dlc_exact(n)` (R121). -/
def dlcExact (n : Nat) : Except Err Dlc :=
  match allCodes.find? (fun c => dlcBytes c == n) with
  | some c => .ok c
  | none => .error .invalidValue

/-- `dlc_min(n)` (R122): the first code whose frame holds `n` bytes. -/
def dlcMin (n : Nat) : Except Err Dlc :=
  match allCodes.find? (fun c => decide (n ≤ dlcBytes c)) with
  | some c => .ok c
  | none => .error .invalidValue

/-! ## Commands -/

/-- DLC_DECODE's check and result (R125). -/
def dlcDecodeResult (s : State) : Except Err State := do
  let c ← codeOperand (s.reg .dlc)
  .ok ((s.setRegNat .dl (dlcBytes c)).setPresence [.dl])

/-- DLC_DECODE (R125). -/
def execDlcDecode (s : State) : Host.Outcome State Fault Refusal :=
  conclude (encode .dlcDecode) s (dlcDecodeResult s)

/-- DLC_ENCODE's check and result (R126). -/
def dlcEncodeResult (s : State) : Except Err State := do
  let c ← dlcExact (s.reg .dl).toNat
  .ok ((s.setRegNat .dlc c.val).setPresence [.dlc])

/-- DLC_ENCODE (R126). -/
def execDlcEncode (s : State) : Host.Outcome State Fault Refusal :=
  conclude (encode .dlcEncode) s (dlcEncodeResult s)

/-- DLC_MIN's check and result (R127). -/
def dlcMinResult (s : State) : Except Err State := do
  let c ← dlcMin (s.reg .dl).toNat
  .ok ((s.setRegNat .dlc c.val).setPresence [.dlc])

/-- DLC_MIN (R127). -/
def execDlcMin (s : State) : Host.Outcome State Fault Refusal :=
  conclude (encode .dlcMin) s (dlcMinResult s)

end Sys2Proof.Machine
end

