-- ==== Sys2Proof/Machine/PacketCommon.lean ====
section
/-! DEFINITION. What the four packet-type codecs share (43_single_frame.md R150 to R154): the packet type of a frame,
the padding, the encoder's result and its delivery, the operands common to encoders and decoders; and PT_GET (R160). -/

namespace Sys2Proof.Machine

/-- An encoder's result (R154): a code and the bytes that follow the addressing bytes. -/
structure Encoded where
  code : Dlc
  body : List Byte
deriving DecidableEq, Repr

/-- Byte `i` of a frame; a rule reads it only below the frame's length. -/
def frameByte (frame : List Byte) (i : Nat) : Byte := frame.getD i 0#8

/-- `n` filler bytes (R154). -/
def padding (fill : Byte) (n : Nat) : List Byte := List.replicate n fill

/-- `emit(a, c, body)` (R154). -/
def State.emit (s : State) (a : Nat) (e : Encoded) : State :=
  (((s.storeFb a e.body).setRegNat .flen (dlcBytes e.code)).setRegNat .dlc e.code.val).setPresence [.dlc]

/-- The operands every leaf decoder reads first (R162, R179, R191, R211): the format and the frame. -/
structure FrameOperands where
  a     : Nat
  frame : List Byte
deriving DecidableEq, Repr

/-- "if W.FMT > 4 …; if x[FLEN] > 64 …; a := ai_n(W.FMT)" of PT_GET and the decoders. -/
def frameOperands (fmt : BitVec 3) (s : State) : Except Err FrameOperands := do
  let f ← formatOperand fmt
  let n ← lengthOperand (s.reg .flen)
  .ok ⟨aiBytes f, s.frame n⟩

/-- `PB[0..len(pay)) <- pay; x[PLEN] <- len(pay)` of the decoders (R162, R179, R191). -/
def State.deliverPayload (s : State) (pay : List Byte) : State := (s.storePb 0 pay).setRegNat .plen pay.length

/-- The packet type nibble must be this decoder's own (R152). -/
def requireType (t : PacketType) (b : Byte) : Except Err Unit :=
  raiseIf (packetTypeOf (hi4 b) ≠ some t) .invalidValue

/-- PT_GET's checks and result (R160). -/
def ptGetResult (fmt : BitVec 3) (s : State) : Except Err State := do
  let f ← formatOperand fmt
  let n ← lengthOperand (s.reg .flen)
  raiseIf (n < aiBytes f + 1) .inconsistent
  match packetTypeOf (hi4 (s.fb (aiBytes f))) with
  | some t => .ok ((s.setRegNat .res t.number).setPresence [])
  | none => .error .invalidValue

/-- PT_GET (R160). -/
def execPtGet (fmt : BitVec 3) (s : State) : Host.Outcome State Fault Refusal :=
  conclude (encode (.ptGet fmt)) s (ptGetResult fmt s)

end Sys2Proof.Machine
end

