-- ==== Sys2Proof/Machine/ConsecutiveFrame.lean ====
section
/-! DEFINITION. Consecutive Frame codec (45_consecutive_frame.md R185 to R187) and the commands CF_ENC (R190) and
CF_DEC (R191). The payload a decoder reports is the whole remainder, filler included (R188). -/

namespace Sys2Proof.Machine

/-- The code of a frame that may be padded (R186). -/
def cfCode (need : Nat) (dlc? : Option Dlc) : Except Err Dlc :=
  match dlc? with
  | some c => .ok c
  | none => if need ≤ 64 then dlcMin need else .error .inconsistent

/-- `cf_encode(a, pay, sn, dlc?, any)` (R186). -/
def cfEncode (a : Nat) (pay : List Byte) (sn : BitVec 4) (dlc? : Option Dlc) (any : Bool) (fill : Byte) :
    Except Err Encoded := do
  let len := pay.length
  raiseIf (any = false ∧ len < 1) .invalidValue
  let c ← cfCode (a + 1 + len) dlc?
  let n := dlcBytes c
  raiseIf (a + 1 + len > n) .inconsistent
  .ok ⟨c, [nibbles 2#4 sn] ++ pay ++ padding fill (n - a - 1 - len)⟩

/-- A decoded Consecutive Frame. -/
structure SequenceView where
  code : Dlc
  sn   : BitVec 4
  pay  : List Byte
deriving DecidableEq, Repr

/-- `cf_decode(a, frame)` (R187). -/
def cfDecode (a : Nat) (frame : List Byte) : Except Err SequenceView := do
  let n := frame.length
  let c ← dlcExact n
  raiseIf (n < a + 2) .inconsistent
  let p := frameByte frame a
  requireType .cf p
  .ok ⟨c, lo4 p, frame.drop (a + 1)⟩

/-- CF_ENC's checks and results (R190). -/
def cfEncResult (any : Bool) (fmt : BitVec 3) (pm : BitVec 8) (s : State) : Except Err State := do
  let f ← formatOperand fmt
  let dlc? ← optionalOperand pm .dlc (codeOperand (s.reg .dlc))
  let sn ← nibbleOperand (s.reg .sn)
  let len ← lengthOperand (s.reg .plen)
  let e ← cfEncode (aiBytes f) (s.payload len) sn dlc? any s.fill
  .ok (s.emit (aiBytes f) e)

/-- CF_ENC (R190). -/
def execCfEnc (any : Bool) (fmt : BitVec 3) (pm : BitVec 8) (s : State) : Host.Outcome State Fault Refusal :=
  conclude (encode (.cfEnc any fmt pm)) s (cfEncResult any fmt pm s)

/-- CF_DEC's checks and results (R191). -/
def cfDecResult (fmt : BitVec 3) (s : State) : Except Err State := do
  let o ← frameOperands fmt s
  let r ← cfDecode o.a o.frame
  .ok ((((s.deliverPayload r.pay).setRegNat .sn r.sn.toNat).setRegNat .dlc r.code.val).setPresence [.dlc, .sn, .plen])

/-- CF_DEC (R191). -/
def execCfDec (fmt : BitVec 3) (s : State) : Host.Outcome State Fault Refusal :=
  conclude (encode (.cfDec fmt)) s (cfDecResult fmt s)

end Sys2Proof.Machine
end

