-- ==== Sys2Proof/Machine/SingleFrame.lean ====
section
/-! DEFINITION. Single Frame codec (43_single_frame.md R155 to R158) and the commands SF_ENC (R161) and SF_DEC (R162). -/

namespace Sys2Proof.Machine

/-- `sf_cap(a, c)` (R155), an integer: negative or zero for the smallest codes. -/
def sfCap (a : Nat) (c : Dlc) : Int :=
  if c.val ≤ 8 then (dlcBytes c : Int) - a - 1 else (dlcBytes c : Int) - a - 2

/-- The code of a Single Frame (R157): the one supplied, else the short form without padding, else the least long one. -/
def sfCode (a len : Nat) (dlc? : Option Dlc) : Except Err Dlc :=
  match dlc? with
  | some c => .ok c
  | none =>
    if a + 1 + len ≤ 8 then dlcExact (a + 1 + len)
    else if a + 2 + len ≤ 64 then dlcMin (a + 2 + len)
    else .error .inconsistent

/-- `sf_encode(a, pay, dlc?, any, dl, fill)` (R157). -/
def sfEncode (a : Nat) (pay : List Byte) (dlc? : Option Dlc) (any : Bool) (dl : Nat) (fill : Byte) :
    Except Err Encoded := do
  let len := pay.length
  raiseIf (any = false ∧ len < 1) .invalidValue
  let c ← sfCode a len dlc?
  let n := dlcBytes c
  let sfdl := if any then dl else len
  if c.val ≤ 8 then do
    raiseIf (a + 1 + len > n) .inconsistent
    raiseIf (any = false ∧ a + 1 + len ≠ n) .inconsistent
    raiseIf (sfdl > 0xF) .invalidValue
    .ok ⟨c, [BitVec.ofNat 8 sfdl] ++ pay ++ padding fill (n - a - 1 - len)⟩
  else do
    raiseIf (a + 2 + len > n) .inconsistent
    raiseIf (sfdl > 0xFF) .invalidValue
    .ok ⟨c, [0x00#8, BitVec.ofNat 8 sfdl] ++ pay ++ padding fill (n - a - 2 - len)⟩

/-- A decoded Single Frame or First Frame: its code, the length it announces (SF_DL or FF_DL) and its payload. -/
structure LengthView where
  code : Dlc
  dl   : Nat
  pay  : List Byte
deriving DecidableEq, Repr

/-- `sf_decode(a, frame)` (R158). -/
def sfDecode (a : Nat) (frame : List Byte) : Except Err LengthView := do
  let n := frame.length
  let c ← dlcExact n
  raiseIf (n < a + 1) .inconsistent
  let p := frameByte frame a
  requireType .sf p
  if c.val ≤ 8 then do
    let sfdl := (lo4 p).toNat
    raiseIf (sfdl < 1) .invalidValue
    raiseIf (a + 1 + sfdl ≠ n) .inconsistent
    .ok ⟨c, sfdl, (frame.drop (a + 1)).take sfdl⟩
  else do
    raiseIf (lo4 p ≠ 0#4) .inconsistent
    let sfdl := (frameByte frame (a + 1)).toNat
    raiseIf (sfdl < 1) .invalidValue
    raiseIf (a + 2 + sfdl > n) .inconsistent
    .ok ⟨c, sfdl, (frame.drop (a + 2)).take sfdl⟩

/-- SF_ENC's checks and results (R161). -/
def sfEncResult (any : Bool) (fmt : BitVec 3) (pm : BitVec 8) (s : State) : Except Err State := do
  let f ← formatOperand fmt
  let dlc? ← optionalOperand pm .dlc (codeOperand (s.reg .dlc))
  let len ← lengthOperand (s.reg .plen)
  let e ← sfEncode (aiBytes f) (s.payload len) dlc? any (s.reg .dl).toNat s.fill
  .ok (s.emit (aiBytes f) e)

/-- SF_ENC (R161). -/
def execSfEnc (any : Bool) (fmt : BitVec 3) (pm : BitVec 8) (s : State) : Host.Outcome State Fault Refusal :=
  conclude (encode (.sfEnc any fmt pm)) s (sfEncResult any fmt pm s)

/-- SF_DEC's checks and results (R162). -/
def sfDecResult (fmt : BitVec 3) (s : State) : Except Err State := do
  let o ← frameOperands fmt s
  let r ← sfDecode o.a o.frame
  .ok ((((s.deliverPayload r.pay).setRegNat .dl r.dl).setRegNat .dlc r.code.val).setPresence [.dlc, .dl, .plen])

/-- SF_DEC (R162). -/
def execSfDec (fmt : BitVec 3) (s : State) : Host.Outcome State Fault Refusal :=
  conclude (encode (.sfDec fmt)) s (sfDecResult fmt s)

end Sys2Proof.Machine
end

