-- ==== Sys2Proof/Machine/FirstFrame.lean ====
section
/-! DEFINITION. First Frame codec (44_first_frame.md R170 to R174) and the commands FF_ENC (R178) and FF_DEC (R179).
The escape form is modelled as R172 lays it out (the spec marks the layout as general knowledge: log entry 5). -/

namespace Sys2Proof.Machine

/-- The number of PCI bytes for a message length (R171, R173). -/
def ffPciBytes (dl : Word) : Nat := if dl.toNat > 4095 then 6 else 2

/-- The PCI bytes (R170 and R172; 20_memory.md R63): most significant part first. -/
def ffPci (dl : Word) : List Byte :=
  if dl.toNat > 4095 then
    [0x10#8, 0x00#8, dl.extractLsb' 24 8, dl.extractLsb' 16 8, dl.extractLsb' 8 8, dl.extractLsb' 0 8]
  else [nibbles 1#4 (dl.extractLsb' 8 4), dl.extractLsb' 0 8]

/-- The code of a First Frame (R173): the one supplied, else the one whose frame is filled exactly. -/
def ffCode (total : Nat) (dlc? : Option Dlc) : Except Err Dlc :=
  match dlc? with
  | some c => .ok c
  | none =>
    match dlcExact total with
    | .ok c => .ok c
    | .error _ => .error .inconsistent

/-- `ff_encode(a, pay, D, dlc?, any)` (R173). -/
def ffEncode (a : Nat) (pay : List Byte) (dl : Word) (dlc? : Option Dlc) (any : Bool) : Except Err Encoded := do
  let len := pay.length
  raiseIf (any = false ∧ len < 1) .invalidValue
  let k := ffPciBytes dl
  let c ← ffCode (a + k + len) dlc?
  raiseIf (a + k + len ≠ dlcBytes c) .inconsistent
  raiseIf (any = false ∧ (dl.toNat : Int) ≤ sfCap a c) .inconsistent
  .ok ⟨c, ffPci dl ++ pay⟩

/-- The length field of a First Frame: FF_DL and the number of PCI bytes (R170, R171, R172). -/
structure FfLength where
  dl : Nat
  k  : Nat
deriving DecidableEq, Repr

/-- The 12-bit field, or the escape form when it is 0 (R174). -/
def ffLength (a : Nat) (frame : List Byte) : Except Err FfLength := do
  let v := (lo4 (frameByte frame a)).toNat <<< 8 ||| (frameByte frame (a + 1)).toNat
  if v ≠ 0 then .ok ⟨v, 2⟩
  else do
    raiseIf (frame.length < a + 6) .inconsistent
    let d := (frameByte frame (a + 2)).toNat <<< 24 ||| (frameByte frame (a + 3)).toNat <<< 16 |||
      (frameByte frame (a + 4)).toNat <<< 8 ||| (frameByte frame (a + 5)).toNat
    raiseIf (d ≤ 4095) .inconsistent
    .ok ⟨d, 6⟩

/-- `ff_decode(a, frame)` (R174). -/
def ffDecode (a : Nat) (frame : List Byte) : Except Err LengthView := do
  let n := frame.length
  let c ← dlcExact n
  raiseIf (n < a + 2) .inconsistent
  requireType .ff (frameByte frame a)
  let l ← ffLength a frame
  raiseIf (n < a + l.k + 1) .inconsistent
  raiseIf ((l.dl : Int) ≤ sfCap a c) .inconsistent
  .ok ⟨c, l.dl, frame.drop (a + l.k)⟩

/-- FF_ENC's checks and results (R178). -/
def ffEncResult (any : Bool) (fmt : BitVec 3) (pm : BitVec 8) (s : State) : Except Err State := do
  let f ← formatOperand fmt
  let dlc? ← optionalOperand pm .dlc (codeOperand (s.reg .dlc))
  let len ← lengthOperand (s.reg .plen)
  let e ← ffEncode (aiBytes f) (s.payload len) (s.reg .dl) dlc? any
  .ok (s.emit (aiBytes f) e)

/-- FF_ENC (R178). -/
def execFfEnc (any : Bool) (fmt : BitVec 3) (pm : BitVec 8) (s : State) : Host.Outcome State Fault Refusal :=
  conclude (encode (.ffEnc any fmt pm)) s (ffEncResult any fmt pm s)

/-- FF_DEC's checks and results (R179). -/
def ffDecResult (fmt : BitVec 3) (s : State) : Except Err State := do
  let o ← frameOperands fmt s
  let r ← ffDecode o.a o.frame
  .ok ((((s.deliverPayload r.pay).setRegNat .dl r.dl).setRegNat .dlc r.code.val).setPresence [.dlc, .dl, .plen])

/-- FF_DEC (R179). -/
def execFfDec (fmt : BitVec 3) (s : State) : Host.Outcome State Fault Refusal :=
  conclude (encode (.ffDec fmt)) s (ffDecResult fmt s)

end Sys2Proof.Machine
end

