-- ==== Sys2Proof/Machine/FlowControl.lean ====
section
/-! DEFINITION. Flow Control codec and separation-time conversion (46_flow_control.md R195 to R206) and the commands
FC_ENC (R210), FC_DEC (R211), STMIN_DEC (R212), STMIN_ENC (R213). -/

namespace Sys2Proof.Machine

/-! ## Flow Control -/

/-- The code of a Flow Control frame: the one supplied, else the least that holds `need` bytes (R196, R198). -/
def fcCode (need : Nat) (dlc? : Option Dlc) : Except Err Dlc :=
  match dlc? with
  | some c => .ok c
  | none => dlcMin need

/-- A Flow Control frame from its PCI bytes: the code, the size check and the filler (R196, R198). -/
def fcFinish (a : Nat) (pci : List Byte) (dlc? : Option Dlc) (fill : Byte) : Except Err Encoded := do
  let need := a + pci.length
  let c ← fcCode need dlc?
  let n := dlcBytes c
  raiseIf (n < need) .inconsistent
  .ok ⟨c, pci ++ padding fill (n - need)⟩

/-- The two bytes after the PCI byte in valid mode (R196): BS and ST for ContinueToSend, filler for Wait and Overflow. -/
def fcValidTail (fs : FlowStatus) (bs? st? : Option Byte) (fill : Byte) : Except Err (List Byte) :=
  match fs with
  | .cts => do
    let bs ← mandatory bs?
    let st ← mandatory st?
    .ok [bs, st]
  | .wait => do
    raiseIf (bs?.isSome ∨ st?.isSome) .inconsistent
    .ok [fill, fill]
  | .ovfl => do
    raiseIf (bs?.isSome ∨ st?.isSome) .inconsistent
    .ok [fill, fill]

/-- `fc_encode` in valid mode (R196). -/
def fcEncodeValid (a : Nat) (fs : BitVec 4) (bs? st? : Option Byte) (dlc? : Option Dlc) (fill : Byte) :
    Except Err Encoded :=
  match flowStatusOf fs with
  | none => .error .invalidValue
  | some status => do
    let tail ← fcValidTail status bs? st? fill
    fcFinish a (nibbles 3#4 fs :: tail) dlc? fill

/-- `fc_encode` in any mode (R198). -/
def fcEncodeAny (a : Nat) (fs : BitVec 4) (bs? st? : Option Byte) (dlc? : Option Dlc) (fill : Byte) :
    Except Err Encoded := do
  raiseIf (st?.isSome ∧ bs?.isNone) .inconsistent
  fcFinish a (nibbles 3#4 fs :: (bs?.toList ++ st?.toList)) dlc? fill

/-- `fc_encode(a, fs, bs?, st?, dlc?, any)` (R196, R198). -/
def fcEncode (a : Nat) (fs : BitVec 4) (bs? st? : Option Byte) (dlc? : Option Dlc) (any : Bool) (fill : Byte) :
    Except Err Encoded :=
  if any then fcEncodeAny a fs bs? st? dlc? fill else fcEncodeValid a fs bs? st? dlc? fill

/-- A decoded Flow Control frame. -/
structure FlowView where
  code : Dlc
  fs   : FlowStatus
  bs?  : Option Byte
  st?  : Option Byte
deriving DecidableEq, Repr

/-- `fc_decode(a, frame)` (R199). -/
def fcDecode (a : Nat) (frame : List Byte) : Except Err FlowView := do
  let n := frame.length
  let c ← dlcExact n
  raiseIf (n < a + 3) .inconsistent
  let p := frameByte frame a
  requireType .fc p
  match flowStatusOf (lo4 p) with
  | none => .error .invalidValue
  | some .cts => .ok ⟨c, .cts, some (frameByte frame (a + 1)), some (frameByte frame (a + 2))⟩
  | some .wait => .ok ⟨c, .wait, none, none⟩
  | some .ovfl => .ok ⟨c, .ovfl, none, none⟩

/-! ## Separation time, in units of 0.1 ms -/

/-- A separation time and whether its raw byte is reserved. -/
structure SeparationTime where
  t    : Nat
  warn : Bool
deriving DecidableEq, Repr

/-- `stmin_time(r)` (R205). -/
def stminTime (r : Byte) : SeparationTime :=
  if r.toNat ≤ 0x7F then ⟨10 * r.toNat, false⟩
  else if 0xF1 ≤ r.toNat ∧ r.toNat ≤ 0xF9 then ⟨r.toNat - 0xF0, false⟩
  else ⟨1270, true⟩

/-- `stmin_raw(t)` (R206). -/
def stminRaw (t : Nat) : Except Err Byte :=
  if t ≤ 1270 ∧ t % 10 = 0 then .ok (BitVec.ofNat 8 (t / 10))
  else if 1 ≤ t ∧ t ≤ 9 then .ok (BitVec.ofNat 8 (0xF0 + t))
  else .error .invalidValue

/-! ## Commands -/

/-- The operands of Flow Control besides the format, range-checked (R210). -/
structure FlowOperands where
  dlc? : Option Dlc
  bs?  : Option Byte
  st?  : Option Byte
  fs   : BitVec 4
deriving DecidableEq, Repr

/-- The range checks of FC_ENC after the format's, in its order (R210). -/
def flowOperands (pm : BitVec 8) (s : State) : Except Err FlowOperands := do
  let dlc? ← optionalOperand pm .dlc (codeOperand (s.reg .dlc))
  let bs? ← optionalOperand pm .bs (byteOperand (s.reg .bs))
  let st? ← optionalOperand pm .st (byteOperand (s.reg .st))
  let fs ← nibbleOperand (s.reg .fs)
  .ok ⟨dlc?, bs?, st?, fs⟩

/-- FC_ENC's checks and results (R210). -/
def fcEncResult (any : Bool) (fmt : BitVec 3) (pm : BitVec 8) (s : State) : Except Err State := do
  let f ← formatOperand fmt
  let o ← flowOperands pm s
  let e ← fcEncode (aiBytes f) o.fs o.bs? o.st? o.dlc? any s.fill
  .ok (s.emit (aiBytes f) e)

/-- FC_ENC (R210). -/
def execFcEnc (any : Bool) (fmt : BitVec 3) (pm : BitVec 8) (s : State) : Host.Outcome State Fault Refusal :=
  conclude (encode (.fcEnc any fmt pm)) s (fcEncResult any fmt pm s)

/-- FC_DEC's checks and results (R211). -/
def fcDecResult (fmt : BitVec 3) (s : State) : Except Err State := do
  let o ← frameOperands fmt s
  let r ← fcDecode o.a o.frame
  .ok (((((s.setRegNat .fs r.fs.number.toNat).setRegNat .dlc r.code.val).setRegByte? .bs r.bs?).setRegByte? .st
    r.st?).setPresence ([.dlc, .fs] ++ presentReg .bs r.bs? ++ presentReg .st r.st?))

/-- FC_DEC (R211). -/
def execFcDec (fmt : BitVec 3) (s : State) : Host.Outcome State Fault Refusal :=
  conclude (encode (.fcDec fmt)) s (fcDecResult fmt s)

/-- STMIN_DEC's check and result (R212). -/
def stminDecResult (s : State) : Except Err State := do
  let r ← byteOperand (s.reg .st)
  .ok ((s.setRegNat .stt (stminTime r).t).setPresence [])

/-- STMIN_DEC (R212), the one command that can end with the warning (R207, R254). -/
def execStminDec (s : State) : Host.Outcome State Fault Refusal :=
  concludeWith (encode .stminDec) s (stminTime ((s.reg .st).setWidth 8)).warn (stminDecResult s)

/-- STMIN_ENC's check and result (R213). -/
def stminEncResult (s : State) : Except Err State := do
  let r ← stminRaw (s.reg .stt).toNat
  .ok ((s.setRegByte .st r).setPresence [.st])

/-- STMIN_ENC (R213). -/
def execStminEnc (s : State) : Host.Outcome State Fault Refusal :=
  conclude (encode .stminEnc) s (stminEncResult s)

end Sys2Proof.Machine
end

