-- ==== Sys2Proof/Machine/Packet.lean ====
section
/-! DEFINITION. The packet aggregate (47_packet.md): construction (R216), the record (R225), the change of addressing
(R228), the view (R232) and the commands PKT_SF, PKT_FF, PKT_CF, PKT_FC, PKT_LOAD, PKT_SETAI, PKT_VIEW, PKT_CLEAR. -/

namespace Sys2Proof.Machine

/-! ## Fields of `PKT` -/

/-- `PKT.TAP`, `PKT.TA` and the like from normalised addressing values: an absent value clears its flag and keeps the
old value bits (R216). -/
def Packet.setAddressing (p : Packet) (f : Format) (aty : AddrType) (id : Word) (ta? sa? ae? : Option Byte) : Packet :=
  { p with
    fmt := f
    aty := aty
    id := id
    tap := ta?.isSome
    ta := ta?.getD p.ta
    sap := sa?.isSome
    sa := sa?.getD p.sa
    aep := ae?.isSome
    ae := ae?.getD p.ae }

/-- `PKT.PTYPE`, `PKT.DLC`, `PKT.LEN`, `PKT.DATA[0..n)` from a frame (R216, R225). -/
def Packet.setFrame (p : Packet) (t : PacketType) (c : Dlc) (frame : List Byte) : Packet :=
  { p with
    valid := true
    ptype := t
    dlc := c
    len := BitVec.ofNat 7 (dlcBytes c)
    data := p.data.writeBytes 0 frame }

/-! ## Construction -/

/-- `pkt_build(t, enc)` (R216), after the range checks. -/
def pktBuild (v : Addressing) (t : PacketType) (enc : Nat → Except Err Encoded) (s : State) : Except Err State := do
  let r ← aiValidate s.offs v
  let d ← aiEncData v.fmt r.ta? r.ae?
  let e ← enc (aiBytes v.fmt)
  raiseIf (dlcBytes e.code < 2) .invalidValue
  let frame := d ++ e.body
  let p := (s.pkt.setAddressing v.fmt v.aty r.id r.ta? r.sa? r.ae?).setFrame t e.code frame
  .ok (((((({ s with pkt := { p with isRecord := false, dir := .tx, ts := 0#64 } }).storeFb 0 frame).setRegNat .flen
    (dlcBytes e.code)).setRegNat .dlc e.code.val).setReg .id r.id).setPresence [.id, .dlc])

/-- PKT_SF's checks and construction (R220). -/
def pktSfResult (any : Bool) (fmt : BitVec 3) (pm : BitVec 8) (s : State) : Except Err State := do
  let v ← addressingOperands fmt pm s
  let dlc? ← optionalOperand pm .dlc (codeOperand (s.reg .dlc))
  let len ← lengthOperand (s.reg .plen)
  pktBuild v .sf (fun a => sfEncode a (s.payload len) dlc? any (s.reg .dl).toNat s.fill) s

/-- PKT_SF (R220). -/
def execPktSf (any : Bool) (fmt : BitVec 3) (pm : BitVec 8) (s : State) : Host.Outcome State Fault Refusal :=
  conclude (encode (.pktSf any fmt pm)) s (pktSfResult any fmt pm s)

/-- PKT_FF's checks and construction (R221). -/
def pktFfResult (any : Bool) (fmt : BitVec 3) (pm : BitVec 8) (s : State) : Except Err State := do
  let v ← addressingOperands fmt pm s
  let dlc? ← optionalOperand pm .dlc (codeOperand (s.reg .dlc))
  let len ← lengthOperand (s.reg .plen)
  pktBuild v .ff (fun a => ffEncode a (s.payload len) (s.reg .dl) dlc? any) s

/-- PKT_FF (R221). -/
def execPktFf (any : Bool) (fmt : BitVec 3) (pm : BitVec 8) (s : State) : Host.Outcome State Fault Refusal :=
  conclude (encode (.pktFf any fmt pm)) s (pktFfResult any fmt pm s)

/-- PKT_CF's checks and construction (R222). -/
def pktCfResult (any : Bool) (fmt : BitVec 3) (pm : BitVec 8) (s : State) : Except Err State := do
  let v ← addressingOperands fmt pm s
  let dlc? ← optionalOperand pm .dlc (codeOperand (s.reg .dlc))
  let sn ← nibbleOperand (s.reg .sn)
  let len ← lengthOperand (s.reg .plen)
  pktBuild v .cf (fun a => cfEncode a (s.payload len) sn dlc? any s.fill) s

/-- PKT_CF (R222). -/
def execPktCf (any : Bool) (fmt : BitVec 3) (pm : BitVec 8) (s : State) : Host.Outcome State Fault Refusal :=
  conclude (encode (.pktCf any fmt pm)) s (pktCfResult any fmt pm s)

/-- PKT_FC's checks and construction (R223). -/
def pktFcResult (any : Bool) (fmt : BitVec 3) (pm : BitVec 8) (s : State) : Except Err State := do
  let v ← addressingOperands fmt pm s
  let o ← flowOperands pm s
  pktBuild v .fc (fun a => fcEncode a o.fs o.bs? o.st? o.dlc? any s.fill) s

/-- PKT_FC (R223). -/
def execPktFc (any : Bool) (fmt : BitVec 3) (pm : BitVec 8) (s : State) : Host.Outcome State Fault Refusal :=
  conclude (encode (.pktFc any fmt pm)) s (pktFcResult any fmt pm s)

/-! ## The strict decoders behind one view -/

/-- The derived views of a frame (R232); an absent view is `none`. -/
structure PacketView where
  dl?  : Option Nat
  sn?  : Option (BitVec 4)
  fs?  : Option FlowStatus
  bs?  : Option Byte
  st?  : Option Byte
  pay? : Option (List Byte)
deriving DecidableEq, Repr

/-- The strict decoder of a packet type, as R225 and R232 call it; any decoder error is the result. -/
def viewFrame (t : PacketType) (a : Nat) (frame : List Byte) : Except Err PacketView :=
  match t with
  | .sf => do
    let r ← sfDecode a frame
    .ok ⟨some r.dl, none, none, none, none, some r.pay⟩
  | .ff => do
    let r ← ffDecode a frame
    .ok ⟨some r.dl, none, none, none, none, some r.pay⟩
  | .cf => do
    let r ← cfDecode a frame
    .ok ⟨none, some r.sn, none, none, none, some r.pay⟩
  | .fc => do
    let r ← fcDecode a frame
    .ok ⟨none, none, some r.fs, r.bs?, r.st?, none⟩

/-! ## The record -/

/-- The packet type of an observed frame (R225). -/
def observedType (b : Byte) : Except Err PacketType :=
  match packetTypeOf (hi4 b) with
  | some t => .ok t
  | none => .error .invalidValue

/-- An addressing type recovered from an identifier that is not the context's (R225). -/
def addrTypeDiffers (found? : Option AddrType) (context : AddrType) : Bool :=
  match found? with
  | some found => found ≠ context
  | none => false

/-- PKT_LOAD's checks and results (R225). -/
def pktLoadResult (fmt : BitVec 3) (s : State) : Except Err State := do
  let f ← formatOperand fmt
  let id ← idOperand (s.reg .id)
  let aty ← addrTypeOperand (s.reg .aty)
  let n ← lengthOperand (s.reg .flen)
  let dir ← directionOperand (s.reg .dir)
  let c ← dlcExact n
  raiseIf (n < 2) .invalidValue
  let frame := s.frame n
  let r ← aiDecode s.offs f id frame
  raiseIf (addrTypeDiffers r.aty? aty) .inconsistent
  let t ← observedType (s.fb (aiBytes f))
  let _ ← viewFrame t (aiBytes f) frame
  let p := (s.pkt.setAddressing f aty id r.ta? r.sa? r.ae?).setFrame t c frame
  .ok ((({ s with pkt := { p with isRecord := true, dir := dir, ts := s.reg .tsh ++ s.reg .tsl } }).setRegNat .res
    t.number).setPresence [])

/-- PKT_LOAD (R225). -/
def execPktLoad (fmt : BitVec 3) (s : State) : Host.Outcome State Fault Refusal :=
  conclude (encode (.pktLoad fmt)) s (pktLoadResult fmt s)

/-! ## Changing the addressing of a packet -/

/-- PKT_SETAI's checks and results (R228): the addressing byte, if the format has one, is rewritten in `DATA[0]`. -/
def pktSetaiResult (fmt : BitVec 3) (pm : BitVec 8) (s : State) : Except Err State := do
  raiseIf (s.pkt.valid = false) .illegal
  raiseIf (s.pkt.isRecord = true) .illegal
  let v ← addressingOperands fmt pm s
  raiseIf (aiBytes v.fmt ≠ aiBytes s.pkt.fmt) .ambiguity
  let r ← aiValidate s.offs v
  let d ← aiEncData v.fmt r.ta? r.ae?
  let p := s.pkt.setAddressing v.fmt v.aty r.id r.ta? r.sa? r.ae?
  .ok ((({ s with pkt := { p with data := p.data.writeBytes 0 d } }).setReg .id r.id).setPresence [.id])

/-- PKT_SETAI (R228). -/
def execPktSetai (fmt : BitVec 3) (pm : BitVec 8) (s : State) : Host.Outcome State Fault Refusal :=
  conclude (encode (.pktSetai fmt pm)) s (pktSetaiResult fmt pm s)

/-! ## View and clear -/

/-- `x[r] <- n` when the view is present. -/
def State.setRegNat? (s : State) (r : Reg) : Option Nat → State
  | some n => s.setRegNat r n
  | none => s

/-- `PB` and `x[PLEN]` when the payload view is present. -/
def State.deliverPayload? (s : State) : Option (List Byte) → State
  | some pay => s.deliverPayload pay
  | none => s

/-- The addressing fields of `PKT` that are present. -/
def Packet.ta? (p : Packet) : Option Byte := if p.tap then some p.ta else none
def Packet.sa? (p : Packet) : Option Byte := if p.sap then some p.sa else none
def Packet.ae? (p : Packet) : Option Byte := if p.aep then some p.ae else none

/-- The addressing part of a view: `ID`, `AT`, `DLC` and the address fields present (R232). -/
def State.deliverAddressing (s : State) (p : Packet) : State :=
  (((((s.setReg .id p.id).setRegNat .aty p.aty.number).setRegNat .dlc p.dlc.val).setRegByte? .ta p.ta?).setRegByte? .sa
    p.sa?).setRegByte? .ae p.ae?

/-- The record part of a view: direction and timestamp (R232). -/
def State.deliverRecord (s : State) (p : Packet) : State :=
  ((s.setRegNat .dir p.dir.number).setReg .tsl (p.ts.extractLsb' 0 32)).setReg .tsh (p.ts.extractLsb' 32 32)

/-- The packet-type part of a view (R232). -/
def State.deliverView (s : State) (v : PacketView) : State :=
  (((((s.deliverPayload? v.pay?).setRegNat? .dl v.dl?).setRegNat? .sn (v.sn?.map BitVec.toNat)).setRegNat? .fs
    (v.fs?.map (fun f => f.number.toNat))).setRegByte? .bs v.bs?).setRegByte? .st v.st?

/-- The registers a view marks present in `x[RP]` (R232). -/
def viewPresence (p : Packet) (v : PacketView) : List Reg :=
  [.id, .aty, .dlc] ++ presentReg .ta p.ta? ++ presentReg .sa p.sa? ++ presentReg .ae p.ae? ++
  presentReg .dl v.dl? ++ presentReg .sn v.sn? ++ presentReg .fs v.fs? ++ presentReg .bs v.bs? ++
  presentReg .st v.st? ++ presentReg .plen v.pay?

/-- PKT_VIEW's check and results (R232). -/
def pktViewResult (s : State) : Except Err State := do
  raiseIf (s.pkt.valid = false) .illegal
  let frame := s.packetFrame s.pkt.len.toNat
  let v ← viewFrame s.pkt.ptype (aiBytes s.pkt.fmt) frame
  .ok (((((((s.deliverAddressing s.pkt).storeFb 0 frame).setRegNat .flen s.pkt.len.toNat).deliverRecord s.pkt).deliverView
    v).setReg .res s.pkt.viewResult).setPresence (viewPresence s.pkt v))

/-- PKT_VIEW (R232). -/
def execPktView (s : State) : Host.Outcome State Fault Refusal :=
  conclude (encode .pktView) s (pktViewResult s)

/-- PKT_CLEAR (R234). -/
def execPktClear (s : State) : Host.Outcome State Fault Refusal :=
  conclude (encode .pktClear) s (.ok { s with pkt := { s.pkt with valid := false } })

end Sys2Proof.Machine
end

