-- ==== Sys2Proof/Machine/System.lean ====
section
/-! DEFINITION. The system commands NOP, SRESET, CLRSTK (48_system.md R240 to R242). -/

namespace Sys2Proof.Machine

/-- NOP (R240). -/
def execNop (s : State) : Host.Outcome State Fault Refusal := conclude (encode .nop) s (.ok s)

/-- SRESET (R241). -/
def execSreset (s : State) : Host.Outcome State Fault Refusal := conclude (encode .sreset) s (.ok s.softReset)

/-- CLRSTK (R242). -/
def execClrstk (s : State) : Host.Outcome State Fault Refusal :=
  conclude (encode .clrstk) s (.ok { s with esticky := 0#32, ecmd := 0#32 })

end Sys2Proof.Machine
end

