-- ==== Sys2Proof/Machine/Dispatch.lean ====
section
/-! DEFINITION. Which meaning each command has: one direct call per constructor. -/

namespace Sys2Proof.Machine

/-- The execution of a decoded command (30_encoding.md R80, step 2). -/
def exec (i : Instr) (s : State) : Host.Outcome State Fault Refusal :=
  match i with
  | .nop => Sys2Proof.Machine.execNop s
  | .sreset => Sys2Proof.Machine.execSreset s
  | .clrstk => Sys2Proof.Machine.execClrstk s
  | .idIsstd => Sys2Proof.Machine.execIdIsstd s
  | .idIsext => Sys2Proof.Machine.execIdIsext s
  | .idClassify fmt pm => Sys2Proof.Machine.execIdClassify fmt pm s
  | .idEncode fmt => Sys2Proof.Machine.execIdEncode fmt s
  | .idDecode fmt => Sys2Proof.Machine.execIdDecode fmt s
  | .dlcDecode => Sys2Proof.Machine.execDlcDecode s
  | .dlcEncode => Sys2Proof.Machine.execDlcEncode s
  | .dlcMin => Sys2Proof.Machine.execDlcMin s
  | .aiNbytes fmt => Sys2Proof.Machine.execAiNbytes fmt s
  | .aiEncdata fmt pm => Sys2Proof.Machine.execAiEncdata fmt pm s
  | .aiDecode fmt => Sys2Proof.Machine.execAiDecode fmt s
  | .aiValidate fmt pm => Sys2Proof.Machine.execAiValidate fmt pm s
  | .ptGet fmt => Sys2Proof.Machine.execPtGet fmt s
  | .sfEnc any fmt pm => Sys2Proof.Machine.execSfEnc any fmt pm s
  | .sfDec fmt => Sys2Proof.Machine.execSfDec fmt s
  | .ffEnc any fmt pm => Sys2Proof.Machine.execFfEnc any fmt pm s
  | .ffDec fmt => Sys2Proof.Machine.execFfDec fmt s
  | .cfEnc any fmt pm => Sys2Proof.Machine.execCfEnc any fmt pm s
  | .cfDec fmt => Sys2Proof.Machine.execCfDec fmt s
  | .fcEnc any fmt pm => Sys2Proof.Machine.execFcEnc any fmt pm s
  | .fcDec fmt => Sys2Proof.Machine.execFcDec fmt s
  | .stminDec => Sys2Proof.Machine.execStminDec s
  | .stminEnc => Sys2Proof.Machine.execStminEnc s
  | .pktSf any fmt pm => Sys2Proof.Machine.execPktSf any fmt pm s
  | .pktFf any fmt pm => Sys2Proof.Machine.execPktFf any fmt pm s
  | .pktCf any fmt pm => Sys2Proof.Machine.execPktCf any fmt pm s
  | .pktFc any fmt pm => Sys2Proof.Machine.execPktFc any fmt pm s
  | .pktLoad fmt => Sys2Proof.Machine.execPktLoad fmt s
  | .pktSetai fmt pm => Sys2Proof.Machine.execPktSetai fmt pm s
  | .pktView => Sys2Proof.Machine.execPktView s
  | .pktClear => Sys2Proof.Machine.execPktClear s

end Sys2Proof.Machine
end

