-- ==== Sys2Proof/Machine/HostBus.lean ====
section
/-! DEFINITION. The host's side of the block: the address map (20_memory.md R61), the five host actions (R66 to R70), the
execution of a command word (30_encoding.md R80) and the hardware reset (70_reset_and_hazards.md R280). -/

namespace Sys2Proof.Machine

/-- What stands at a word offset of the map (R61). -/
inductive WordLocation where
  | cmd | status | esticky | cfg | ecmd | pktst
  | x (r : Reg)
deriving DecidableEq, Repr

/-- The operand/result register at an offset: `x[i]` at `0x040 + 4*i` (R61). -/
def regAt (off : Nat) : Option Reg := allRegs.find? (fun r => 0x040 + 4 * r.index.val == off)

/-- The register at a word offset, if there is one (R61). -/
def wordLocation (off : Nat) : Option WordLocation :=
  match off with
  | 0x000 => some .cmd
  | 0x004 => some .status
  | 0x008 => some .esticky
  | 0x00C => some .cfg
  | 0x010 => some .ecmd
  | 0x014 => some .pktst
  | _ => (regAt off).map .x

/-- Whether an offset is a byte of `FB` or `PB` (R61). -/
def isBufferOffset (off : Nat) : Bool := 0x100 ≤ off ∧ off ≤ 0x17F

/-- A bad access (R70): it sets `ESTICKY.BUS` and changes nothing else. -/
def State.badAccess (s : State) : State := { s with esticky := stickyBus s.esticky }

/-- The host receives a value. -/
def State.returned (s : State) (v : Word) : State := { s with rdata := v }

/-- The value of a register to the host (R68): `CMD` reads 0, `PKTST` is the view of `PKT`. -/
def State.locationValue (s : State) : WordLocation → Word
  | .cmd => 0#32
  | .status => s.status
  | .esticky => s.esticky
  | .cfg => s.cfg
  | .ecmd => s.ecmd
  | .pktst => s.pkt.summary
  | .x r => s.reg r

/-- `RD(off)` (R68). -/
def readWord (off : Nat) (s : State) : State :=
  match wordLocation off with
  | some l => s.returned (s.locationValue l)
  | none => s.badAccess.returned 0#32

/-- `RDB(off)` (R69); the byte is returned in the low bits of `rdata`. -/
def readByte (off : Nat) (s : State) : State :=
  if isBufferOffset off then s.returned ((s.byteAt off).setWidth 32) else s.badAccess.returned 0#32

/-- `WRB(off, b)` (R69). -/
def writeByte (off : Nat) (b : Byte) (s : State) : State :=
  if isBufferOffset off then s.storeBytes off [b] else s.badAccess

/-- The execution of a command word (R80): decode it; a word that matches no row ends `E_ILLEGAL`. -/
def runCommand (w : Word) (s : State) : Host.Outcome State Fault Refusal :=
  match decode w with
  | .ok i => exec i s
  | .error _ => .next (s.endError .illegal w)

/-- `WR(off, v)` (R67): a write of `CMD` executes, `CFG` keeps bits 7:0, an operand/result register takes all 32 bits,
and any other offset is a bad access. -/
def writeWord (off : Nat) (v : Word) (s : State) : Host.Outcome State Fault Refusal :=
  match wordLocation off with
  | some .cmd => runCommand v s
  | some .cfg => .next { s with cfg := (v.setWidth 8).setWidth 32 }
  | some (.x r) => .next (s.setReg r v)
  | some .status => .next s.badAccess
  | some .esticky => .next s.badAccess
  | some .ecmd => .next s.badAccess
  | some .pktst => .next s.badAccess
  | none => .next s.badAccess

/-- A host action (R66), whole before the next begins. -/
def hostAction (a : HostAction) (s : State) : Host.Outcome State Fault Refusal :=
  match a with
  | .wr off v => writeWord off v s
  | .rd off => .next (readWord off s)
  | .wrb off b => .next (writeByte off b s)
  | .rdb off => .next (readByte off s)
  | .cmd w => runCommand w s

/-- One input from outside. -/
def perform (i : Input) (s : State) : Host.Outcome State Fault Refusal :=
  match i with
  | .host a => hostAction a s
  | .hardReset => .next s.hardReset

/-- The next input in issue order (R74); with none waiting nothing happens, since every change of state is the effect of
an input (60_exceptions.md R262). -/
def takeInput (s : State) : Host.Outcome State Fault Refusal :=
  match s.pending with
  | [] => .next s
  | i :: rest => perform i { s with pending := rest }

/-- The surroundings in which the next input is the host action `CMD(w)` (log entry 3). -/
def State.withNextCommand (s : State) (w : Word) : State := { s with pending := .host (.cmd w) :: s.pending }

end Sys2Proof.Machine
end

