-- ==== Sys2Proof/Machine/Step.lean ====
section
/-! DEFINITION. One step of the machine: the block takes the next input (00_scope.md R8, 20_memory.md R66). -/

namespace Sys2Proof.Machine

/-- One step: the next waiting input, whole. -/
def step (s : State) : Host.Outcome State Fault Refusal := takeInput s

/-- `s` with the table word `w` as the command the host issues next, so that `step` runs exactly it. -/
def State.withFetchWord (s : State) (nbits w : Nat) : State := s.withNextCommand (BitVec.ofNat 32 (w % 2 ^ nbits))

end Sys2Proof.Machine
end

