-- ==== Sys2Proof/Safety.lean ====
section
/-! DEFINITION. The vocabulary of the claims, written from the spec's rules in plain numbers and apart from the functions
the meanings use: how a command's checks decide its status (60_exceptions.md R257), what a successful command leaves
alone (R255), the check lists and frame layouts of the command rules, and the invariants. -/

namespace Sys2Proof.Claims

open Sys2Proof.Machine

/-! ## Numbers -/

/-- `x[r]` as a number. -/
def num (s : State) (r : Reg) : Nat := (s.reg r).toNat

/-- A number as a register's 32 bits. -/
def w32 (n : Nat) : Word := BitVec.ofNat 32 n

/-- A number as a byte. -/
def byte (n : Nat) : Byte := BitVec.ofNat 8 n

/-- `hi4(b)` and `lo4(b)` (00_scope.md R9). -/
def hi (b : Byte) : Nat := b.toNat / 16
def lo (b : Byte) : Nat := b.toNat % 16

/-- The sixteen byte counts of 41_dlc.md R120, by code. -/
def legalLengths : List Nat := [0, 1, 2, 3, 4, 5, 6, 7, 8, 12, 16, 20, 24, 32, 48, 64]

/-- `bytes(c)` (R120). -/
def frameBytes (c : Nat) : Nat := legalLengths.getD c 0

/-- The place of a legal frame length in the table (R121). -/
def codeOf (n : Nat) : Nat := legalLengths.idxOf n

/-- How many table entries are too small for `n` bytes: for `n <= 64` the least code that holds them (R122). -/
def leastCode (n : Nat) : Nat := legalLengths.countP (fun b => decide (b < n))

/-- `ai_n` of a format number (42_addressing.md R132). -/
def addrBytes (fmt : BitVec 3) : Nat := if fmt.toNat ≤ 1 then 0 else 1

/-- The filler byte `CFG.FILL` (10_state.md R33). -/
def filler (s : State) : Byte := byte (s.cfg.toNat % 256)

/-- `OPC<<24 | any<<23 | F<<20 | pm` (30_encoding.md R89). -/
def cmdWord (opc : Nat) (any : Bool) (fmt : BitVec 3) (pm : BitVec 8) : Word :=
  w32 (opc * 2 ^ 24 + (if any then 2 ^ 23 else 0) + fmt.toNat * 2 ^ 20 + pm.toNat)

/-! ## How a command ends -/

/-- One check of a command's pseudocode: "if c: raise E". -/
abbrev Check : Type := Prop × Err

/-- The checks are made in the order of the list; the first that fails decides the status, and when none fails the
command ends as `good` says (60_exceptions.md R257). -/
def FirstFailing (fails : Err → Prop) (good : Prop) : List Check → Prop
  | [] => good
  | c :: rest => (c.1 → fails c.2) ∧ (¬c.1 → FirstFailing fails good rest)

/-- The command ends with the error `e`: `STATUS`, one bit of `ESTICKY` and `ECMD` change, nothing else (R256). -/
def FailsWith (i : Instr) (w : Word) (s : State) (e : Err) : Prop :=
  exec i s = .next { s with status := w32 e.code, esticky := s.esticky ||| w32 (2 ^ e.code), ecmd := w }

/-- The command `i`, whose word is `w`: its checks in order, and with all of them passed a next state that `good`
describes. -/
def Command (i : Instr) (w : Word) (s : State) (checks : List Check) (good : State → Prop) : Prop :=
  encode i = w ∧ FirstFailing (FailsWith i w s) (∃ t, exec i s = .next t ∧ good t) checks

/-- What every successful command but SRESET and CLRSTK leaves alone: `STATUS` becomes 0; `ESTICKY`, `ECMD` and `CFG`
stay; so do the registers outside `written` and the buffer bytes outside `stored` (R255; 10_state.md R22, R38); and the
model's own fields. -/
structure Kept (s t : State) (written : List Reg) (stored : Nat → Prop) : Prop where
  status  : t.status = 0#32
  esticky : t.esticky = s.esticky
  ecmd    : t.ecmd = s.ecmd
  cfg     : t.cfg = s.cfg
  regs    : ∀ r, r ∉ written → t.reg r = s.reg r
  bytes   : ∀ k, ¬stored k → t.byteAt k = s.byteAt k
  offs    : t.offs = s.offs
  epoch   : t.epoch = s.epoch
  pending : t.pending = s.pending
  rdata   : t.rdata = s.rdata

/-- No byte of a buffer. -/
def nowhere : Nat → Prop := fun _ => False

/-- The offsets of `FB[a..n)` and of `PB[0..n)` (20_memory.md R61). -/
def fbSpan (a n : Nat) : Nat → Prop := fun k => 0x100 + a ≤ k ∧ k < 0x100 + n
def pbSpan (n : Nat) : Nat → Prop := fun k => 0x140 ≤ k ∧ k < 0x140 + n

/-- A command that writes the registers of `written` and nothing else. -/
structure RegsOnly (s t : State) (written : List Reg) : Prop where
  kept : Kept s t written nowhere
  pkt  : t.pkt = s.pkt

/-! ## Identifiers and addressing, by format number 0 `N11`, 1 `NF`, 2 `EXT`, 3 `M11`, 4 `M29` -/

/-- The formats with identifier structure, with a target address, with an address extension (R133). A source address
goes with the identifier structure. -/
def structured (fmt : BitVec 3) : Bool := fmt.toNat = 1 ∨ fmt.toNat = 4
def hasTarget (fmt : BitVec 3) : Bool := fmt.toNat = 1 ∨ fmt.toNat = 2 ∨ fmt.toNat = 4
def hasExtension (fmt : BitVec 3) : Bool := fmt.toNat = 3 ∨ fmt.toNat = 4

/-- `off(f, at)` for a structured format and an addressing type's number (R102). -/
def offset (o : Offsets) (fmt : BitVec 3) (aty : Nat) : Nat :=
  if fmt.toNat = 1 then (if aty = 0 then o.nfPhys.toNat else o.nfFunc.toNat)
  else (if aty = 0 then o.m29Phys.toNat else o.m29Func.toNat)

/-- `in_window(id, f, at)` (R103). -/
abbrev InWindow (o : Offsets) (fmt : BitVec 3) (aty id : Nat) : Prop :=
  offset o fmt aty ≤ id ∧ id ≤ offset o fmt aty + 0xFFFF

/-- The addressing type `id_decode` finds (R105). -/
def idType (o : Offsets) (fmt : BitVec 3) (id : Nat) : Nat := if InWindow o fmt 0 id then 0 else 1

/-- The checks of `id_decode` (R105). -/
def idChecks (o : Offsets) (fmt : BitVec 3) (id : Nat) : List Check :=
  [(id < 0x800 ∨ 0x1FFFFFFF < id, .inconsistent), (¬InWindow o fmt 0 id ∧ ¬InWindow o fmt 1 id, .notImpl)]

/-- The checks of `ai_decode` for a frame of `n` bytes (R135). -/
def aiDecodeChecks (o : Offsets) (fmt : BitVec 3) (id n : Nat) : List Check :=
  match fmt.toNat with
  | 0 => [(0x7FF < id, .inconsistent)]
  | 1 => idChecks o fmt id
  | 2 => [(n < 1, .inconsistent)]
  | 3 => [(0x7FF < id, .inconsistent), (n < 1, .inconsistent)]
  | _ => idChecks o fmt id ++ [(n < 1, .inconsistent)]

/-- `pm(r)` by its bit number (R83). -/
abbrev Given (pm : BitVec 8) (n : Nat) : Prop := pm.getLsbD n = true

/-- The checks of `resolve29` (R140). -/
def resolveChecks (o : Offsets) (fmt : BitVec 3) (pm : BitVec 8) (s : State) : List Check :=
  if Given pm 0 then
    idChecks o fmt (num s .id) ++
    [(idType o fmt (num s .id) ≠ num s .aty, .inconsistent),
     (Given pm 1 ∧ num s .ta ≠ num s .id / 256 % 256, .inconsistent),
     (Given pm 2 ∧ num s .sa ≠ num s .id % 256, .inconsistent)]
  else [(¬Given pm 1 ∨ ¬Given pm 2, .inconsistent)]

/-- The checks of `ai_validate` (R140), in the order written. -/
def validateChecks (o : Offsets) (fmt : BitVec 3) (pm : BitVec 8) (s : State) : List Check :=
  match fmt.toNat with
  | 0 => [(Given pm 1 ∨ Given pm 2 ∨ Given pm 3, .unusedArg), (¬Given pm 0, .inconsistent),
          (0x7FF < num s .id, .inconsistent)]
  | 1 => (Given pm 3, .unusedArg) :: resolveChecks o fmt pm s
  | 2 => [(Given pm 2 ∨ Given pm 3, .unusedArg), (¬Given pm 0, .inconsistent), (¬Given pm 1, .inconsistent)]
  | 3 => [(Given pm 1 ∨ Given pm 2, .unusedArg), (¬Given pm 0, .inconsistent), (0x7FF < num s .id, .inconsistent),
          (¬Given pm 3, .inconsistent)]
  | _ => (¬Given pm 3, .inconsistent) :: resolveChecks o fmt pm s

/-- The normalised identifier, target and source that `ai_validate` returns (R140). -/
def normId (o : Offsets) (fmt : BitVec 3) (pm : BitVec 8) (s : State) : Nat :=
  if structured fmt = true ∧ ¬Given pm 0 then offset o fmt (num s .aty) + num s .ta * 256 + num s .sa else num s .id
def normTa (fmt : BitVec 3) (pm : BitVec 8) (s : State) : Nat :=
  if structured fmt = true ∧ Given pm 0 then num s .id / 256 % 256 else num s .ta
def normSa (pm : BitVec 8) (s : State) : Nat := if Given pm 0 then num s .id % 256 else num s .sa

/-- The format check of every command that takes a format (R82). -/
def formatCheck (fmt : BitVec 3) : Check := (4 < fmt.toNat, .invalidValue)

/-- The range checks of the addressing operands (R148, 47_packet.md R219, R228), after the format's. -/
def addressingRange (pm : BitVec 8) (s : State) : List Check :=
  [(Given pm 0 ∧ 0x1FFFFFFF < num s .id, .invalidValue), (Given pm 1 ∧ 0xFF < num s .ta, .invalidValue),
   (Given pm 2 ∧ 0xFF < num s .sa, .invalidValue), (Given pm 3 ∧ 0xFF < num s .ae, .invalidValue),
   (1 < num s .aty, .invalidValue)]

/-- The addressing data byte of a validated packet of format `EXT`, `M11` or `M29` (R134). -/
def addressByte (fmt : BitVec 3) (s : State) : Byte := if fmt.toNat = 2 then byte (num s .ta) else byte (num s .ae)

/-! ## Frames -/

/-- `FB[start..n)`, or the like, holds the PCI bytes, then `len` payload bytes, then filler. -/
structure Body (b : Nat → Byte) (start n : Nat) (pci : List Byte) (pay : Nat → Byte) (len : Nat) (fill : Byte) : Prop where
  pciAt  : ∀ j, j < pci.length → b (start + j) = pci.getD j 0#8
  payAt  : ∀ j, j < len → b (start + pci.length + j) = pay j
  fillAt : ∀ k, start + pci.length + len ≤ k → k < n → b k = fill

/-- A Single Frame of code `c` with `a` addressing bytes could carry `dl` bytes: `dl <= sf_cap(a, c)` (43_single_frame.md
R155), without its subtraction. -/
abbrev FitsSingle (a c dl : Nat) : Prop := if c ≤ 8 then dl + a + 1 ≤ frameBytes c else dl + a + 2 ≤ frameBytes c

/-! ### Encoders: range checks, own checks, code and PCI bytes -/

/-- SF_ENC (R161, R157). -/
def sfRange (pm : BitVec 8) (s : State) : List Check :=
  [(Given pm 5 ∧ 15 < num s .dlc, .invalidValue), (64 < num s .plen, .invalidValue)]
def sfFrameCode (pm : BitVec 8) (a : Nat) (s : State) : Nat :=
  if Given pm 5 then num s .dlc
  else if a + 1 + num s .plen ≤ 8 then a + 1 + num s .plen else leastCode (a + 2 + num s .plen)
def sfLength (any : Bool) (s : State) : Nat := if any then num s .dl else num s .plen
def sfPci (any : Bool) (pm : BitVec 8) (a : Nat) (s : State) : List Byte :=
  if sfFrameCode pm a s ≤ 8 then [byte (sfLength any s)] else [0x00#8, byte (sfLength any s)]
def sfOwn (any : Bool) (pm : BitVec 8) (a : Nat) (s : State) : List Check :=
  [(any = false ∧ num s .plen < 1, .invalidValue),
   (¬Given pm 5 ∧ 8 < a + 1 + num s .plen ∧ 64 < a + 2 + num s .plen, .inconsistent),
   (sfFrameCode pm a s ≤ 8 ∧ frameBytes (sfFrameCode pm a s) < a + 1 + num s .plen, .inconsistent),
   (sfFrameCode pm a s ≤ 8 ∧ any = false ∧ a + 1 + num s .plen ≠ frameBytes (sfFrameCode pm a s), .inconsistent),
   (sfFrameCode pm a s ≤ 8 ∧ 0xF < sfLength any s, .invalidValue),
   (8 < sfFrameCode pm a s ∧ frameBytes (sfFrameCode pm a s) < a + 2 + num s .plen, .inconsistent),
   (8 < sfFrameCode pm a s ∧ 0xFF < sfLength any s, .invalidValue)]

/-- FF_ENC (44_first_frame.md R178, R173). -/
def ffPciCount (s : State) : Nat := if 4095 < num s .dl then 6 else 2
def ffFrameCode (pm : BitVec 8) (a : Nat) (s : State) : Nat :=
  if Given pm 5 then num s .dlc else codeOf (a + ffPciCount s + num s .plen)
def ffPciList (s : State) : List Byte :=
  if 4095 < num s .dl then
    [0x10#8, 0x00#8, byte (num s .dl / 2 ^ 24), byte (num s .dl / 2 ^ 16 % 256), byte (num s .dl / 2 ^ 8 % 256),
     byte (num s .dl % 256)]
  else [byte (0x10 + num s .dl / 256), byte (num s .dl % 256)]
def ffOwn (any : Bool) (pm : BitVec 8) (a : Nat) (s : State) : List Check :=
  [(any = false ∧ num s .plen < 1, .invalidValue),
   (¬Given pm 5 ∧ a + ffPciCount s + num s .plen ∉ legalLengths, .inconsistent),
   (a + ffPciCount s + num s .plen ≠ frameBytes (ffFrameCode pm a s), .inconsistent),
   (any = false ∧ FitsSingle a (ffFrameCode pm a s) (num s .dl), .inconsistent)]

/-- CF_ENC (45_consecutive_frame.md R190, R186). -/
def cfRange (pm : BitVec 8) (s : State) : List Check :=
  [(Given pm 5 ∧ 15 < num s .dlc, .invalidValue), (15 < num s .sn, .invalidValue), (64 < num s .plen, .invalidValue)]
def cfFrameCode (pm : BitVec 8) (a : Nat) (s : State) : Nat :=
  if Given pm 5 then num s .dlc else leastCode (a + 1 + num s .plen)
def cfPci (s : State) : List Byte := [byte (0x20 + num s .sn)]
def cfOwn (any : Bool) (pm : BitVec 8) (a : Nat) (s : State) : List Check :=
  [(any = false ∧ num s .plen < 1, .invalidValue), (¬Given pm 5 ∧ 64 < a + 1 + num s .plen, .inconsistent),
   (frameBytes (cfFrameCode pm a s) < a + 1 + num s .plen, .inconsistent)]

/-- FC_ENC (46_flow_control.md R210, R196, R198). -/
def fcRange (pm : BitVec 8) (s : State) : List Check :=
  [(Given pm 5 ∧ 15 < num s .dlc, .invalidValue), (Given pm 6 ∧ 0xFF < num s .bs, .invalidValue),
   (Given pm 7 ∧ 0xFF < num s .st, .invalidValue), (15 < num s .fs, .invalidValue)]
def fcPci (any : Bool) (pm : BitVec 8) (s : State) : List Byte :=
  byte (0x30 + num s .fs) ::
    (if any then
       (if Given pm 6 then [byte (num s .bs)] else []) ++ (if Given pm 7 then [byte (num s .st)] else [])
     else if num s .fs = 0 then [byte (num s .bs), byte (num s .st)] else [filler s, filler s])
def fcFrameCode (any : Bool) (pm : BitVec 8) (a : Nat) (s : State) : Nat :=
  if Given pm 5 then num s .dlc else leastCode (a + (fcPci any pm s).length)
def fcOwn (any : Bool) (pm : BitVec 8) (a : Nat) (s : State) : List Check :=
  [(any = false ∧ 2 < num s .fs, .invalidValue),
   (any = false ∧ num s .fs = 0 ∧ (¬Given pm 6 ∨ ¬Given pm 7), .inconsistent),
   (any = false ∧ num s .fs ≠ 0 ∧ (Given pm 6 ∨ Given pm 7), .inconsistent),
   (any = true ∧ Given pm 7 ∧ ¬Given pm 6, .inconsistent),
   (frameBytes (fcFrameCode any pm a s) < a + (fcPci any pm s).length, .inconsistent)]

/-- What a leaf encoder leaves (43_single_frame.md R154): the body from `FB[a]` on, `FLEN`, `DLC`, `RP = {DLC}`; the
addressing byte, the rest of `FB`, `PB` and `PKT` are as before. -/
structure LeafEncoded (s t : State) (a c : Nat) (pci : List Byte) (len : Nat) : Prop where
  body : Body t.fb a (frameBytes c) pci s.pb len (filler s)
  flen : t.reg .flen = w32 (frameBytes c)
  dlc  : t.reg .dlc = w32 c
  rp   : t.reg .rp = 0x20#32
  kept : Kept s t [.flen, .dlc, .rp] (fbSpan a (frameBytes c))
  pkt  : t.pkt = s.pkt

/-! ### Decoders of a frame of `n` bytes given by its byte function: checks and what they read -/

/-- `sf_decode` (43_single_frame.md R158). -/
def sfDecChecks (b : Nat → Byte) (a n : Nat) : List Check :=
  [(n ∉ legalLengths, .invalidValue), (n < a + 1, .inconsistent), (hi (b a) ≠ 0, .invalidValue),
   (codeOf n ≤ 8 ∧ lo (b a) < 1, .invalidValue), (codeOf n ≤ 8 ∧ a + 1 + lo (b a) ≠ n, .inconsistent),
   (8 < codeOf n ∧ lo (b a) ≠ 0, .inconsistent), (8 < codeOf n ∧ (b (a + 1)).toNat < 1, .invalidValue),
   (8 < codeOf n ∧ n < a + 2 + (b (a + 1)).toNat, .inconsistent)]
def sfDecLength (b : Nat → Byte) (a n : Nat) : Nat := if codeOf n ≤ 8 then lo (b a) else (b (a + 1)).toNat
def sfDecStart (a n : Nat) : Nat := if codeOf n ≤ 8 then a + 1 else a + 2

/-- `ff_decode` (44_first_frame.md R174): the 12-bit field, the four bytes of the escape form, FF_DL, the PCI bytes. -/
def ffField (b : Nat → Byte) (a : Nat) : Nat := lo (b a) * 256 + (b (a + 1)).toNat
def ffEscape (b : Nat → Byte) (a : Nat) : Nat :=
  (b (a + 2)).toNat * 2 ^ 24 + (b (a + 3)).toNat * 2 ^ 16 + (b (a + 4)).toNat * 2 ^ 8 + (b (a + 5)).toNat
def ffDecLength (b : Nat → Byte) (a : Nat) : Nat := if ffField b a = 0 then ffEscape b a else ffField b a
def ffDecPci (b : Nat → Byte) (a : Nat) : Nat := if ffField b a = 0 then 6 else 2
def ffDecChecks (b : Nat → Byte) (a n : Nat) : List Check :=
  [(n ∉ legalLengths, .invalidValue), (n < a + 2, .inconsistent), (hi (b a) ≠ 1, .invalidValue),
   (ffField b a = 0 ∧ n < a + 6, .inconsistent), (ffField b a = 0 ∧ ffEscape b a ≤ 4095, .inconsistent),
   (n < a + ffDecPci b a + 1, .inconsistent), (FitsSingle a (codeOf n) (ffDecLength b a), .inconsistent)]

/-- `cf_decode` (45_consecutive_frame.md R187). -/
def cfDecChecks (b : Nat → Byte) (a n : Nat) : List Check :=
  [(n ∉ legalLengths, .invalidValue), (n < a + 2, .inconsistent), (hi (b a) ≠ 2, .invalidValue)]

/-- `fc_decode` (46_flow_control.md R199). -/
def fcDecChecks (b : Nat → Byte) (a n : Nat) : List Check :=
  [(n ∉ legalLengths, .invalidValue), (n < a + 3, .inconsistent), (hi (b a) ≠ 3, .invalidValue),
   (2 < lo (b a), .invalidValue)]

/-- The strict decoder of a packet type, as PKT_LOAD and PKT_VIEW call it (47_packet.md R225, R232). -/
def decChecks (t : PacketType) (b : Nat → Byte) (a n : Nat) : List Check :=
  match t with
  | .sf => sfDecChecks b a n
  | .ff => ffDecChecks b a n
  | .cf => cfDecChecks b a n
  | .fc => fcDecChecks b a n

/-- Where the payload view starts in the frame and how many bytes it has; no bytes for Flow Control. -/
def viewStart (t : PacketType) (b : Nat → Byte) (a n : Nat) : Nat :=
  match t with
  | .sf => sfDecStart a n
  | .ff => a + ffDecPci b a
  | .cf => a + 1
  | .fc => 0
def viewBytes (t : PacketType) (b : Nat → Byte) (a n : Nat) : Nat :=
  match t with
  | .sf => sfDecLength b a n
  | .ff => n - (a + ffDecPci b a)
  | .cf => n - (a + 1)
  | .fc => 0

/-! ## Packets -/

/-- The addressing fields of `PKT` (47_packet.md R216, R225, R228): the format, addressing type and identifier; each
address present exactly where the format has it, and its old bits kept where it is absent. -/
structure AddressingSet (p q : Packet) (fmt : BitVec 3) (aty id : Nat) (ta sa ae : Byte) : Prop where
  format     : q.fmt.number = fmt
  type       : q.aty.number = aty
  identifier : q.id = w32 id
  hasTa      : q.tap = hasTarget fmt
  target     : q.ta = if hasTarget fmt then ta else p.ta
  hasSa      : q.sap = structured fmt
  source     : q.sa = if structured fmt then sa else p.sa
  hasAe      : q.aep = hasExtension fmt
  extension  : q.ae = if hasExtension fmt then ae else p.ae

/-- What a build command leaves (R216) when the packet-type encoder gives the code `c`, the PCI bytes `pci` and `len`
payload bytes: the whole frame in `FB` and in `PKT.DATA`, the packet registers, and `FLEN`, `DLC`, `ID`, `RP`. -/
structure Built (s t : State) (fmt : BitVec 3) (pm : BitVec 8) (type : PacketType) (c : Nat) (pci : List Byte)
    (len : Nat) : Prop where
  address    : addrBytes fmt = 1 → t.fb 0 = addressByte fmt s
  body       : Body t.fb (addrBytes fmt) (frameBytes c) pci s.pb len (filler s)
  data       : ∀ k, t.packetByte k = if k < frameBytes c then t.fb k else s.packetByte k
  valid      : t.pkt.valid = true
  isRecord   : t.pkt.isRecord = false
  addressing : AddressingSet s.pkt t.pkt fmt (num s .aty) (normId s.offs fmt pm s) (byte (normTa fmt pm s))
                 (byte (normSa pm s)) (byte (num s .ae))
  ptype      : t.pkt.ptype = type
  pdlc       : t.pkt.dlc.val = c
  plen       : t.pkt.len.toNat = frameBytes c
  dir        : t.pkt.dir = .tx
  ts         : t.pkt.ts = 0#64
  flen       : t.reg .flen = w32 (frameBytes c)
  dlc        : t.reg .dlc = w32 c
  id         : t.reg .id = w32 (normId s.offs fmt pm s)
  rp         : t.reg .rp = 0x21#32
  kept       : Kept s t [.flen, .dlc, .id, .rp] (fbSpan 0 (frameBytes c))

/-- The checks of a build command (47_packet.md R216, R219): the ranges, then the addressing, then the packet type, then
the frame length. -/
def buildChecks (fmt : BitVec 3) (pm : BitVec 8) (s : State) (range own : List Check) (code : Nat) :
    List Check :=
  formatCheck fmt :: addressingRange pm s ++ range ++ validateChecks s.offs fmt pm s ++ own ++
    [(frameBytes code < 2, .invalidValue)]

/-- One build command and its leaf encoder (47_packet.md R217): AI_VALIDATE, AI_ENCDATA with the normalised addresses,
then the encoder, run on the same state, all end `ok` and leave the same frame, length, code and identifier. -/
def SameAsLeaves (build leaf : Instr) (fmt : BitVec 3) (pm : BitVec 8) (s : State) : Prop :=
  ∀ t, exec build s = .next t → t.err = 0 →
    ∃ u v x, exec (.aiValidate fmt (pm &&& 0x0F#8)) s = .next u ∧ u.err = 0 ∧
      exec (.aiEncdata fmt (if fmt.toNat = 2 then 0x02#8 else if hasExtension fmt then 0x08#8 else 0#8)) u = .next v ∧
      v.err = 0 ∧ exec leaf v = .next x ∧ x.err = 0 ∧
      t.reg .flen = x.reg .flen ∧ t.reg .dlc = x.reg .dlc ∧ t.reg .id = u.reg .id ∧
      ∀ k, k < num t .flen → t.fb k = x.fb k

/-- What PKT_VIEW gives back (47_packet.md R232, state `u`) of a packet that a build command made (R216, state `t`) from
the operands in `s`, for every packet type: the frame, its length and code, the identifier, the addressing type, each
address that the format has, the summary in `x[RES]`, and direction and timestamp 0. -/
structure ViewGivesBack (s t u : State) (fmt : BitVec 3) (pm : BitVec 8) (type : PacketType) : Prop where
  packet     : u.pkt = t.pkt
  frame      : ∀ k, k < num t .flen → u.fb k = t.fb k
  flen       : u.reg .flen = t.reg .flen
  code       : u.reg .dlc = t.reg .dlc
  givenCode  : Given pm 5 → u.reg .dlc = s.reg .dlc
  identifier : u.reg .id = w32 (normId s.offs fmt pm s)
  givenId    : Given pm 0 → u.reg .id = s.reg .id
  addrType   : u.reg .aty = s.reg .aty
  target     : hasTarget fmt = true → u.reg .ta = w32 (normTa fmt pm s)
  source     : structured fmt = true → u.reg .sa = w32 (normSa pm s)
  extension  : hasExtension fmt = true → u.reg .ae = s.reg .ae
  summary    : u.reg .res = w32 (type.number + fmt.toNat * 2 ^ 4)
  direction  : u.reg .dir = 0#32
  timestamp  : u.reg .tsl = 0#32 ∧ u.reg .tsh = 0#32

/-- What follows a build command of a packet type that ended `ok`: PKT_VIEW ends `ok` too, gives back what every packet
was built from, and leaves a state that `P` describes. -/
def BuiltThenViewed (build : Instr) (s : State) (fmt : BitVec 3) (pm : BitVec 8) (type : PacketType)
    (P : State → State → Prop) : Prop :=
  ∀ t, exec build s = .next t → t.err = 0 →
    ∃ u, exec .pktView t = .next u ∧ u.err = 0 ∧ ViewGivesBack s t u fmt pm type ∧ P t u

/-! ## The host's side -/

/-- The operand/result registers in the address map (20_memory.md R61). -/
def registerOffsets : List (Nat × Reg) :=
  [(0x040, .id), (0x044, .ta), (0x048, .sa), (0x04C, .ae), (0x050, .aty), (0x054, .dlc), (0x058, .bs), (0x05C, .st),
   (0x060, .dl), (0x064, .sn)] ++
  [(0x068, .fs), (0x06C, .plen), (0x070, .flen), (0x074, .res), (0x078, .rp), (0x07C, .stt), (0x080, .dir),
   (0x084, .tsl), (0x088, .tsh)]

/-- A bad access (R70): `ESTICKY.BUS` is set and nothing else changes. -/
def bus (s : State) : State := { s with esticky := s.esticky ||| 0x200#32 }

/-- The bits of `PKTST` (10_state.md R35). -/
def packetStatus (p : Packet) : Word :=
  w32 ((if p.valid then 1 else 0) + (if p.isRecord then 2 else 0) + p.fmt.number.toNat * 2 ^ 4 + p.ptype.number * 2 ^ 8 +
    p.dlc.val * 2 ^ 12 + p.len.toNat * 2 ^ 16 + p.aty.number * 2 ^ 24 + p.dir.number * 2 ^ 25)

/-! ## Whole-machine tables -/

/-- The commands with an error or the warning each (60_exceptions.md R260), by status code; every command can end with 0. -/
def possibleCodes : Instr → List Nat
  | .nop => [0] | .sreset => [0] | .clrstk => [0] | .idIsstd => [0] | .idIsext => [0] | .pktClear => [0]
  | .idClassify _ _ => [0, 1] | .idEncode _ => [0, 1, 3] | .idDecode _ => [0, 1, 3, 5]
  | .dlcDecode => [0, 1] | .dlcEncode => [0, 1] | .dlcMin => [0, 1]
  | .aiNbytes _ => [0, 1] | .aiEncdata _ _ => [0, 1, 3] | .aiDecode _ => [0, 1, 3, 5] | .aiValidate _ _ => [0, 1, 2, 3, 5]
  | .ptGet _ => [0, 1, 3]
  | .sfEnc _ _ _ => [0, 1, 3] | .ffEnc _ _ _ => [0, 1, 3] | .cfEnc _ _ _ => [0, 1, 3] | .fcEnc _ _ _ => [0, 1, 3]
  | .sfDec _ => [0, 1, 3] | .ffDec _ => [0, 1, 3] | .cfDec _ => [0, 1, 3] | .fcDec _ => [0, 1, 3]
  | .stminDec => [0, 1] | .stminEnc => [0, 1]
  | .pktSf _ _ _ => [0, 1, 2, 3, 5] | .pktFf _ _ _ => [0, 1, 2, 3, 5] | .pktCf _ _ _ => [0, 1, 2, 3, 5]
  | .pktFc _ _ _ => [0, 1, 2, 3, 5]
  | .pktLoad _ => [0, 1, 3, 5] | .pktSetai _ _ => [0, 1, 2, 3, 4, 5, 6] | .pktView => [0, 1, 3, 6]

/-- The registers a command may write (10_state.md R22 and the "Writes" of each command's rule); SRESET writes all. -/
def mayWrite : Instr → List Reg
  | .nop => [] | .sreset => allRegs | .clrstk => [] | .pktClear => []
  | .idIsstd => [.res, .rp] | .idIsext => [.res, .rp] | .idClassify _ _ => [.res, .rp]
  | .idEncode _ => [.id, .rp] | .idDecode _ => [.aty, .ta, .sa, .rp]
  | .dlcDecode => [.dl, .rp] | .dlcEncode => [.dlc, .rp] | .dlcMin => [.dlc, .rp]
  | .aiNbytes _ => [.res, .rp] | .aiEncdata _ _ => [.res, .rp] | .aiDecode _ => [.aty, .ta, .sa, .ae, .rp]
  | .aiValidate _ _ => [.id, .ta, .sa, .ae, .rp] | .ptGet _ => [.res, .rp]
  | .sfEnc _ _ _ => [.flen, .dlc, .rp] | .ffEnc _ _ _ => [.flen, .dlc, .rp] | .cfEnc _ _ _ => [.flen, .dlc, .rp]
  | .fcEnc _ _ _ => [.flen, .dlc, .rp]
  | .sfDec _ => [.plen, .dl, .dlc, .rp] | .ffDec _ => [.plen, .dl, .dlc, .rp] | .cfDec _ => [.plen, .sn, .dlc, .rp]
  | .fcDec _ => [.fs, .dlc, .bs, .st, .rp]
  | .stminDec => [.stt, .rp] | .stminEnc => [.st, .rp]
  | .pktSf _ _ _ => [.flen, .dlc, .id, .rp] | .pktFf _ _ _ => [.flen, .dlc, .id, .rp]
  | .pktCf _ _ _ => [.flen, .dlc, .id, .rp] | .pktFc _ _ _ => [.flen, .dlc, .id, .rp]
  | .pktLoad _ => [.res, .rp] | .pktSetai _ _ => [.id, .rp]
  | .pktView => [.id, .ta, .sa, .ae, .aty, .dlc, .bs, .st, .dl] ++ [.sn, .fs, .plen, .flen, .res, .rp, .dir, .tsl, .tsh]

/-- Whether a command may write `FB`, and whether it may write `PB` (43_single_frame.md R154, R162; 47_packet.md R216,
R232). -/
def mayStoreFb : Instr → Bool
  | .aiEncdata _ _ => true | .sfEnc _ _ _ => true | .ffEnc _ _ _ => true | .cfEnc _ _ _ => true | .fcEnc _ _ _ => true
  | .pktSf _ _ _ => true | .pktFf _ _ _ => true | .pktCf _ _ _ => true | .pktFc _ _ _ => true | .pktView => true
  | _ => false
def mayStorePb : Instr → Bool
  | .sfDec _ => true | .ffDec _ => true | .cfDec _ => true | .pktView => true
  | _ => false

/-- The commands that replace or discard the whole packet register set (47_packet.md R226). -/
def replacesPacket : Instr → Bool
  | .pktSf _ _ _ => true | .pktFf _ _ _ => true | .pktCf _ _ _ => true | .pktFc _ _ _ => true | .pktLoad _ => true
  | .pktClear => true | .sreset => true
  | _ => false

/-- A reserved raw separation time (46_flow_control.md R205). -/
def reservedRaw (n : Nat) : Bool := (0x80 ≤ n ∧ n ≤ 0xF0) ∨ (0xFA ≤ n ∧ n ≤ 0xFF)

/-- The command that ends with the warning (R207, 60_exceptions.md R254). -/
def warns (i : Instr) (s : State) : Bool := i = .stminDec ∧ reservedRaw (num s .st) = true

/-! ## Invariants -/

/-- The addresses a list of cells may hold. -/
abbrev CellsIn (m : Memory) (low high : Nat) : Prop := ∀ c ∈ m, low ≤ c.1 ∧ c.1 < high

/-- What the widths, reserved bits and buffer sizes of the spec demand of a state: `STATUS` has a code up to 6 and the
warning only with code 0 (10_state.md R31; 60_exceptions.md R250, R252, R254), the reserved bits of `ESTICKY` and `CFG`
read 0 (R32, R33), both byte memories are in canonical form and hold bytes of `FB`, `PB` and of `PKT.DATA` only (R38,
R40), and the offsets meet 00_scope.md R6. -/
structure StorageOk (s : State) : Prop where
  code    : s.err ≤ 6
  warn    : s.warn = true → s.err = 0
  status  : s.status &&& 0xFFFFFFE0#32 = 0#32
  esticky : s.esticky &&& 0xFFFFFC81#32 = 0#32
  cfg     : s.cfg &&& 0xFFFFFF00#32 = 0#32
  mem     : s.mem.wf
  buffers : CellsIn s.mem 0x100 0x180
  data    : s.pkt.data.wf
  store   : CellsIn s.pkt.data 0 64
  offs    : s.offs.Ok

/-- The packet invariant (10_state.md R41) for a packet in `PKT`, with what R40 says of a packet that is no record and
R282 of its bytes. The packet type agrees with the PCI byte in both modes; a record's bytes pass the strict decoder. -/
structure PacketOk (s : State) : Prop where
  length     : 2 ≤ s.pkt.len.toNat ∧ s.pkt.len.toNat ≤ 64 ∧ s.pkt.len.toNat = frameBytes s.pkt.dlc.val
  identifier : s.pkt.id.toNat ≤ 0x1FFFFFFF
  addressing : aiValidate s.offs ⟨s.pkt.fmt, s.pkt.aty, some s.pkt.id, s.pkt.ta?, s.pkt.sa?, s.pkt.ae?⟩ =
                 .ok ⟨s.pkt.id, s.pkt.ta?, s.pkt.sa?, s.pkt.ae?⟩
  address    : addrBytes s.pkt.fmt.number = 1 → s.packetByte 0 = if s.pkt.fmt = .ext then s.pkt.ta else s.pkt.ae
  type       : hi (s.packetByte (addrBytes s.pkt.fmt.number)) = s.pkt.ptype.number
  written    : ∀ k, k < s.pkt.len.toNat → (s.pkt.data.read k).isSome = true
  record     : s.pkt.isRecord = true →
                 ∀ c ∈ decChecks s.pkt.ptype s.packetByte (addrBytes s.pkt.fmt.number) s.pkt.len.toNat, ¬c.1
  packet     : s.pkt.isRecord = false → s.pkt.dir = .tx ∧ s.pkt.ts = 0#64

/-- The two together: the storage invariant, and the packet invariant whenever `PKT.VALID` is 1. -/
def Inv (s : State) : Prop := StorageOk s ∧ (s.pkt.valid = true → PacketOk s)

end Sys2Proof.Claims
end

