-- ==== Sys2Proof/Certificates/Slice0/Obligations.lean ====
section
/-! DEFINITION. The statements for the provers. `Command i w s checks good` (Safety.lean) says of one command: its word,
its checks in order with the status each gives and what such an end changes, and, with every check passed, that it
answers a next state which `good` describes. -/

open Sys2Proof Sys2Proof.Machine Sys2Proof.Claims

/-! ## Steps, decoding, endings -/

/-- R66, R74, R80: a step is the next pending host action, whichever of the five it is, whole; on a pending `CMD(w)`
that is the decoded command, or `E_ILLEGAL` when no row matches. The model's own part (log entry 3): the action is taken
off the list of pending inputs, and a step with none pending changes nothing. -/
def Obligations.StepRunsTheIssuedCommand : Prop :=
  ∀ s : State,
    (∀ (a : HostAction) (rest : List Input), s.pending = .host a :: rest →
      step s = hostAction a { s with pending := rest }) ∧
    (∀ (w : Word) (rest : List Input), s.pending = .host (.cmd w) :: rest →
      (∀ i, decode w = .ok i → step s = exec i { s with pending := rest }) ∧
      (∀ b, decode w = .error b →
        step s = .next { s with pending := rest, status := 6#32, esticky := s.esticky ||| 0x40#32, ecmd := w })) ∧
    (s.pending = [] → step s = .next s)

/-- R85: command words of 95_test_vectors.md and 96_test_vectors_derived.md, one for each family and kind of field. -/
def Obligations.SampleWordsDecode : Prop :=
  decode 0x00000000#32 = .ok .nop ∧ decode 0x12100010#32 = .ok (.idClassify 1 0x10) ∧
  decode 0x22000000#32 = .ok .dlcMin ∧ decode 0x3340000E#32 = .ok (.aiValidate 4 0x0E) ∧
  decode 0x41800020#32 = .ok (.sfEnc true 0 0x20) ∧ decode 0x43200000#32 = .ok (.ffEnc false 2 0) ∧
  decode 0x46200000#32 = .ok (.cfDec 2) ∧ decode 0x470000E0#32 = .ok (.fcEnc false 0 0xE0) ∧
  decode 0x49000000#32 = .ok .stminDec ∧ decode 0x5040000E#32 = .ok (.pktSf false 4 0x0E) ∧
  decode 0x55200003#32 = .ok (.pktSetai 2 0x03) ∧ decode 0x12500000#32 = .ok (.idClassify 5 0)

/-- R81, R83, R85: decoding gives back every well-formed command from its word, every field at every value. -/
def Obligations.DecodeOfEncodeIsTheCommand : Prop := ∀ i : Instr, i.WellFormed → decode (encode i) = .ok i

/-- R86: a word is a command exactly when it matches a row of R85's match and mask columns; no word matches two rows; a
decoded word is the command's own word, so `ANY`, `FMT` and `PM` are its bits; any other word ends `E_ILLEGAL`. -/
def Obligations.DecodingIsTotalAndUnambiguous : Prop :=
  (∀ w : Word, (∃ i, decode w = .ok i) ↔ ∃ row ∈ matchMaskTable, w &&& row.2 = row.1) ∧
  matchMaskTable.Pairwise (fun p q => ∀ w : Word, ¬(w &&& p.2 = p.1 ∧ w &&& q.2 = q.1)) ∧
  (∀ (w : Word) (i : Instr), decode w = .ok i → encode i = w ∧ i.WellFormed) ∧
  (∀ (w : Word) (s : State), (¬∃ i, decode w = .ok i) →
    runCommand w s = .next { s with status := 6#32, esticky := s.esticky ||| 0x40#32, ecmd := w })

/-- R250, R252: every command word ends, with one code from 0 to 6; and so every step answers a next state. -/
def Obligations.EveryCommandEndsWithOneCode : Prop :=
  (∀ (w : Word) (s : State), ∃ t, runCommand w s = .next t ∧ t.err ≤ 6 ∧ t.status.toNat < 0x20) ∧
  (∀ s : State, ∃ t, step s = .next t)

/-- R256: a command word that ends with an error changes exactly `STATUS`, its bit of `ESTICKY` and `ECMD`. -/
def Obligations.FailedCommandChangesOnlyStatus : Prop :=
  ∀ (w : Word) (s t : State), runCommand w s = .next t → t.err ≠ 0 →
    t = { s with status := w32 t.err, esticky := s.esticky ||| w32 (2 ^ t.err), ecmd := w }

/-- R254: the warning comes from STMIN_DEC on a reserved raw value alone, and with status `OK` alone; a command that
ends `OK`, SRESET and CLRSTK apart, changes of the status registers only `STATUS` and, with the warning, `ESTICKY.WARN`.
-/
def Obligations.WarningOnlyFromReservedSeparationTime : Prop :=
  ∀ (i : Instr) (s t : State), exec i s = .next t →
    t.warn = warns i s ∧ (t.warn = true → t.err = 0) ∧
    (t.err = 0 → t.status = (if warns i s then 0x10#32 else 0#32) ∧
      (i ≠ .sreset → i ≠ .clrstk →
        t.esticky = s.esticky ||| (if warns i s then 0x100#32 else 0#32) ∧ t.ecmd = s.ecmd))

/-- R260, which the spec derives from the command rules: no command ends with a code its row of the table does not mark.
-/
def Obligations.CommandsEndOnlyWithTheirCodes : Prop :=
  ∀ (i : Instr) (s t : State), exec i s = .next t → t.err ∈ possibleCodes i

/-- R229: `E_AMBIGUITY` comes from PKT_SETAI alone, and from it exactly when the checks before the guard pass and the
number of addressing bytes would change. -/
def Obligations.AmbiguityIsExactlyTheGuard : Prop :=
  ∀ (i : Instr) (s t : State), exec i s = .next t →
    (t.err = 4 ↔ ∃ fmt pm, i = .pktSetai fmt pm ∧ s.pkt.valid = true ∧ s.pkt.isRecord = false ∧ fmt.toNat ≤ 4 ∧
      (∀ c ∈ addressingRange pm s, ¬c.1) ∧ addrBytes fmt ≠ addrBytes s.pkt.fmt.number)

/-- R253: the two causes of `E_ILLEGAL`, and only these. -/
def Obligations.IllegalHasTwoCauses : Prop :=
  ∀ (w : Word) (s t : State), runCommand w s = .next t →
    (t.err = 6 ↔ (¬∃ i, decode w = .ok i) ∨ (decode w = .ok .pktView ∧ s.pkt.valid = false) ∨
      ∃ fmt pm, decode w = .ok (.pktSetai fmt pm) ∧ (s.pkt.valid = false ∨ s.pkt.isRecord = true))

/-- R24: a command that ends `ok` leaves bits 12 to 31 of `x[RP]` 0; NOP, CLRSTK and PKT_CLEAR leave `x[RP]` alone. -/
def Obligations.ResultPresenceMaskHasTwelveBits : Prop :=
  ∀ (i : Instr) (s t : State), exec i s = .next t → t.err = 0 →
    if i = .nop ∨ i = .clrstk ∨ i = .pktClear then t.reg .rp = s.reg .rp else num t .rp < 2 ^ 12

/-- R22, R38: a command writes only the registers its rule lists, only the buffers its rule names, and `CFG` never but
by SRESET, however it ends. A buffer counts here as a whole; the bytes written in it are named by the statement of each
command. The model's own fields stay (log entries 1 to 4). -/
def Obligations.CommandsWriteOnlyWhatTheirRulesName : Prop :=
  ∀ (i : Instr) (s t : State), exec i s = .next t →
    (∀ r, r ∉ mayWrite i → t.reg r = s.reg r) ∧
    (∀ k, ¬(mayStoreFb i = true ∧ fbSpan 0 64 k) → ¬(mayStorePb i = true ∧ pbSpan 64 k) → t.byteAt k = s.byteAt k) ∧
    (i ≠ .sreset → t.cfg = s.cfg) ∧
    t.offs = s.offs ∧ t.epoch = s.epoch ∧ t.pending = s.pending ∧ t.rdata = s.rdata

/-- R226, R230: `PKT` changes only by a command that replaces or discards the whole set, or by PKT_SETAI on a packet
that is no record, which leaves the packet type, the code, the length and every byte after the addressing bytes alone.
-/
def Obligations.PacketChangesOnlyByPacketCommands : Prop :=
  ∀ (i : Instr) (s t : State), exec i s = .next t →
    t.pkt = s.pkt ∨ replacesPacket i = true ∨
    ∃ fmt pm, i = .pktSetai fmt pm ∧ s.pkt.valid = true ∧ s.pkt.isRecord = false ∧
      t.pkt.valid = true ∧ t.pkt.isRecord = false ∧ t.pkt.ptype = s.pkt.ptype ∧ t.pkt.dlc = s.pkt.dlc ∧
      t.pkt.len = s.pkt.len ∧ t.pkt.dir = s.pkt.dir ∧ t.pkt.ts = s.pkt.ts ∧
      ∀ k, addrBytes fmt ≤ k → t.packetByte k = s.packetByte k

/-! ## Invariants and reset -/

/-- The invariant of the two statements below holds right after reset. -/
def Obligations.ResetMeetsTheInvariant : Prop := Inv State.reset

/-- R31, R32, R33, R38, R40, R250: the storage invariant is kept by every step, whatever the host does. -/
def Obligations.StepKeepsTheStorageInvariant : Prop :=
  ∀ s t : State, StorageOk s → step s = .next t → StorageOk t

/-- R41, which the spec derives from R216 to R230: the packet invariant is kept by every step, whatever the host does.
-/
def Obligations.StepKeepsThePacketInvariant : Prop :=
  ∀ s t : State, Inv s → step s = .next t → t.pkt.valid = true → PacketOk t

/-- R281, R282: the state right after a hardware reset; an unwritten byte of a buffer is the reset's free value. The
model's own fields are the model's choice (log entries 1, 3, 4 and 6). -/
def Obligations.HardwareResetGivesTheResetValues : Prop :=
  ∀ (s : State) (rest : List Input), s.pending = .hardReset :: rest → ∃ t, step s = .next t ∧
    (∀ r, t.reg r = 0#32) ∧ t.status = 0#32 ∧ t.esticky = 0#32 ∧ t.cfg = 0xCC#32 ∧ t.ecmd = 0#32 ∧
    packetStatus t.pkt = 0#32 ∧ t.pkt.id = 0#32 ∧ t.pkt.tap = false ∧ t.pkt.ta = 0#8 ∧ t.pkt.sap = false ∧
    t.pkt.sa = 0#8 ∧ t.pkt.aep = false ∧ t.pkt.ae = 0#8 ∧ t.pkt.ts = 0#64 ∧
    (∀ k, t.byteAt k = Config.initByte t.epoch k) ∧ (∀ k, t.packetByte k = Config.initPacketByte t.epoch k) ∧
    t.offs = s.offs ∧ t.epoch = s.epoch + 1 ∧ t.pending = rest ∧ t.rdata = s.rdata

/-! ## Host actions -/

/-- R67: a word write. -/
def Obligations.HostWordWrite : Prop :=
  ∀ (s : State) (v : Word),
    (∀ p ∈ registerOffsets, ∃ t, hostAction (.wr p.1 v) s = .next t ∧ t.reg p.2 = v ∧
      (∀ r, r ≠ p.2 → t.reg r = s.reg r) ∧ t = { s with x := t.x }) ∧
    hostAction (.wr 0x00C v) s = .next { s with cfg := w32 (v.toNat % 2 ^ 8) } ∧
    hostAction (.wr 0x000 v) s = hostAction (.cmd v) s ∧
    ∀ off, off ≠ 0x00C → off ≠ 0x000 → (∀ p ∈ registerOffsets, off ≠ p.1) →
      hostAction (.wr off v) s = .next (bus s)

/-- R68, R35: a word read, with the bits of the view `PKTST`; the value returned is the model's field `rdata` (log
entry 4). -/
def Obligations.HostWordRead : Prop :=
  ∀ s : State,
    (∀ p ∈ registerOffsets, hostAction (.rd p.1) s = .next { s with rdata := s.reg p.2 }) ∧
    hostAction (.rd 0x000) s = .next { s with rdata := 0#32 } ∧
    hostAction (.rd 0x004) s = .next { s with rdata := s.status } ∧
    hostAction (.rd 0x008) s = .next { s with rdata := s.esticky } ∧
    hostAction (.rd 0x00C) s = .next { s with rdata := s.cfg } ∧
    hostAction (.rd 0x010) s = .next { s with rdata := s.ecmd } ∧
    hostAction (.rd 0x014) s = .next { s with rdata := packetStatus s.pkt } ∧
    ∀ off, off ∉ [0x000, 0x004, 0x008, 0x00C, 0x010, 0x014] → (∀ p ∈ registerOffsets, off ≠ p.1) →
      hostAction (.rd off) s = .next { bus s with rdata := 0#32 }

/-- R69: a byte write and a byte read of `FB` and `PB`; a read after a write gives the byte written. The value returned
to the host is the model's field `rdata` (log entry 4). -/
def Obligations.HostByteAccess : Prop :=
  ∀ (s : State) (off : Nat) (b : Byte),
    (0x100 ≤ off ∧ off ≤ 0x17F →
      (∃ t, hostAction (.wrb off b) s = .next t ∧ t.byteAt off = b ∧ (∀ k, k ≠ off → t.byteAt k = s.byteAt k) ∧
        t = { s with mem := t.mem }) ∧
      hostAction (.rdb off) s = .next { s with rdata := w32 (s.byteAt off).toNat }) ∧
    (off < 0x100 ∨ 0x17F < off →
      hostAction (.wrb off b) s = .next (bus s) ∧ hostAction (.rdb off) s = .next { bus s with rdata := 0#32 })

/-- R70: the bad accesses, each kind the rule lists, and what each does. The value a bad read returns to the host is the
model's field `rdata` (log entry 4). -/
def Obligations.BadAccessSetsOnlyTheBusBit : Prop :=
  ∀ (s : State) (off : Nat) (v : Word) (b : Byte),
    (off % 4 ≠ 0 ∨ (0x100 ≤ off ∧ off ≤ 0x17F) ∨ (0x018 ≤ off ∧ off ≤ 0x03F) ∨ (0x08C ≤ off ∧ off ≤ 0x0FF) ∨ 0x17F < off →
      hostAction (.wr off v) s = .next (bus s) ∧ hostAction (.rd off) s = .next { bus s with rdata := 0#32 }) ∧
    (off < 0x100 ∨ 0x17F < off →
      hostAction (.wrb off b) s = .next (bus s) ∧ hostAction (.rdb off) s = .next { bus s with rdata := 0#32 }) ∧
    (off ∈ [0x004, 0x008, 0x010, 0x014] → hostAction (.wr off v) s = .next (bus s))

/-! ## Identifier codec -/

/-- R110, R111: ID_ISSTD and ID_ISEXT, on every value of `x[ID]`. -/
def Obligations.IdentifierRangePredicates : Prop :=
  ∀ s : State,
    Command .idIsstd 0x10000000#32 s [] (fun t =>
      t.reg .res = (if num s .id ≤ 0x7FF then 1#32 else 0#32) ∧ t.reg .rp = 0#32 ∧ RegsOnly s t [.res, .rp]) ∧
    Command .idIsext 0x11000000#32 s [] (fun t =>
      t.reg .res = (if 0x800 ≤ num s .id ∧ num s .id ≤ 0x1FFFFFFF then 1#32 else 0#32) ∧ t.reg .rp = 0#32 ∧
      RegsOnly s t [.res, .rp])

/-- R112 with R106: ID_CLASSIFY. -/
def Obligations.IdClassify : Prop :=
  ∀ (fmt : BitVec 3) (pm : BitVec 8) (s : State),
    Command (.idClassify fmt pm) (cmdWord 0x12 false fmt pm) s
      [formatCheck fmt, (0x1FFFFFFF < num s .id, .invalidValue), (Given pm 4 ∧ 1 < num s .aty, .invalidValue)]
      (fun t =>
        (t.reg .res = 1#32 ∨ t.reg .res = 0#32) ∧
        (fmt.toNat = 0 ∨ fmt.toNat = 3 → (t.reg .res = 1#32 ↔ num s .id ≤ 0x7FF)) ∧
        (fmt.toNat = 2 → t.reg .res = 1#32) ∧
        (fmt.toNat = 1 ∨ fmt.toNat = 4 → Given pm 4 →
          (t.reg .res = 1#32 ↔ InWindow s.offs fmt (num s .aty) (num s .id))) ∧
        (fmt.toNat = 1 ∨ fmt.toNat = 4 → ¬Given pm 4 →
          (t.reg .res = 1#32 ↔ InWindow s.offs fmt 0 (num s .id) ∨ InWindow s.offs fmt 1 (num s .id))) ∧
        t.reg .rp = 0#32 ∧ RegsOnly s t [.res, .rp])

/-- R113 with R104: ID_ENCODE. -/
def Obligations.IdEncode : Prop :=
  ∀ (fmt : BitVec 3) (s : State),
    Command (.idEncode fmt) (cmdWord 0x13 false fmt 0) s
      [formatCheck fmt, (0xFF < num s .ta, .invalidValue), (0xFF < num s .sa, .invalidValue),
       (1 < num s .aty, .invalidValue), (structured fmt = false, .inconsistent)]
      (fun t => t.reg .id = w32 (offset s.offs fmt (num s .aty) + num s .ta * 2 ^ 8 + num s .sa) ∧ t.reg .rp = 0x01#32 ∧
        RegsOnly s t [.id, .rp])

/-- R114 with R105: ID_DECODE. -/
def Obligations.IdDecode : Prop :=
  ∀ (fmt : BitVec 3) (s : State),
    Command (.idDecode fmt) (cmdWord 0x14 false fmt 0) s
      ([formatCheck fmt, (0x1FFFFFFF < num s .id, .invalidValue), (structured fmt = false, .inconsistent)] ++
        idChecks s.offs fmt (num s .id))
      (fun t => t.reg .aty = w32 (idType s.offs fmt (num s .id)) ∧ t.reg .ta = w32 (num s .id / 2 ^ 8 % 2 ^ 8) ∧
        t.reg .sa = w32 (num s .id % 2 ^ 8) ∧ t.reg .rp = 0x16#32 ∧ RegsOnly s t [.aty, .ta, .sa, .rp])

/-- R107: for offsets that meet R6, decoding inverts encoding, encoding inverts decoding inside a window, and outside
both windows a 29-bit identifier is the not-implemented case; classification agrees. -/
def Obligations.IdentifierWindowsInvert : Prop :=
  ∀ (o : Offsets) (f : Windowed), o.Ok →
    (∀ (a : AddrType) (ta sa : Byte), idDecode o f (idEncode o f a ta sa) = .ok ⟨a, ta, sa⟩) ∧
    (∀ (a : AddrType) (id : Word), inWindow o id f a = true →
      idDecode o f id = .ok ⟨a, byte (id.toNat / 2 ^ 8), byte id.toNat⟩ ∧
      idEncode o f a (byte (id.toNat / 2 ^ 8)) (byte id.toNat) = id ∧
      idClassify o id f.format none = true ∧ ∀ b, idClassify o id f.format (some b) = true ↔ b = a) ∧
    (∀ id : Word, isExtended id = true → inWindow o id f .phys = false → inWindow o id f .func = false →
      idDecode o f id = .error .notImpl ∧ ∀ b?, idClassify o id f.format b? = false)

/-! ## Data-length codec -/

/-- R120, R121, R122: the table, the exact code and the least code. -/
def Obligations.DataLengthFunctions : Prop :=
  (∀ c : Dlc, dlcBytes c = [0, 1, 2, 3, 4, 5, 6, 7, 8, 12, 16, 20, 24, 32, 48, 64].getD c.val 0) ∧
  (∀ c d : Dlc, c < d → dlcBytes c < dlcBytes d) ∧
  (∀ n : Nat, (∃ c, dlcExact n = .ok c ∧ dlcBytes c = n) ∨
    (dlcExact n = .error .invalidValue ∧ ∀ c, dlcBytes c ≠ n)) ∧
  (∀ n : Nat, 64 < n → dlcMin n = .error .invalidValue) ∧
  (∀ n : Nat, n ≤ 64 → ∃ c, dlcMin n = .ok c ∧ n ≤ dlcBytes c ∧ (∀ d, n ≤ dlcBytes d → c ≤ d) ∧
    (n ≤ 8 → c.val = n) ∧ (9 ≤ n → n ≤ 12 → c = 9) ∧ (13 ≤ n → n ≤ 16 → c = 10) ∧ (17 ≤ n → n ≤ 20 → c = 11) ∧
    (21 ≤ n → n ≤ 24 → c = 12) ∧ (25 ≤ n → n ≤ 32 → c = 13) ∧ (33 ≤ n → n ≤ 48 → c = 14) ∧ (49 ≤ n → c = 15)) ∧
  (∀ (n : Nat) (c : Dlc), dlcExact n = .ok c → dlcMin n = .ok c)

/-- R125, R126, R127: DLC_DECODE, DLC_ENCODE and DLC_MIN. -/
def Obligations.DataLengthCommands : Prop :=
  ∀ s : State,
    Command .dlcDecode 0x20000000#32 s [(15 < num s .dlc, .invalidValue)] (fun t =>
      t.reg .dl = w32 (frameBytes (num s .dlc)) ∧ t.reg .rp = 0x100#32 ∧ RegsOnly s t [.dl, .rp]) ∧
    Command .dlcEncode 0x21000000#32 s [(num s .dl ∉ legalLengths, .invalidValue)] (fun t =>
      frameBytes (num t .dlc) = num s .dl ∧ num t .dlc ≤ 15 ∧ t.reg .rp = 0x20#32 ∧ RegsOnly s t [.dlc, .rp]) ∧
    Command .dlcMin 0x22000000#32 s [(64 < num s .dl, .invalidValue)] (fun t =>
      t.reg .dlc = w32 (leastCode (num s .dl)) ∧ t.reg .rp = 0x20#32 ∧ RegsOnly s t [.dlc, .rp])

/-! ## Addressing-information codec -/

/-- R145 with R132, R146 with R134: AI_NBYTES and AI_ENCDATA. -/
def Obligations.AddressingByteCommands : Prop :=
  ∀ (fmt : BitVec 3) (pm : BitVec 8) (s : State),
    Command (.aiNbytes fmt) (cmdWord 0x30 false fmt 0) s [formatCheck fmt] (fun t =>
      t.reg .res = w32 (addrBytes fmt) ∧ t.reg .rp = 0#32 ∧ RegsOnly s t [.res, .rp]) ∧
    Command (.aiEncdata fmt pm) (cmdWord 0x31 false fmt pm) s
      [formatCheck fmt, (Given pm 1 ∧ 0xFF < num s .ta, .invalidValue), (Given pm 3 ∧ 0xFF < num s .ae, .invalidValue),
       (fmt.toNat = 2 ∧ ¬Given pm 1 ∨ hasExtension fmt = true ∧ ¬Given pm 3, .inconsistent)]
      (fun t =>
        (fmt.toNat = 2 → t.fb 0 = byte (num s .ta)) ∧ (hasExtension fmt = true → t.fb 0 = byte (num s .ae)) ∧
        t.reg .res = w32 (addrBytes fmt) ∧ t.reg .rp = 0#32 ∧ Kept s t [.res, .rp] (fbSpan 0 (addrBytes fmt)) ∧
        t.pkt = s.pkt)

/-- R147 with R135: AI_DECODE. -/
def Obligations.AiDecode : Prop :=
  ∀ (fmt : BitVec 3) (s : State),
    Command (.aiDecode fmt) (cmdWord 0x32 false fmt 0) s
      ([formatCheck fmt, (0x1FFFFFFF < num s .id, .invalidValue), (64 < num s .flen, .invalidValue)] ++
        aiDecodeChecks s.offs fmt (num s .id) (num s .flen))
      (fun t =>
        t.reg .aty = (if structured fmt then w32 (idType s.offs fmt (num s .id)) else s.reg .aty) ∧
        t.reg .ta = (if fmt.toNat = 2 then w32 (s.fb 0).toNat
          else if structured fmt then w32 (num s .id / 2 ^ 8 % 2 ^ 8) else s.reg .ta) ∧
        t.reg .sa = (if structured fmt then w32 (num s .id % 2 ^ 8) else s.reg .sa) ∧
        t.reg .ae = (if hasExtension fmt then w32 (s.fb 0).toNat else s.reg .ae) ∧
        t.reg .rp = w32 ([0x00, 0x16, 0x02, 0x08, 0x1E].getD fmt.toNat 0) ∧
        RegsOnly s t [.aty, .ta, .sa, .ae, .rp])

/-- R148 with R140: AI_VALIDATE. -/
def Obligations.AiValidate : Prop :=
  ∀ (fmt : BitVec 3) (pm : BitVec 8) (s : State),
    Command (.aiValidate fmt pm) (cmdWord 0x33 false fmt pm) s
      (formatCheck fmt :: addressingRange pm s ++ validateChecks s.offs fmt pm s)
      (fun t =>
        t.reg .id = w32 (normId s.offs fmt pm s) ∧
        t.reg .ta = (if hasTarget fmt then w32 (normTa fmt pm s) else s.reg .ta) ∧
        t.reg .sa = (if structured fmt then w32 (normSa pm s) else s.reg .sa) ∧
        t.reg .ae = s.reg .ae ∧
        t.reg .rp = w32 ([0x11, 0x17, 0x13, 0x19, 0x1F].getD fmt.toNat 0) ∧
        RegsOnly s t [.id, .ta, .sa, .rp])

/-- R142, which the spec derives: what `ai_validate` returns decodes back from the identifier and the addressing bytes,
and validates to itself, for offsets that meet R6. -/
def Obligations.AddressingRoundTrip : Prop :=
  ∀ (o : Offsets) (v : Addressing) (r : Normalised), o.Ok → (∀ id, v.id? = some id → id.toNat ≤ 0x1FFFFFFF) →
    aiValidate o v = .ok r →
    (∃ d, aiEncData v.fmt r.ta? r.ae? = .ok d ∧
      aiDecode o v.fmt r.id d =
        .ok ⟨if structured v.fmt.number then some v.aty else none, r.ta?, r.sa?, r.ae?⟩) ∧
    aiValidate o ⟨v.fmt, v.aty, some r.id, r.ta?, r.sa?, r.ae?⟩ = .ok r

/-! ## Packet types and Single Frame -/

/-- R160: PT_GET. -/
def Obligations.PtGet : Prop :=
  ∀ (fmt : BitVec 3) (s : State),
    Command (.ptGet fmt) (cmdWord 0x40 false fmt 0) s
      [formatCheck fmt, (64 < num s .flen, .invalidValue), (num s .flen < addrBytes fmt + 1, .inconsistent),
       (3 < hi (s.fb (addrBytes fmt)), .invalidValue)]
      (fun t => t.reg .res = w32 (hi (s.fb (addrBytes fmt))) ∧ t.reg .rp = 0#32 ∧ RegsOnly s t [.res, .rp])

/-- R161 with R154, R157: SF_ENC in both modes. -/
def Obligations.SfEnc : Prop :=
  ∀ (any : Bool) (fmt : BitVec 3) (pm : BitVec 8) (s : State),
    Command (.sfEnc any fmt pm) (cmdWord 0x41 any fmt pm) s
      (formatCheck fmt :: sfRange pm s ++ sfOwn any pm (addrBytes fmt) s)
      (fun t => LeafEncoded s t (addrBytes fmt) (sfFrameCode pm (addrBytes fmt) s) (sfPci any pm (addrBytes fmt) s)
        (num s .plen))

/-- R162 with R158: SF_DEC. -/
def Obligations.SfDec : Prop :=
  ∀ (fmt : BitVec 3) (s : State),
    Command (.sfDec fmt) (cmdWord 0x42 false fmt 0) s
      ([formatCheck fmt, (64 < num s .flen, .invalidValue)] ++ sfDecChecks s.fb (addrBytes fmt) (num s .flen))
      (fun t =>
        (∀ j, j < sfDecLength s.fb (addrBytes fmt) (num s .flen) →
          t.pb j = s.fb (sfDecStart (addrBytes fmt) (num s .flen) + j)) ∧
        t.reg .plen = w32 (sfDecLength s.fb (addrBytes fmt) (num s .flen)) ∧
        t.reg .dl = w32 (sfDecLength s.fb (addrBytes fmt) (num s .flen)) ∧
        t.reg .dlc = w32 (codeOf (num s .flen)) ∧ t.reg .rp = 0x920#32 ∧
        Kept s t [.plen, .dl, .dlc, .rp] (pbSpan (sfDecLength s.fb (addrBytes fmt) (num s .flen))) ∧ t.pkt = s.pkt)

/-- R159, which the spec derives: every valid-mode payload without a given code comes back, across the boundary of the
short and the long form. -/
def Obligations.SingleFrameRoundTrip : Prop :=
  ∀ (a : Nat) (pay : List Byte) (dl : Nat) (fill : Byte), a ≤ 1 → 1 ≤ pay.length → a + pay.length ≤ 62 →
    ∃ e, sfEncode a pay none false dl fill = .ok e ∧
      (∀ h : List Byte, h.length = a → sfDecode a (h ++ e.body) = .ok ⟨e.code, pay.length, pay⟩) ∧
      (e.code.val ≤ 8 ↔ a + pay.length ≤ 7) ∧ (a + pay.length = 7 → e.code = 8) ∧ (a + pay.length = 8 → e.code = 9)

/-! ## First Frame -/

/-- R178 with R154, R173: FF_ENC in both modes. The layout for `x[DL]` above 4095 is R172's, which the spec marks as
general knowledge (log entry 5). -/
def Obligations.FfEnc : Prop :=
  ∀ (any : Bool) (fmt : BitVec 3) (pm : BitVec 8) (s : State),
    Command (.ffEnc any fmt pm) (cmdWord 0x43 any fmt pm) s
      (formatCheck fmt :: sfRange pm s ++ ffOwn any pm (addrBytes fmt) s)
      (fun t => LeafEncoded s t (addrBytes fmt) (ffFrameCode pm (addrBytes fmt) s) (ffPciList s) (num s .plen))

/-- R179 with R174: FF_DEC. The escape form is R172's (log entry 5). -/
def Obligations.FfDec : Prop :=
  ∀ (fmt : BitVec 3) (s : State),
    Command (.ffDec fmt) (cmdWord 0x44 false fmt 0) s
      ([formatCheck fmt, (64 < num s .flen, .invalidValue)] ++ ffDecChecks s.fb (addrBytes fmt) (num s .flen))
      (fun t =>
        (∀ j, j < num s .flen - (addrBytes fmt + ffDecPci s.fb (addrBytes fmt)) →
          t.pb j = s.fb (addrBytes fmt + ffDecPci s.fb (addrBytes fmt) + j)) ∧
        t.reg .plen = w32 (num s .flen - (addrBytes fmt + ffDecPci s.fb (addrBytes fmt))) ∧
        t.reg .dl = w32 (ffDecLength s.fb (addrBytes fmt)) ∧
        t.reg .dlc = w32 (codeOf (num s .flen)) ∧ t.reg .rp = 0x920#32 ∧
        Kept s t [.plen, .dl, .dlc, .rp] (pbSpan (num s .flen - (addrBytes fmt + ffDecPci s.fb (addrBytes fmt)))) ∧
        t.pkt = s.pkt)

/-- R175, which the spec derives (its escape form is log entry 5): every First Frame of a given code that the rule
admits is encoded and comes back. -/
def Obligations.FirstFrameRoundTrip : Prop :=
  ∀ (a : Nat) (c : Dlc) (pay : List Byte) (dl : Word), a ≤ 1 → 1 ≤ pay.length →
    a + (if 4095 < dl.toNat then 6 else 2) + pay.length = dlcBytes c → sfCap a c < dl.toNat → 0 < dl.toNat →
    ∃ e, ffEncode a pay dl (some c) false = .ok e ∧ e.code = c ∧
      ∀ h : List Byte, h.length = a → ffDecode a (h ++ e.body) = .ok ⟨c, dl.toNat, pay⟩

/-! ## Consecutive Frame -/

/-- R190 with R154, R186: CF_ENC in both modes. -/
def Obligations.CfEnc : Prop :=
  ∀ (any : Bool) (fmt : BitVec 3) (pm : BitVec 8) (s : State),
    Command (.cfEnc any fmt pm) (cmdWord 0x45 any fmt pm) s
      (formatCheck fmt :: cfRange pm s ++ cfOwn any pm (addrBytes fmt) s)
      (fun t => LeafEncoded s t (addrBytes fmt) (cfFrameCode pm (addrBytes fmt) s) (cfPci s) (num s .plen))

/-- R191 with R187: CF_DEC. -/
def Obligations.CfDec : Prop :=
  ∀ (fmt : BitVec 3) (s : State),
    Command (.cfDec fmt) (cmdWord 0x46 false fmt 0) s
      ([formatCheck fmt, (64 < num s .flen, .invalidValue)] ++ cfDecChecks s.fb (addrBytes fmt) (num s .flen))
      (fun t =>
        (∀ j, j < num s .flen - (addrBytes fmt + 1) → t.pb j = s.fb (addrBytes fmt + 1 + j)) ∧
        t.reg .plen = w32 (num s .flen - (addrBytes fmt + 1)) ∧ t.reg .sn = w32 (lo (s.fb (addrBytes fmt))) ∧
        t.reg .dlc = w32 (codeOf (num s .flen)) ∧ t.reg .rp = 0xA20#32 ∧
        Kept s t [.plen, .sn, .dlc, .rp] (pbSpan (num s .flen - (addrBytes fmt + 1))) ∧ t.pkt = s.pkt)

/-- R189, which the spec derives: a fragment of a given code comes back with the filler after it. -/
def Obligations.ConsecutiveFrameRoundTrip : Prop :=
  ∀ (a : Nat) (c : Dlc) (sn : BitVec 4) (pay : List Byte) (fill : Byte), a ≤ 1 → 1 ≤ pay.length →
    a + 1 + pay.length ≤ dlcBytes c →
    ∃ e, cfEncode a pay sn (some c) false fill = .ok e ∧ e.code = c ∧
      ∀ h : List Byte, h.length = a →
        cfDecode a (h ++ e.body) = .ok ⟨c, sn, pay ++ List.replicate (dlcBytes c - (a + 1 + pay.length)) fill⟩

/-! ## Flow Control and separation time -/

/-- R210 with R154, R196, R198: FC_ENC in both modes. -/
def Obligations.FcEnc : Prop :=
  ∀ (any : Bool) (fmt : BitVec 3) (pm : BitVec 8) (s : State),
    Command (.fcEnc any fmt pm) (cmdWord 0x47 any fmt pm) s
      (formatCheck fmt :: fcRange pm s ++ fcOwn any pm (addrBytes fmt) s)
      (fun t => LeafEncoded s t (addrBytes fmt) (fcFrameCode any pm (addrBytes fmt) s) (fcPci any pm s) 0)

/-- R211 with R199: FC_DEC. -/
def Obligations.FcDec : Prop :=
  ∀ (fmt : BitVec 3) (s : State),
    Command (.fcDec fmt) (cmdWord 0x48 false fmt 0) s
      ([formatCheck fmt, (64 < num s .flen, .invalidValue)] ++ fcDecChecks s.fb (addrBytes fmt) (num s .flen))
      (fun t =>
        t.reg .fs = w32 (lo (s.fb (addrBytes fmt))) ∧ t.reg .dlc = w32 (codeOf (num s .flen)) ∧
        (lo (s.fb (addrBytes fmt)) = 0 → t.reg .bs = w32 (s.fb (addrBytes fmt + 1)).toNat ∧
          t.reg .st = w32 (s.fb (addrBytes fmt + 2)).toNat ∧ t.reg .rp = 0x4E0#32) ∧
        (lo (s.fb (addrBytes fmt)) ≠ 0 → t.reg .bs = s.reg .bs ∧ t.reg .st = s.reg .st ∧ t.reg .rp = 0x420#32) ∧
        RegsOnly s t [.fs, .dlc, .bs, .st, .rp])

/-- R200, which the spec derives: Flow Control of a given code comes back, ContinueToSend with block size and separation
time, Wait and Overflow without. -/
def Obligations.FlowControlRoundTrip : Prop :=
  ∀ (a : Nat) (c : Dlc) (fill : Byte) (h : List Byte), a ≤ 1 → a + 3 ≤ dlcBytes c → h.length = a →
    (∀ bs st : Byte, ∃ e, fcEncode a 0#4 (some bs) (some st) (some c) false fill = .ok e ∧
      fcDecode a (h ++ e.body) = .ok ⟨c, .cts, some bs, some st⟩) ∧
    (∀ f : FlowStatus, f ≠ .cts → ∃ e, fcEncode a f.number none none (some c) false fill = .ok e ∧
      fcDecode a (h ++ e.body) = .ok ⟨c, f, none, none⟩)

/-- R212 with R205 and R207, R213 with R206: STMIN_DEC, with the warning of a reserved value, and STMIN_ENC. -/
def Obligations.SeparationTimeCommands : Prop :=
  ∀ s : State,
    (encode .stminDec = 0x49000000#32 ∧
      (0xFF < num s .st → FailsWith .stminDec 0x49000000#32 s .invalidValue) ∧
      (num s .st ≤ 0xFF → ∃ t, exec .stminDec s = .next t ∧
        (num s .st ≤ 0x7F → t.reg .stt = w32 (10 * num s .st)) ∧
        (0xF1 ≤ num s .st → num s .st ≤ 0xF9 → t.reg .stt = w32 (num s .st - 0xF0)) ∧
        (reservedRaw (num s .st) = true → t.reg .stt = w32 1270) ∧
        t.status = (if reservedRaw (num s .st) then 0x10#32 else 0#32) ∧
        t.esticky = s.esticky ||| (if reservedRaw (num s .st) then 0x100#32 else 0#32) ∧
        t.reg .rp = 0#32 ∧ (∀ r, r ∉ [Reg.stt, .rp] → t.reg r = s.reg r) ∧
        t = { s with x := t.x, status := t.status, esticky := t.esticky })) ∧
    Command .stminEnc 0x4A000000#32 s
      [(¬(num s .stt ≤ 1270 ∧ num s .stt % 10 = 0) ∧ ¬(1 ≤ num s .stt ∧ num s .stt ≤ 9), .invalidValue)]
      (fun t =>
        t.reg .st = (if num s .stt ≤ 1270 ∧ num s .stt % 10 = 0 then w32 (num s .stt / 10) else w32 (0xF0 + num s .stt)) ∧
        t.reg .rp = 0x80#32 ∧ RegsOnly s t [.st, .rp])

/-- R208: the two directions of the separation-time mapping. -/
def Obligations.SeparationTimeRoundTrip : Prop :=
  (∀ r : Byte, reservedRaw r.toNat = false → stminRaw (stminTime r).t = .ok r ∧ (stminTime r).warn = false) ∧
  (∀ r : Byte, reservedRaw r.toNat = true → stminTime r = ⟨1270, true⟩ ∧ stminRaw (stminTime r).t = .ok 0x7F#8) ∧
  (∀ (t : Nat) (r : Byte), stminRaw t = .ok r → stminTime r = ⟨t, false⟩) ∧
  stminTime 0x00#8 = ⟨0, false⟩ ∧ stminTime 0x7F#8 = ⟨1270, false⟩ ∧ stminTime 0xF1#8 = ⟨1, false⟩ ∧
  stminTime 0xF9#8 = ⟨9, false⟩

/-! ## Packets -/

/-- R220 with R216, R219: PKT_SF. -/
def Obligations.PktSf : Prop :=
  ∀ (any : Bool) (fmt : BitVec 3) (pm : BitVec 8) (s : State),
    Command (.pktSf any fmt pm) (cmdWord 0x50 any fmt pm) s
      (buildChecks fmt pm s (sfRange pm s) (sfOwn any pm (addrBytes fmt) s)
        (sfFrameCode pm (addrBytes fmt) s))
      (fun t => Built s t fmt pm .sf (sfFrameCode pm (addrBytes fmt) s) (sfPci any pm (addrBytes fmt) s) (num s .plen))

/-- R221 with R216, R219: PKT_FF. The layout for `x[DL]` above 4095 is R172's (log entry 5). -/
def Obligations.PktFf : Prop :=
  ∀ (any : Bool) (fmt : BitVec 3) (pm : BitVec 8) (s : State),
    Command (.pktFf any fmt pm) (cmdWord 0x51 any fmt pm) s
      (buildChecks fmt pm s (sfRange pm s) (ffOwn any pm (addrBytes fmt) s)
        (ffFrameCode pm (addrBytes fmt) s))
      (fun t => Built s t fmt pm .ff (ffFrameCode pm (addrBytes fmt) s) (ffPciList s) (num s .plen))

/-- R222 with R216, R219: PKT_CF. -/
def Obligations.PktCf : Prop :=
  ∀ (any : Bool) (fmt : BitVec 3) (pm : BitVec 8) (s : State),
    Command (.pktCf any fmt pm) (cmdWord 0x52 any fmt pm) s
      (buildChecks fmt pm s (cfRange pm s) (cfOwn any pm (addrBytes fmt) s)
        (cfFrameCode pm (addrBytes fmt) s))
      (fun t => Built s t fmt pm .cf (cfFrameCode pm (addrBytes fmt) s) (cfPci s) (num s .plen))

/-- R223 with R216, R219: PKT_FC. -/
def Obligations.PktFc : Prop :=
  ∀ (any : Bool) (fmt : BitVec 3) (pm : BitVec 8) (s : State),
    Command (.pktFc any fmt pm) (cmdWord 0x53 any fmt pm) s
      (buildChecks fmt pm s (fcRange pm s) (fcOwn any pm (addrBytes fmt) s)
        (fcFrameCode any pm (addrBytes fmt) s))
      (fun t => Built s t fmt pm .fc (fcFrameCode any pm (addrBytes fmt) s) (fcPci any pm s) 0)

/-- R225: PKT_LOAD. Its First Frame arm reads the escape form of R172 (log entry 5). -/
def Obligations.PktLoad : Prop :=
  ∀ (fmt : BitVec 3) (s : State) (type : PacketType),
    hi (s.fb (addrBytes fmt)) = type.number ∨ 3 < hi (s.fb (addrBytes fmt)) →
    Command (.pktLoad fmt) (cmdWord 0x54 false fmt 0) s
      ([formatCheck fmt, (0x1FFFFFFF < num s .id, .invalidValue), (1 < num s .aty, .invalidValue),
        (64 < num s .flen, .invalidValue), (1 < num s .dir, .invalidValue), (num s .flen ∉ legalLengths, .invalidValue),
        (num s .flen < 2, .invalidValue)] ++
       aiDecodeChecks s.offs fmt (num s .id) (num s .flen) ++
       [(structured fmt = true ∧ idType s.offs fmt (num s .id) ≠ num s .aty, .inconsistent),
        (3 < hi (s.fb (addrBytes fmt)), .invalidValue)] ++
       decChecks type s.fb (addrBytes fmt) (num s .flen))
      (fun t =>
        t.pkt.valid = true ∧ t.pkt.isRecord = true ∧
        AddressingSet s.pkt t.pkt fmt (num s .aty) (num s .id)
          (if fmt.toNat = 2 then s.fb 0 else byte (num s .id / 2 ^ 8 % 2 ^ 8)) (byte (num s .id % 2 ^ 8)) (s.fb 0) ∧
        t.pkt.ptype = type ∧ t.pkt.dlc.val = codeOf (num s .flen) ∧ t.pkt.len.toNat = num s .flen ∧
        (∀ k, t.packetByte k = if k < num s .flen then s.fb k else s.packetByte k) ∧
        t.pkt.dir.number = num s .dir ∧ t.pkt.ts.toNat = num s .tsh * 2 ^ 32 + num s .tsl ∧
        t.reg .res = w32 type.number ∧ t.reg .rp = 0#32 ∧ Kept s t [.res, .rp] nowhere)

/-- R228: PKT_SETAI. -/
def Obligations.PktSetai : Prop :=
  ∀ (fmt : BitVec 3) (pm : BitVec 8) (s : State),
    Command (.pktSetai fmt pm) (cmdWord 0x55 false fmt pm) s
      ([(s.pkt.valid = false, .illegal), (s.pkt.isRecord = true, .illegal)] ++
       formatCheck fmt :: addressingRange pm s ++
       [(addrBytes fmt ≠ addrBytes s.pkt.fmt.number, .ambiguity)] ++ validateChecks s.offs fmt pm s)
      (fun t =>
        AddressingSet s.pkt t.pkt fmt (num s .aty) (normId s.offs fmt pm s) (byte (normTa fmt pm s)) (byte (normSa pm s))
          (byte (num s .ae)) ∧
        (addrBytes fmt = 1 → t.packetByte 0 = addressByte fmt s) ∧
        (∀ k, addrBytes fmt ≤ k → t.packetByte k = s.packetByte k) ∧
        t.pkt.valid = true ∧ t.pkt.isRecord = false ∧ t.pkt.ptype = s.pkt.ptype ∧ t.pkt.dlc = s.pkt.dlc ∧
        t.pkt.len = s.pkt.len ∧ t.pkt.dir = s.pkt.dir ∧ t.pkt.ts = s.pkt.ts ∧
        t.reg .id = w32 (normId s.offs fmt pm s) ∧ t.reg .rp = 0x01#32 ∧ Kept s t [.id, .rp] nowhere)

/-- R232: PKT_VIEW. Its First Frame arm reads the escape form of R172 (log entry 5). `n` bytes of `PKT.DATA` are viewed;
a view that the packet type does not have leaves its register alone. -/
def Obligations.PktView : Prop :=
  ∀ (s : State) (a n : Nat) (type : PacketType), a = addrBytes s.pkt.fmt.number → n = s.pkt.len.toNat →
    type = s.pkt.ptype →
    Command .pktView 0x56000000#32 s ((s.pkt.valid = false, .illegal) :: decChecks type s.packetByte a n)
      (fun t =>
        t.reg .id = s.pkt.id ∧ t.reg .aty = w32 s.pkt.aty.number ∧ t.reg .dlc = w32 s.pkt.dlc.val ∧
        t.reg .ta = (if s.pkt.tap then w32 s.pkt.ta.toNat else s.reg .ta) ∧
        t.reg .sa = (if s.pkt.sap then w32 s.pkt.sa.toNat else s.reg .sa) ∧
        t.reg .ae = (if s.pkt.aep then w32 s.pkt.ae.toNat else s.reg .ae) ∧
        (∀ k, k < n → t.fb k = s.packetByte k) ∧ t.reg .flen = w32 n ∧
        t.reg .dir = w32 s.pkt.dir.number ∧ t.reg .tsl = w32 (s.pkt.ts.toNat % 2 ^ 32) ∧
        t.reg .tsh = w32 (s.pkt.ts.toNat / 2 ^ 32) ∧
        (∀ j, j < viewBytes type s.packetByte a n → t.pb j = s.packetByte (viewStart type s.packetByte a n + j)) ∧
        t.reg .plen = (if type = .fc then s.reg .plen else w32 (viewBytes type s.packetByte a n)) ∧
        t.reg .dl = (if type = .sf then w32 (sfDecLength s.packetByte a n)
          else if type = .ff then w32 (ffDecLength s.packetByte a) else s.reg .dl) ∧
        t.reg .sn = (if type = .cf then w32 (lo (s.packetByte a)) else s.reg .sn) ∧
        t.reg .fs = (if type = .fc then w32 (lo (s.packetByte a)) else s.reg .fs) ∧
        t.reg .bs = (if type = .fc ∧ lo (s.packetByte a) = 0 then w32 (s.packetByte (a + 1)).toNat else s.reg .bs) ∧
        t.reg .st = (if type = .fc ∧ lo (s.packetByte a) = 0 then w32 (s.packetByte (a + 2)).toNat else s.reg .st) ∧
        t.reg .res = w32 (type.number + s.pkt.fmt.number.toNat * 2 ^ 4 + (if s.pkt.isRecord then 2 ^ 8 else 0) +
          s.pkt.dir.number * 2 ^ 9) ∧
        t.reg .rp = w32 (0x31 + (if s.pkt.tap then 0x02 else 0) + (if s.pkt.sap then 0x04 else 0) +
          (if s.pkt.aep then 0x08 else 0) +
          (match type with
            | .sf => 0x900 | .ff => 0x900 | .cf => 0xA00
            | .fc => if lo (s.packetByte a) = 0 then 0x4C0 else 0x400)) ∧
        t.pkt = s.pkt ∧
        Kept s t (mayWrite .pktView) (fun k => fbSpan 0 n k ∨ pbSpan (viewBytes type s.packetByte a n) k))

/-- R234, R240, R241, R242: PKT_CLEAR, NOP, SRESET and CLRSTK. -/
def Obligations.ClearingAndSystemCommands : Prop :=
  ∀ s : State,
    Command .pktClear 0x57000000#32 s [] (fun t =>
      t = { s with status := 0#32, pkt := { s.pkt with valid := false } }) ∧
    Command .nop 0x00000000#32 s [] (fun t => t = { s with status := 0#32 }) ∧
    Command .clrstk 0x02000000#32 s [] (fun t => t = { s with status := 0#32, esticky := 0#32, ecmd := 0#32 }) ∧
    Command .sreset 0x01000000#32 s [] (fun t =>
      (∀ r, t.reg r = 0#32) ∧ t.status = 0#32 ∧ t.esticky = 0#32 ∧ t.cfg = 0xCC#32 ∧ t.ecmd = 0#32 ∧
      t.pkt = { Packet.reset with data := s.pkt.data } ∧ packetStatus t.pkt = 0#32 ∧
      (∀ k, t.byteAt k = s.byteAt k) ∧ (∀ k, t.packetByte k = s.packetByte k) ∧
      t = { t with offs := s.offs, epoch := s.epoch, pending := s.pending, rdata := s.rdata })

/-- R217, which the spec derives from R216: each build command is equivalent to the sequence of leaf commands. -/
def Obligations.BuildEqualsLeafSequence : Prop :=
  ∀ (any : Bool) (fmt : BitVec 3) (pm : BitVec 8) (s : State),
    SameAsLeaves (.pktSf any fmt pm) (.sfEnc any fmt (pm &&& 0x20#8)) fmt pm s ∧
    SameAsLeaves (.pktFf any fmt pm) (.ffEnc any fmt (pm &&& 0x20#8)) fmt pm s ∧
    SameAsLeaves (.pktCf any fmt pm) (.cfEnc any fmt (pm &&& 0x20#8)) fmt pm s ∧
    SameAsLeaves (.pktFc any fmt pm) (.fcEnc any fmt (pm &&& 0xE0#8)) fmt pm s

/-- R41 and R232: a packet built in valid mode can always be viewed, and the view gives back what it was built from: the
frame, length and code, the identifier, the addressing type and the addresses of the format, and the type's own values;
a Consecutive Frame's payload comes back followed by filler. The First Frame part covers the escape form of R172, for an
FF_DL above 4095, and rests there on log entry 5. -/
def Obligations.ValidPacketsViewWhatTheyWereBuiltFrom : Prop :=
  ∀ (fmt : BitVec 3) (pm : BitVec 8) (s : State),
    BuiltThenViewed (.pktSf false fmt pm) s fmt pm .sf (fun _ u =>
      u.reg .dl = s.reg .plen ∧ u.reg .plen = s.reg .plen ∧ ∀ j, j < num s .plen → u.pb j = s.pb j) ∧
    BuiltThenViewed (.pktFf false fmt pm) s fmt pm .ff (fun _ u =>
      u.reg .dl = s.reg .dl ∧ u.reg .plen = s.reg .plen ∧ ∀ j, j < num s .plen → u.pb j = s.pb j) ∧
    BuiltThenViewed (.pktCf false fmt pm) s fmt pm .cf (fun t u =>
      u.reg .sn = s.reg .sn ∧ num u .plen = num t .flen - (addrBytes fmt + 1) ∧
      (∀ j, j < num s .plen → u.pb j = s.pb j) ∧ ∀ j, num s .plen ≤ j → j < num u .plen → u.pb j = filler s) ∧
    BuiltThenViewed (.pktFc false fmt pm) s fmt pm .fc (fun _ u =>
      u.reg .fs = s.reg .fs ∧ (num s .fs = 0 → u.reg .bs = s.reg .bs ∧ u.reg .st = s.reg .st))
end

