-- ==== Sys2Proof/Laws/Result.lean ====
section
/-! SUPPORT. Laws of the codecs' results (`Except Err`): how a chain of checks ends, and how a command concludes. -/

namespace Sys2Proof.Machine

@[simp] theorem ok_bind {α β : Type} (a : α) (f : α → Except Err β) : ((Except.ok a : Except Err α) >>= f) = f a := rfl
@[simp] theorem error_bind {α β : Type} (e : Err) (f : α → Except Err β) :
    ((Except.error e : Except Err α) >>= f) = .error e := rfl

/-- A chain ends `ok` when each of its parts does. -/
theorem bind_eq_ok {α β : Type} {x : Except Err α} {f : α → Except Err β} {b : β} :
    (x >>= f) = .ok b ↔ ∃ a, x = .ok a ∧ f a = .ok b := by
  cases x with
  | error e => simp
  | ok a => simp

/-- A chain ends with the first error. -/
theorem bind_eq_error {α β : Type} {x : Except Err α} {f : α → Except Err β} {e : Err} :
    (x >>= f) = .error e ↔ x = .error e ∨ ∃ a, x = .ok a ∧ f a = .error e := by
  cases x with
  | error e => simp
  | ok a => simp

@[simp] theorem raiseIf_eq_ok {c : Prop} [Decidable c] {e : Err} {u : Unit} : raiseIf c e = .ok u ↔ ¬c := by
  by_cases h : c <;> simp [raiseIf, h]

@[simp] theorem raiseIf_eq_error {c : Prop} [Decidable c] {e e' : Err} : raiseIf c e = .error e' ↔ c ∧ e = e' := by
  by_cases h : c <;> simp [raiseIf, h]

@[simp] theorem raiseIf_of {c : Prop} [Decidable c] (h : c) (e : Err) : raiseIf c e = .error e := by simp [raiseIf, h]
@[simp] theorem raiseIf_not {c : Prop} [Decidable c] (h : ¬c) (e : Err) : raiseIf c e = .ok () := by simp [raiseIf, h]

@[simp] theorem conclude_eq (w : Word) (s : State) (r : Except Err State) : conclude w s r = concludeWith w s false r := rfl
@[simp] theorem concludeWith_ok (w : Word) (s t : State) (warn : Bool) :
    concludeWith w s warn (.ok t) = .next (t.endOk warn) := rfl
@[simp] theorem concludeWith_error (w : Word) (s : State) (warn : Bool) (e : Err) :
    concludeWith w s warn (.error e) = .next (s.endError e w) := rfl

/-- Everything a conclusion can be. -/
theorem concludeWith_next {w : Word} {s t : State} {warn : Bool} {r : Except Err State}
    (h : concludeWith w s warn r = .next t) :
    (∃ u, r = .ok u ∧ t = u.endOk warn) ∨ (∃ e, r = .error e ∧ t = s.endError e w) := by
  cases r with
  | ok u => exact .inl ⟨u, rfl, by simpa using h.symm⟩
  | error e => exact .inr ⟨e, rfl, by simpa using h.symm⟩

end Sys2Proof.Machine
end

