-- ==== Sys2Proof/Laws/Memory.lean ====
section
/-! SUPPORT. Laws of byte memory: read after write, the canonical form, and the bytes of a written list. -/

namespace Sys2Proof.Machine

@[simp] theorem Memory.read_nil (a : Nat) : Memory.read [] a = none := rfl

/-- Read after write. -/
theorem Memory.read_write (m : Memory) (a k : Nat) (b : Byte) :
    (Memory.write m a b).read k = if k = a then some b else m.read k := by
  induction m with
  | nil =>
    by_cases h : k = a
    · subst h; simp [Memory.write, Memory.read]
    · simp [Memory.write, Memory.read, h, Ne.symm h]
  | cons c m ih =>
    obtain ⟨j, v⟩ := c
    simp only [Memory.write]
    by_cases h1 : a < j
    · by_cases h : k = a
      · subst h; simp [h1, Memory.read]
      · simp [h1, Memory.read, h, Ne.symm h]
    · by_cases h2 : a = j
      · subst h2
        by_cases h : k = a
        · subst h; simp [Memory.read]
        · simp [Memory.read, h, Ne.symm h]
      · by_cases h : j = k
        · subst h; simp [h1, h2, Memory.read, Ne.symm h2]
        · simp [h1, h2, Memory.read, h, ih]

/-- Read after writing a list of bytes. -/
theorem Memory.read_writeBytes (bs : List Byte) : ∀ (m : Memory) (a k : Nat),
    (m.writeBytes a bs).read k = if a ≤ k ∧ k < a + bs.length then some (bs.getD (k - a) 0#8) else m.read k := by
  induction bs with
  | nil =>
    intro m a k
    rw [if_neg (by simp)]
    rfl
  | cons b bs ih =>
    intro m a k
    simp only [Memory.writeBytes, ih, Memory.read_write, List.length_cons]
    rcases Nat.lt_trichotomy k a with h | h | h
    · rw [if_neg (by omega), if_neg (by omega), if_neg (by omega)]
    · subst h; simp
    · obtain ⟨d, rfl⟩ : ∃ d, k = a + 1 + d := ⟨k - (a + 1), by omega⟩
      have e1 : a + 1 + d - (a + 1) = d := by omega
      have e2 : a + 1 + d - a = d + 1 := by omega
      by_cases hd : d < bs.length
      · rw [if_pos (by omega), if_pos (by omega), e1, e2]; simp
      · rw [if_neg (by omega), if_neg (by omega), if_neg (by omega)]

/-- The addresses of a written memory are the old ones and the new one. -/
theorem Memory.mem_write {m : Memory} {a : Nat} {b : Byte} {c : Host.Cell} (h : c ∈ m.write a b) :
    c = (a, b) ∨ c ∈ m := by
  induction m with
  | nil => simpa [Memory.write] using h
  | cons d m ih =>
    obtain ⟨j, v⟩ := d
    simp only [Memory.write] at h
    split at h
    · simpa using h
    · split at h
      · rcases List.mem_cons.1 h with h | h
        · exact .inl h
        · exact .inr (List.mem_cons_of_mem _ h)
      · rcases List.mem_cons.1 h with h | h
        · exact .inr (h ▸ List.mem_cons_self)
        · rcases ih h with h | h
          · exact .inl h
          · exact .inr (List.mem_cons_of_mem _ h)

/-- Writing a byte keeps the canonical form. -/
theorem Memory.wf_write {m : Memory} (h : m.wf) (a : Nat) (b : Byte) : (m.write a b).wf := by
  induction m with
  | nil => simp [Memory.write, Memory.wf]
  | cons d m ih =>
    obtain ⟨j, v⟩ := d
    obtain ⟨hj, hm⟩ := List.pairwise_cons.1 h
    simp only [Memory.write]
    split
    · rename_i hlt
      refine List.pairwise_cons.2 ⟨fun c hc => ?_, h⟩
      rcases List.mem_cons.1 hc with rfl | hc
      · exact hlt
      · exact Nat.lt_trans hlt (hj c hc)
    · split
      · rename_i heq
        exact List.pairwise_cons.2 ⟨fun c hc => heq ▸ hj c hc, hm⟩
      · refine List.pairwise_cons.2 ⟨fun c hc => ?_, ih hm⟩
        rcases Memory.mem_write hc with rfl | hc
        · show j < a
          omega
        · exact hj c hc

/-- Writing a list of bytes keeps the canonical form. -/
theorem Memory.wf_writeBytes (bs : List Byte) : ∀ {m : Memory} (_ : m.wf) (a : Nat),
    (m.writeBytes a bs).wf := by
  induction bs with
  | nil => intro m h a; exact h
  | cons b bs ih => intro m h a; exact ih (Memory.wf_write h a b) (a + 1)

/-- Reset memory lists nothing, and is in the form. -/
theorem Memory.wf_reset : State.reset.mem.wf ∧ Packet.reset.data.wf := ⟨List.Pairwise.nil, List.Pairwise.nil⟩

/-- Writing a list of bytes keeps every address in a range that holds the written ones. -/
theorem Memory.range_writeBytes {P : Nat → Prop} (bs : List Byte) : ∀ {m : Memory} {a : Nat} (_ : ∀ c ∈ m, P c.1)
    (_ : ∀ k, a ≤ k → k < a + bs.length → P k), ∀ c ∈ m.writeBytes a bs, P c.1 := by
  induction bs with
  | nil => intro m a h _; exact h
  | cons b bs ih =>
    intro m a h hr
    refine ih (m := m.write a b) (a := a + 1) (fun c hc => ?_) (fun k h1 h2 => hr k (by omega) (by simp; omega))
    rcases Memory.mem_write hc with rfl | hc
    · exact hr a (Nat.le_refl _) (by simp)
    · exact h c hc

@[simp] theorem length_bytesFrom (f : Nat → Byte) : ∀ (a n : Nat), (bytesFrom f a n).length = n
  | _, 0 => rfl
  | a, n + 1 => by simp [bytesFrom, length_bytesFrom f (a + 1) n]

/-- Byte `i` of a slice. -/
theorem getElem?_bytesFrom (f : Nat → Byte) : ∀ (a n i : Nat),
    (bytesFrom f a n)[i]? = if i < n then some (f (a + i)) else none
  | _, 0, i => by simp [bytesFrom]
  | a, n + 1, 0 => by simp [bytesFrom]
  | a, n + 1, i + 1 => by
    simp only [bytesFrom, List.getElem?_cons_succ, getElem?_bytesFrom f (a + 1) n i, Nat.add_lt_add_iff_right]
    rw [show a + 1 + i = a + (i + 1) by omega]

/-- Byte `i` of a slice, below its length. -/
@[simp] theorem getElem_bytesFrom (f : Nat → Byte) (a n i : Nat) (h : i < (bytesFrom f a n).length) :
    (bytesFrom f a n)[i] = f (a + i) := by
  have hi : i < n := by simpa using h
  have := getElem?_bytesFrom f a n i
  rw [List.getElem?_eq_getElem h, if_pos hi] at this
  exact Option.some.inj this

/-- Byte `i` of a slice, with a default that is not reached. -/
theorem getD_bytesFrom (f : Nat → Byte) (a n i : Nat) (d : Byte) (h : i < n) : (bytesFrom f a n).getD i d = f (a + i) := by
  rw [List.getD_eq_getElem?_getD, getElem?_bytesFrom, if_pos h]
  rfl

/-- A slice is the list of its bytes. -/
theorem bytesFrom_eq_map (f : Nat → Byte) (a n : Nat) : bytesFrom f a n = (List.range n).map (fun i => f (a + i)) :=
  List.ext_getElem (by simp) (fun i _ _ => by simp)

/-- Slices of byte functions that agree on the slice are equal. -/
theorem bytesFrom_congr {f g : Nat → Byte} {a n : Nat} (h : ∀ i, i < n → f (a + i) = g (a + i)) :
    bytesFrom f a n = bytesFrom g a n :=
  List.ext_getElem (by simp) (fun i h1 _ => by
    have hi : i < n := by simpa using h1
    simpa using h i hi)

end Sys2Proof.Machine
end

