-- ==== Sys2Proof/Laws/State.lean ====
section
/-! SUPPORT. What each state update leaves in each field, so that no later proof unfolds a record update. -/

namespace Sys2Proof.Machine

theorem Reg.index_inj {r q : Reg} (h : r.index = q.index) : r = q := by
  cases r <;> cases q <;> first | rfl | exact absurd h (by decide)

/-! ## Registers -/

theorem State.reg_setReg (s : State) (r q : Reg) (v : Word) : (s.setReg r v).reg q = if q = r then v else s.reg q := by
  unfold State.reg State.setReg
  by_cases h : q = r
  · subst h; simp
  · have : r.index.val ≠ q.index.val := fun e => h (Reg.index_inj (Fin.ext e.symm))
    simp [h, this]

@[simp] theorem State.reg_setReg_self (s : State) (r : Reg) (v : Word) : (s.setReg r v).reg r = v := by
  simp [State.reg_setReg]
@[simp] theorem State.reg_setReg_ne (s : State) {r q : Reg} (h : q ≠ r) (v : Word) : (s.setReg r v).reg q = s.reg q := by
  simp [State.reg_setReg, h]

@[simp] theorem State.setReg_status (s : State) (r : Reg) (v : Word) : (s.setReg r v).status = s.status := rfl
@[simp] theorem State.setReg_esticky (s : State) (r : Reg) (v : Word) : (s.setReg r v).esticky = s.esticky := rfl
@[simp] theorem State.setReg_cfg (s : State) (r : Reg) (v : Word) : (s.setReg r v).cfg = s.cfg := rfl
@[simp] theorem State.setReg_ecmd (s : State) (r : Reg) (v : Word) : (s.setReg r v).ecmd = s.ecmd := rfl
@[simp] theorem State.setReg_mem (s : State) (r : Reg) (v : Word) : (s.setReg r v).mem = s.mem := rfl
@[simp] theorem State.setReg_pkt (s : State) (r : Reg) (v : Word) : (s.setReg r v).pkt = s.pkt := rfl
@[simp] theorem State.setReg_offs (s : State) (r : Reg) (v : Word) : (s.setReg r v).offs = s.offs := rfl
@[simp] theorem State.setReg_epoch (s : State) (r : Reg) (v : Word) : (s.setReg r v).epoch = s.epoch := rfl
@[simp] theorem State.setReg_pending (s : State) (r : Reg) (v : Word) : (s.setReg r v).pending = s.pending := rfl
@[simp] theorem State.setReg_rdata (s : State) (r : Reg) (v : Word) : (s.setReg r v).rdata = s.rdata := rfl

@[simp] theorem State.setRegNat_eq (s : State) (r : Reg) (n : Nat) : s.setRegNat r n = s.setReg r (BitVec.ofNat 32 n) := rfl
@[simp] theorem State.setRegByte_eq (s : State) (r : Reg) (b : Byte) : s.setRegByte r b = s.setReg r (b.setWidth 32) := rfl
@[simp] theorem State.setPresence_eq (s : State) (rs : List Reg) :
    s.setPresence rs = s.setReg .rp (presenceMask rs) := rfl
@[simp] theorem State.setTruth_eq (s : State) (b : Bool) :
    s.setTruth b = (s.setReg .res (BitVec.ofNat 32 (if b then 1 else 0))).setReg .rp (presenceMask []) := rfl
@[simp] theorem State.setRegByte?_some (s : State) (r : Reg) (b : Byte) :
    s.setRegByte? r (some b) = s.setReg r (b.setWidth 32) := rfl
@[simp] theorem State.setRegByte?_none (s : State) (r : Reg) : s.setRegByte? r none = s := rfl
@[simp] theorem State.setRegNat?_some (s : State) (r : Reg) (n : Nat) :
    s.setRegNat? r (some n) = s.setReg r (BitVec.ofNat 32 n) := rfl
@[simp] theorem State.setRegNat?_none (s : State) (r : Reg) : s.setRegNat? r none = s := rfl
@[simp] theorem State.setAddrType?_some (s : State) (a : AddrType) :
    s.setAddrType? (some a) = s.setReg .aty (BitVec.ofNat 32 a.number) := rfl
@[simp] theorem State.setAddrType?_none (s : State) : s.setAddrType? none = s := rfl
@[simp] theorem State.deliverPayload?_some (s : State) (pay : List Byte) :
    s.deliverPayload? (some pay) = s.deliverPayload pay := rfl
@[simp] theorem State.deliverPayload?_none (s : State) : s.deliverPayload? none = s := rfl
@[simp] theorem presentReg_some {α : Type} (r : Reg) (v : α) : presentReg r (some v) = [r] := rfl
@[simp] theorem presentReg_none {α : Type} (r : Reg) : presentReg r (none : Option α) = [] := rfl

@[simp] theorem State.setRegByte?_pkt (s : State) (r : Reg) (b? : Option Byte) : (s.setRegByte? r b?).pkt = s.pkt := by
  cases b? <;> rfl
@[simp] theorem State.setRegNat?_pkt (s : State) (r : Reg) (n? : Option Nat) : (s.setRegNat? r n?).pkt = s.pkt := by
  cases n? <;> rfl
@[simp] theorem State.setAddrType?_pkt (s : State) (a? : Option AddrType) : (s.setAddrType? a?).pkt = s.pkt := by
  cases a? <;> rfl
@[simp] theorem State.deliverPayload?_pkt (s : State) (p? : Option (List Byte)) : (s.deliverPayload? p?).pkt = s.pkt := by
  cases p? <;> rfl

/-! ## Buffers -/

@[simp] theorem State.storeBytes_x (s : State) (a : Nat) (bs : List Byte) : (s.storeBytes a bs).x = s.x := rfl
@[simp] theorem State.storeBytes_reg (s : State) (a : Nat) (bs : List Byte) (r : Reg) :
    (s.storeBytes a bs).reg r = s.reg r := rfl
@[simp] theorem State.storeBytes_status (s : State) (a : Nat) (bs : List Byte) : (s.storeBytes a bs).status = s.status := rfl
@[simp] theorem State.storeBytes_esticky (s : State) (a : Nat) (bs : List Byte) :
    (s.storeBytes a bs).esticky = s.esticky := rfl
@[simp] theorem State.storeBytes_cfg (s : State) (a : Nat) (bs : List Byte) : (s.storeBytes a bs).cfg = s.cfg := rfl
@[simp] theorem State.storeBytes_ecmd (s : State) (a : Nat) (bs : List Byte) : (s.storeBytes a bs).ecmd = s.ecmd := rfl
@[simp] theorem State.storeBytes_mem (s : State) (a : Nat) (bs : List Byte) :
    (s.storeBytes a bs).mem = s.mem.writeBytes a bs := rfl
@[simp] theorem State.storeBytes_pkt (s : State) (a : Nat) (bs : List Byte) : (s.storeBytes a bs).pkt = s.pkt := rfl
@[simp] theorem State.storeBytes_offs (s : State) (a : Nat) (bs : List Byte) : (s.storeBytes a bs).offs = s.offs := rfl
@[simp] theorem State.storeBytes_epoch (s : State) (a : Nat) (bs : List Byte) : (s.storeBytes a bs).epoch = s.epoch := rfl
@[simp] theorem State.storeBytes_pending (s : State) (a : Nat) (bs : List Byte) :
    (s.storeBytes a bs).pending = s.pending := rfl
@[simp] theorem State.storeBytes_rdata (s : State) (a : Nat) (bs : List Byte) : (s.storeBytes a bs).rdata = s.rdata := rfl

@[simp] theorem State.storeFb_eq (s : State) (i : Nat) (bs : List Byte) : s.storeFb i bs = s.storeBytes (fbBase + i) bs := rfl
@[simp] theorem State.storePb_eq (s : State) (i : Nat) (bs : List Byte) : s.storePb i bs = s.storeBytes (pbBase + i) bs := rfl

/-- A byte depends on memory and the reset number alone. -/
theorem State.byteAt_congr {s t : State} (hm : t.mem = s.mem) (he : t.epoch = s.epoch) (a : Nat) :
    t.byteAt a = s.byteAt a := by simp [State.byteAt, hm, he]

@[simp] theorem State.byteAt_setReg (s : State) (r : Reg) (v : Word) (a : Nat) : (s.setReg r v).byteAt a = s.byteAt a := rfl
@[simp] theorem State.fb_setReg (s : State) (r : Reg) (v : Word) (i : Nat) : (s.setReg r v).fb i = s.fb i := rfl
@[simp] theorem State.pb_setReg (s : State) (r : Reg) (v : Word) (i : Nat) : (s.setReg r v).pb i = s.pb i := rfl

/-- Read after a store of bytes. -/
theorem State.byteAt_storeBytes (s : State) (a : Nat) (bs : List Byte) (k : Nat) :
    (s.storeBytes a bs).byteAt k = if a ≤ k ∧ k < a + bs.length then bs.getD (k - a) 0#8 else s.byteAt k := by
  unfold State.byteAt
  simp only [State.storeBytes_mem, State.storeBytes_epoch, Memory.read_writeBytes]
  split <;> rfl

/-- A store leaves every other byte alone. -/
theorem State.byteAt_storeBytes_outside (s : State) (a : Nat) (bs : List Byte) {k : Nat}
    (h : ¬(a ≤ k ∧ k < a + bs.length)) : (s.storeBytes a bs).byteAt k = s.byteAt k := by
  rw [State.byteAt_storeBytes, if_neg h]

/-! ## The two ends of a command -/

@[simp] theorem State.endOk_x (s : State) (w : Bool) : (s.endOk w).x = s.x := rfl
@[simp] theorem State.endOk_reg (s : State) (w : Bool) (r : Reg) : (s.endOk w).reg r = s.reg r := rfl
@[simp] theorem State.endOk_status (s : State) (w : Bool) : (s.endOk w).status = statusWord 0 w := rfl
@[simp] theorem State.endOk_esticky (s : State) (w : Bool) : (s.endOk w).esticky = stickyWarn s.esticky w := rfl
@[simp] theorem State.endOk_cfg (s : State) (w : Bool) : (s.endOk w).cfg = s.cfg := rfl
@[simp] theorem State.endOk_ecmd (s : State) (w : Bool) : (s.endOk w).ecmd = s.ecmd := rfl
@[simp] theorem State.endOk_mem (s : State) (w : Bool) : (s.endOk w).mem = s.mem := rfl
@[simp] theorem State.endOk_pkt (s : State) (w : Bool) : (s.endOk w).pkt = s.pkt := rfl
@[simp] theorem State.endOk_offs (s : State) (w : Bool) : (s.endOk w).offs = s.offs := rfl
@[simp] theorem State.endOk_epoch (s : State) (w : Bool) : (s.endOk w).epoch = s.epoch := rfl
@[simp] theorem State.endOk_pending (s : State) (w : Bool) : (s.endOk w).pending = s.pending := rfl
@[simp] theorem State.endOk_rdata (s : State) (w : Bool) : (s.endOk w).rdata = s.rdata := rfl
@[simp] theorem State.endOk_byteAt (s : State) (w : Bool) (a : Nat) : (s.endOk w).byteAt a = s.byteAt a := rfl
@[simp] theorem State.endOk_fb (s : State) (w : Bool) (i : Nat) : (s.endOk w).fb i = s.fb i := rfl
@[simp] theorem State.endOk_pb (s : State) (w : Bool) (i : Nat) : (s.endOk w).pb i = s.pb i := rfl
@[simp] theorem State.endOk_packetByte (s : State) (w : Bool) (i : Nat) : (s.endOk w).packetByte i = s.packetByte i := rfl

@[simp] theorem State.endError_x (s : State) (e : Err) (w : Word) : (s.endError e w).x = s.x := rfl
@[simp] theorem State.endError_reg (s : State) (e : Err) (w : Word) (r : Reg) : (s.endError e w).reg r = s.reg r := rfl
@[simp] theorem State.endError_status (s : State) (e : Err) (w : Word) :
    (s.endError e w).status = statusWord e.code false := rfl
@[simp] theorem State.endError_esticky (s : State) (e : Err) (w : Word) :
    (s.endError e w).esticky = stickyErr s.esticky e := rfl
@[simp] theorem State.endError_cfg (s : State) (e : Err) (w : Word) : (s.endError e w).cfg = s.cfg := rfl
@[simp] theorem State.endError_ecmd (s : State) (e : Err) (w : Word) : (s.endError e w).ecmd = w := rfl
@[simp] theorem State.endError_mem (s : State) (e : Err) (w : Word) : (s.endError e w).mem = s.mem := rfl
@[simp] theorem State.endError_pkt (s : State) (e : Err) (w : Word) : (s.endError e w).pkt = s.pkt := rfl
@[simp] theorem State.endError_offs (s : State) (e : Err) (w : Word) : (s.endError e w).offs = s.offs := rfl
@[simp] theorem State.endError_epoch (s : State) (e : Err) (w : Word) : (s.endError e w).epoch = s.epoch := rfl
@[simp] theorem State.endError_pending (s : State) (e : Err) (w : Word) : (s.endError e w).pending = s.pending := rfl
@[simp] theorem State.endError_rdata (s : State) (e : Err) (w : Word) : (s.endError e w).rdata = s.rdata := rfl

/-! ## Status words -/

@[simp] theorem statusWord_ok : statusWord 0 false = 0#32 := rfl
@[simp] theorem statusWord_warn : statusWord 0 true = 0x10#32 := rfl
theorem statusWord_error (e : Err) : statusWord e.code false = BitVec.ofNat 32 e.code := by cases e <;> rfl
@[simp] theorem stickyWarn_false (w : Word) : stickyWarn w false = w := by simp [stickyWarn]
@[simp] theorem stickyWarn_true (w : Word) : stickyWarn w true = w ||| 0x100#32 := by simp [stickyWarn]

theorem statusWord_err_ok (w : Bool) : ((statusWord 0 w).extractLsb' 0 4).toNat = 0 := by cases w <;> decide
theorem statusWord_err_error (e : Err) : ((statusWord e.code false).extractLsb' 0 4).toNat = e.code := by
  cases e <;> decide
theorem statusWord_warn_ok (w : Bool) : (statusWord 0 w).getLsbD 4 = w := by cases w <;> decide
theorem statusWord_warn_error (e : Err) : (statusWord e.code false).getLsbD 4 = false := by cases e <;> decide

/-- `STATUS.ERR` after each end. -/
@[simp] theorem State.endOk_err (s : State) (w : Bool) : (s.endOk w).err = 0 := statusWord_err_ok w
@[simp] theorem State.endError_err (s : State) (e : Err) (w : Word) : (s.endError e w).err = e.code :=
  statusWord_err_error e
/-- `STATUS.WARN` after each end. -/
@[simp] theorem State.endOk_warn (s : State) (w : Bool) : (s.endOk w).warn = w := statusWord_warn_ok w
@[simp] theorem State.endError_warn (s : State) (e : Err) (w : Word) : (s.endError e w).warn = false :=
  statusWord_warn_error e

end Sys2Proof.Machine
end

