-- ==== Sys2Proof/Laws/Yields.lean ====
section
/-! SUPPORT. How a chain of checks (`Except Err`) relates to the list of checks of the spec's pseudocode: `Yields`, its
composition along `do` blocks, and the range check of every operand form. -/

namespace Sys2Proof.Laws

open Sys2Proof.Machine Sys2Proof.Claims

variable {α β : Type}

/-- The result `r` makes the checks of `cs` in order; with all of them passed it is a value that `P` describes. -/
def Yields (r : Except Err α) (cs : List Check) (P : α → Prop) : Prop :=
  FirstFailing (fun e => r = .error e) (∃ v, r = .ok v ∧ P v) cs

theorem firstFailing_mono {f g : Err → Prop} {p q : Prop} (hf : ∀ e, f e → g e) (hp : p → q) :
    ∀ {cs : List Check}, FirstFailing f p cs → FirstFailing g q cs
  | [], h => hp h
  | _ :: _, h => ⟨fun hc => hf _ (h.1 hc), fun hc => firstFailing_mono hf hp (h.2 hc)⟩

theorem Yields.mono {r : Except Err α} {cs : List Check} {P Q : α → Prop} (h : Yields r cs P) (hq : ∀ v, P v → Q v) :
    Yields r cs Q :=
  firstFailing_mono (fun _ h => h) (fun ⟨v, hv, hp⟩ => ⟨v, hv, hq v hp⟩) h

theorem yields_ok {v : α} {P : α → Prop} (h : P v) : Yields (.ok v) [] P := ⟨v, rfl, h⟩

/-- Checks along a `do` block follow one another. -/
theorem Yields.bind {x : Except Err α} {f : α → Except Err β} {cs ds : List Check} {P : α → Prop} {Q : β → Prop}
    (hx : Yields x cs P) (hf : ∀ a, P a → Yields (f a) ds Q) : Yields (x >>= f) (cs ++ ds) Q := by
  induction cs with
  | nil =>
    obtain ⟨v, rfl, hv⟩ := hx
    exact hf v hv
  | cons c cs ih =>
    refine ⟨fun hc => ?_, fun hc => ih (hx.2 hc)⟩
    have he : x = .error c.2 := hx.1 hc
    rw [he]
    rfl

/-- A last part of a `do` block that checks nothing more. -/
theorem Yields.last {x : Except Err α} {f : α → Except Err β} {cs : List Check} {P : α → Prop} {Q : β → Prop}
    (hx : Yields x cs P) (hf : ∀ a, P a → Yields (f a) [] Q) : Yields (x >>= f) cs Q :=
  List.append_nil cs ▸ hx.bind hf

/-- A check that cannot fail here may stand in the list. -/
theorem Yields.skip {r : Except Err α} {cs : List Check} {P : α → Prop} {c : Prop} (e : Err) (hc : ¬c)
    (h : Yields r cs P) : Yields r ((c, e) :: cs) P := ⟨fun h' => absurd h' hc, fun _ => h⟩

/-- A check that fails here ends the list. -/
theorem yields_error {e : Err} {cs : List Check} {P : α → Prop} {c : Prop} (hc : c) :
    Yields (.error e : Except Err α) ((c, e) :: cs) P := ⟨fun _ => rfl, fun h => absurd hc h⟩

/-- A check whose condition is written in another way. -/
theorem Yields.check {r : Except Err α} {cs : List Check} {P : α → Prop} {c d : Prop} {e : Err} (hcd : c ↔ d)
    (h : Yields r ((c, e) :: cs) P) : Yields r ((d, e) :: cs) P := ⟨fun h' => h.1 (hcd.2 h'), fun h' => h.2 (mt hcd.1 h')⟩

theorem yields_raiseIf {c d : Prop} [Decidable c] (e : Err) (h : c ↔ d) :
    Yields (raiseIf c e) [(d, e)] (fun _ => ¬d) := by
  by_cases hc : c
  · exact ⟨fun _ => by simp [hc], fun hd => absurd (h.1 hc) hd⟩
  · exact ⟨fun hd => absurd (h.2 hd) hc, fun hd => ⟨(), by simp [hc], hd⟩⟩

/-- A value or an error, by one condition. -/
theorem yields_if {d c : Prop} [Decidable d] {v : α} {e : Err} {P : α → Prop} (h : d ↔ ¬c) (hp : d → P v) :
    Yields (if d then .ok v else .error e) [(c, e)] P := by
  by_cases hd : d
  · exact ⟨fun hc => absurd hc (h.1 hd), fun _ => ⟨v, by simp [hd], hp hd⟩⟩
  · exact ⟨fun _ => by simp [hd], fun hc => absurd (h.2 hc) hd⟩

/-- What a chain that ends `ok` has passed. -/
theorem Yields.passed {r : Except Err α} {v : α} {cs : List Check} {P : α → Prop} (h : Yields r cs P) (hr : r = .ok v) :
    P v ∧ ∀ c ∈ cs, ¬c.1 := by
  subst hr
  induction cs with
  | nil =>
    obtain ⟨w, hw, hp⟩ := h
    cases hw
    exact ⟨hp, by simp⟩
  | cons c cs ih =>
    have hc : ¬c.1 := fun hc => by cases h.1 hc
    obtain ⟨hv, hcs⟩ := ih (h.2 hc)
    exact ⟨hv, fun d hd => by rcases List.mem_cons.1 hd with rfl | hd; exact hc; exact hcs d hd⟩

/-- A value comes only with every check passed. -/
theorem Yields.withPassed {r : Except Err α} {cs : List Check} {P : α → Prop} (h : Yields r cs P) :
    Yields r cs (fun v => P v ∧ ∀ c ∈ cs, ¬c.1) := by
  induction cs with
  | nil => exact h.mono fun v hv => ⟨hv, by simp⟩
  | cons c cs ih =>
    refine ⟨h.1, fun hc => (show Yields r cs _ from ih (h.2 hc)).mono fun v hv => ⟨hv.1, fun d hd => ?_⟩⟩
    rcases List.mem_cons.1 hd with rfl | hd
    · exact hc
    · exact hv.2 d hd

/-- The value itself. -/
theorem Yields.value {r : Except Err α} {cs : List Check} {P : α → Prop} (h : Yields r cs P) :
    Yields r cs (fun v => P v ∧ r = .ok v) :=
  firstFailing_mono (fun _ h => h) (fun ⟨v, hv, hp⟩ => ⟨v, hv, hp, hv⟩) h

/-- What a chain does when every check passes. -/
theorem Yields.all {r : Except Err α} {cs : List Check} {P : α → Prop} (h : Yields r cs P) (hc : ∀ c ∈ cs, ¬c.1) :
    ∃ v, r = .ok v ∧ P v := by
  induction cs with
  | nil => exact h
  | cons c cs ih => exact ih (h.2 (hc c (by simp))) (fun d hd => hc d (List.mem_cons_of_mem _ hd))

/-- The error of a chain that fails is that of one of its checks. -/
theorem Yields.failed {r : Except Err α} {e : Err} {cs : List Check} {P : α → Prop} (h : Yields r cs P)
    (hr : r = .error e) : ∃ c ∈ cs, c.1 ∧ c.2 = e := by
  subst hr
  induction cs with
  | nil => obtain ⟨w, hw, _⟩ := h; cases hw
  | cons c cs ih =>
    by_cases hc : c.1
    · have := h.1 hc
      exact ⟨c, by simp, hc, (Except.error.inj this).symm⟩
    · obtain ⟨d, hd, hd'⟩ := ih (h.2 hc)
      exact ⟨d, List.mem_cons_of_mem _ hd, hd'⟩

/-! ## Commands -/

theorem endError_eq (s : State) (e : Err) (w : Word) :
    s.endError e w = { s with status := w32 e.code, esticky := s.esticky ||| w32 (2 ^ e.code), ecmd := w } := by
  cases e <;> rfl

/-- A command whose checks and effect are those of a chain. -/
theorem command_of_yields {i : Instr} {w : Word} {s : State} {cs : List Check} {good : State → Prop}
    {r : Except Err State} (he : exec i s = conclude (encode i) s r) (hw : encode i = w)
    (h : Yields r cs (fun u => good (u.endOk false))) : Command i w s cs good := by
  refine ⟨hw, firstFailing_mono (fun e hr => ?_) (fun ⟨u, hu, hg⟩ => ⟨_, ?_, hg⟩) h⟩
  · rw [FailsWith, he, hr, hw, ← endError_eq]; rfl
  · rw [he, hu]; rfl

/-! ## Numbers of the enumerations -/

theorem Format.number_inj {f g : Format} (h : f.number = g.number) : f = g := by
  cases f <;> cases g <;> first | rfl | exact absurd h (by decide)

@[simp] theorem formatOf_number (f : Format) : formatOf f.number = some f := by cases f <;> rfl
theorem AddrType.number_inj {a b : AddrType} (h : a.number = b.number) : a = b := by
  cases a <;> cases b <;> first | rfl | exact absurd h (by decide)
@[simp] theorem addrTypeOf_number (a : AddrType) : addrTypeOf a.number = some a := by cases a <;> rfl

theorem aiBytes_eq (f : Format) : aiBytes f = addrBytes f.number := by cases f <;> rfl

/-! ## Operands -/

theorem yields_format (fmt : BitVec 3) : Yields (formatOperand fmt) [formatCheck fmt] (fun f => f.number = fmt) := by
  have h : ∀ n : Fin 8, (4 < (BitVec.ofFin n : BitVec 3).toNat ∧ formatOperand (BitVec.ofFin n) = .error .invalidValue) ∨
      (¬4 < (BitVec.ofFin n : BitVec 3).toNat ∧ ∃ f, formatOperand (BitVec.ofFin n) = .ok f ∧ f.number = BitVec.ofFin n) := by
    intro n
    fin_cases n
    · exact .inr ⟨by decide, .n11, rfl, rfl⟩
    · exact .inr ⟨by decide, .nf, rfl, rfl⟩
    · exact .inr ⟨by decide, .ext, rfl, rfl⟩
    · exact .inr ⟨by decide, .m11, rfl, rfl⟩
    · exact .inr ⟨by decide, .m29, rfl, rfl⟩
    · exact .inl ⟨by decide, rfl⟩
    · exact .inl ⟨by decide, rfl⟩
    · exact .inl ⟨by decide, rfl⟩
  rcases h fmt.toFin with ⟨hc, he⟩ | ⟨hc, f, hf, hn⟩
  · exact ⟨fun _ => he, fun h => absurd hc h⟩
  · exact ⟨fun h => absurd h hc, fun _ => ⟨f, hf, hn⟩⟩

theorem yields_id (v : Word) :
    Yields (idOperand v) [(0x1FFFFFFF < v.toNat, .invalidValue)] (fun u => u = v ∧ v.toNat ≤ 0x1FFFFFFF) :=
  yields_if (by omega) (fun h => ⟨rfl, h⟩)

theorem yields_byte (v : Word) : Yields (byteOperand v) [(0xFF < v.toNat, .invalidValue)] (fun b => b.toNat = v.toNat) :=
  yields_if (by omega) (fun h => by rw [BitVec.toNat_setWidth]; omega)

theorem yields_nibble (v : Word) : Yields (nibbleOperand v) [(15 < v.toNat, .invalidValue)] (fun b => b.toNat = v.toNat) :=
  yields_if (by omega) (fun h => by rw [BitVec.toNat_setWidth]; omega)

theorem yields_code (v : Word) : Yields (codeOperand v) [(15 < v.toNat, .invalidValue)] (fun c => c.val = v.toNat) := by
  unfold codeOperand
  by_cases h : v.toNat < 16
  · exact ⟨fun hc => absurd hc (by omega), fun _ => ⟨⟨v.toNat, h⟩, by simp [h], rfl⟩⟩
  · exact ⟨fun _ => by simp [h], fun hc => absurd h (by omega)⟩

theorem yields_length (v : Word) :
    Yields (lengthOperand v) [(64 < v.toNat, .invalidValue)] (fun n => n = v.toNat ∧ n ≤ 64) :=
  yields_if (by omega) (fun h => ⟨rfl, h⟩)

theorem yields_addrType (v : Word) :
    Yields (addrTypeOperand v) [(1 < v.toNat, .invalidValue)] (fun a => a.number = v.toNat) := by
  unfold addrTypeOperand
  generalize v.toNat = n
  match n with
  | 0 => exact ⟨fun h => absurd h (by decide), fun _ => ⟨.phys, rfl, rfl⟩⟩
  | 1 => exact ⟨fun h => absurd h (by decide), fun _ => ⟨.func, rfl, rfl⟩⟩
  | n + 2 => exact ⟨fun _ => rfl, fun h => absurd (by omega) h⟩

theorem yields_direction (v : Word) :
    Yields (directionOperand v) [(1 < v.toNat, .invalidValue)] (fun d => d.number = v.toNat) := by
  unfold directionOperand
  generalize v.toNat = n
  match n with
  | 0 => exact ⟨fun h => absurd h (by decide), fun _ => ⟨.tx, rfl, rfl⟩⟩
  | 1 => exact ⟨fun h => absurd h (by decide), fun _ => ⟨.rx, rfl, rfl⟩⟩
  | n + 2 => exact ⟨fun _ => rfl, fun h => absurd (by omega) h⟩

/-- An optional value that is present exactly when `given`, and then as `P` says. -/
structure OptIs (given : Prop) (P : α → Prop) (o : Option α) : Prop where
  some : given → ∃ v, o = some v ∧ P v
  none : ¬given → o = none

theorem optIs_none {α : Type} {given : Prop} {P : α → Prop} (h : ¬given) : OptIs given P none :=
  ⟨fun h' => absurd h' h, fun _ => rfl⟩
theorem optIs_some {α : Type} {given : Prop} {P : α → Prop} {v : α} (h : given) (hv : P v) : OptIs given P (some v) :=
  ⟨fun _ => ⟨v, rfl, hv⟩, fun h' => absurd h h'⟩

theorem yields_optional {pm : BitVec 8} {r : Reg} {rd : Except Err α} {c : Prop} {e : Err} {P : α → Prop}
    (h : Yields rd [(c, e)] P) :
    Yields (optionalOperand pm r rd) [(Given pm r.index.val ∧ c, e)] (OptIs (Given pm r.index.val) P) := by
  unfold optionalOperand supplied
  by_cases hs : pm.getLsbD r.index.val = true
  · refine ⟨fun hc => ?_, fun hc => ?_⟩
    · have : rd = .error e := h.1 hc.2
      simp [hs, this]
    · obtain ⟨v, hv, hp⟩ := h.2 (fun h' => hc ⟨hs, h'⟩)
      exact ⟨some v, by simp [hs, hv], ⟨fun _ => ⟨v, rfl, hp⟩, fun h' => absurd hs h'⟩⟩
  · refine ⟨fun hc => absurd hc.1 hs, fun _ => ⟨none, by simp [hs], ⟨fun h' => absurd h' hs, fun _ => rfl⟩⟩⟩

theorem OptIs.isSome_iff {given : Prop} {P : α → Prop} {o : Option α} (h : OptIs given P o) : o.isSome = true ↔ given := by
  by_cases hg : given
  · obtain ⟨v, rfl, _⟩ := h.some hg; simp [hg]
  · simp [h.none hg, hg]

theorem OptIs.isNone_iff {given : Prop} {P : α → Prop} {o : Option α} (h : OptIs given P o) : o.isNone = true ↔ ¬given := by
  by_cases hg : given
  · obtain ⟨v, rfl, _⟩ := h.some hg; simp [hg]
  · simp [h.none hg, hg]

/-- The addressing operands of a command, as numbers (42_addressing.md R148). -/
structure AddressingIs (fmt : BitVec 3) (pm : BitVec 8) (s : State) (v : Addressing) : Prop where
  fmt : v.fmt.number = fmt
  aty : v.aty.number = num s .aty
  id  : OptIs (Given pm 0) (fun u => u = s.reg .id ∧ (s.reg .id).toNat ≤ 0x1FFFFFFF) v.id?
  ta  : OptIs (Given pm 1) (fun b => b.toNat = num s .ta) v.ta?
  sa  : OptIs (Given pm 2) (fun b => b.toNat = num s .sa) v.sa?
  ae  : OptIs (Given pm 3) (fun b => b.toNat = num s .ae) v.ae?

theorem yields_addressing (fmt : BitVec 3) (pm : BitVec 8) (s : State) :
    Yields (addressingOperands fmt pm s) (formatCheck fmt :: addressingRange pm s) (AddressingIs fmt pm s) := by
  refine (yields_format fmt).bind fun f hf => ?_
  refine (yields_optional (yields_id (s.reg .id))).bind fun id? hid => ?_
  refine (yields_optional (yields_byte (s.reg .ta))).bind fun ta? hta => ?_
  refine (yields_optional (yields_byte (s.reg .sa))).bind fun sa? hsa => ?_
  refine (yields_optional (yields_byte (s.reg .ae))).bind fun ae? hae => ?_
  refine ((yields_addrType (s.reg .aty)).bind fun a ha => yields_ok (?_ : AddressingIs fmt pm s ⟨f, a, id?, ta?, sa?, ae?⟩) :
    Yields _ ([_] ++ []) _)
  exact ⟨hf, ha, hid, hta, hsa, hae⟩

end Sys2Proof.Laws
end

