-- ==== Sys2Proof/Laws/Identifiers.lean ====
section
/-! SUPPORT. What each function of the identifier and addressing codecs does (40_identifier.md, 42_addressing.md), in the
numbers of the claims: one lemma per function. -/

namespace Sys2Proof.Laws

open Sys2Proof.Machine Sys2Proof.Claims

/-! ## Identifiers -/

theorem isStandard_iff (id : Word) : isStandard id = true ↔ id.toNat ≤ 0x7FF := by simp [isStandard]
theorem isExtended_iff (id : Word) : isExtended id = true ↔ 0x800 ≤ id.toNat ∧ id.toNat ≤ 0x1FFFFFFF := by
  simp [isExtended]

theorem structured_number (f : Windowed) : structured f.format.number = true := by cases f <;> rfl

/-- The window offset, by numbers. -/
theorem windowOffset_eq (o : Offsets) (f : Windowed) (a : AddrType) :
    (windowOffset o f a).toNat = offset o f.format.number a.number := by cases f <;> cases a <;> rfl

theorem inWindow_iff (o : Offsets) (id : Word) (f : Windowed) (a : AddrType) :
    inWindow o id f a = true ↔ InWindow o f.format.number a.number id.toNat := by
  simp [inWindow, windowOffset_eq, InWindow]

theorem idTarget_toNat (id : Word) : (idTarget id).toNat = id.toNat / 256 % 256 := by
  simp [idTarget, BitVec.extractLsb'_toNat, Nat.shiftRight_eq_div_pow]
theorem idSource_toNat (id : Word) : (idSource id).toNat = id.toNat % 256 := by
  simp [idSource, BitVec.extractLsb'_toNat]

theorem byte_eq {b : Byte} {n : Nat} (h : b.toNat = n) : b = byte n := by
  subst h; simp [byte]
theorem byte_setWidth {b : Byte} {n : Nat} (h : b.toNat = n) : b.setWidth 32 = w32 n := by
  subst h
  apply BitVec.eq_of_toNat_eq
  simp only [w32, BitVec.toNat_setWidth, BitVec.toNat_ofNat]

/-- What `id_decode` finds (R105). -/
structure IdIs (o : Offsets) (fmt : BitVec 3) (id : Word) (r : IdFields) : Prop where
  aty : r.aty.number = idType o fmt id.toNat
  ta  : r.ta.toNat = id.toNat / 256 % 256
  sa  : r.sa.toNat = id.toNat % 256

theorem yields_idDecode (o : Offsets) (f : Windowed) (id : Word) :
    Yields (idDecode o f id) (idChecks o f.format.number id.toNat) (IdIs o f.format.number id) := by
  have h0 := inWindow_iff o id f .phys
  have h1 := inWindow_iff o id f .func
  simp only [AddrType.number] at h0 h1
  unfold idDecode idChecks
  by_cases he : isExtended id = true
  · have he' := (isExtended_iff id).1 he
    refine Yields.skip _ (by omega) ?_
    rw [if_neg (by simp [he])]
    by_cases hp : inWindow o id f .phys = true
    · refine Yields.skip _ (fun h => h.1 (h0.1 hp)) ?_
      rw [if_pos hp]
      exact yields_ok ⟨by rw [idType, if_pos (h0.1 hp)]; rfl, idTarget_toNat id, idSource_toNat id⟩
    · rw [if_neg hp]
      by_cases hf : inWindow o id f .func = true
      · refine Yields.skip _ (fun h => h.2 (h1.1 hf)) ?_
        rw [if_pos hf]
        exact yields_ok ⟨by rw [idType, if_neg (mt h0.2 hp)]; rfl, idTarget_toNat id, idSource_toNat id⟩
      · rw [if_neg hf]
        exact yields_error ⟨mt h0.2 hp, mt h1.2 hf⟩
  · rw [if_pos (by simpa using he)]
    have := mt (isExtended_iff id).2 he
    exact yields_error (by omega)

/-- The formats of ID_ENCODE and ID_DECODE (R113, R114). -/
theorem yields_windowed (f : Format) :
    Yields (windowedOperand f) [(structured f.number = false, .inconsistent)] (fun g => g.format = f) := by
  cases f
  · exact yields_error rfl
  · exact Yields.skip _ (by decide) (yields_ok rfl)
  · exact yields_error rfl
  · exact yields_error rfl
  · exact Yields.skip _ (by decide) (yields_ok rfl)

/-- A window of legal offsets lies in the 29-bit range (00_scope.md R6). -/
theorem offset_ok {o : Offsets} (h : o.Ok) (fmt : BitVec 3) (aty : Nat) :
    offset o fmt aty % 0x10000 = 0 ∧ 0x800 ≤ offset o fmt aty ∧ offset o fmt aty + 0xFFFF ≤ 0x1FFFFFFF := by
  obtain ⟨h1, h2, h3, h4, _, _⟩ := h
  unfold offset
  split <;> split <;> assumption

/-- The two windows of one format are disjoint (R6). -/
theorem windows_disjoint {o : Offsets} (h : o.Ok) {fmt : BitVec 3} {id : Nat} (h0 : InWindow o fmt 0 id) :
    ¬InWindow o fmt 1 id := by
  have hn : offset o fmt 0 ≠ offset o fmt 1 := by
    obtain ⟨_, _, _, _, h5, h6⟩ := h
    unfold offset
    split
    · exact fun e => h5 (BitVec.eq_of_toNat_eq e)
    · exact fun e => h6 (BitVec.eq_of_toNat_eq e)
  have ha := offset_ok h fmt 0
  have hb := offset_ok h fmt 1
  intro h1
  obtain ⟨p1, p2⟩ := h0
  obtain ⟨q1, q2⟩ := h1
  omega

/-- An identifier of one window is found in it. -/
theorem idType_of {o : Offsets} (h : o.Ok) {fmt : BitVec 3} {a : AddrType} {id : Nat} (hw : InWindow o fmt a.number id) :
    idType o fmt id = a.number := by
  cases a with
  | phys => exact if_pos hw
  | func => exact if_neg fun h0 => windows_disjoint h h0 hw

theorem idEncode_eq (o : Offsets) (f : Windowed) (a : AddrType) (ta sa : Byte) :
    idEncode o f a ta sa = w32 (offset o f.format.number a.number + ta.toNat * 256 + sa.toNat) := by
  simp [idEncode, windowOffset_eq, w32, Nat.shiftLeft_eq]

theorem idEncode_toNat {o : Offsets} (h : o.Ok) (f : Windowed) (a : AddrType) (ta sa : Byte) :
    (idEncode o f a ta sa).toNat = offset o f.format.number a.number + ta.toNat * 256 + sa.toNat := by
  have := offset_ok h f.format.number a.number
  have := ta.isLt
  have := sa.isLt
  rw [idEncode_eq, w32, BitVec.toNat_ofNat, Nat.mod_eq_of_lt (by omega)]

/-- An encoded identifier decodes to what it was made of (R107). -/
theorem idDecode_idEncode {o : Offsets} (h : o.Ok) (f : Windowed) (a : AddrType) (ta sa : Byte) :
    idDecode o f (idEncode o f a ta sa) = .ok ⟨a, ta, sa⟩ := by
  have hn := idEncode_toNat h f a ta sa
  have ho := offset_ok h f.format.number a.number
  have := ta.isLt
  have := sa.isLt
  have hw : InWindow o f.format.number a.number (idEncode o f a ta sa).toNat := by rw [hn]; constructor <;> omega
  obtain ⟨r, hr, hi⟩ := (yields_idDecode o f (idEncode o f a ta sa)).all (by
    intro c hc
    simp only [idChecks, List.mem_cons, List.not_mem_nil, or_false] at hc
    rcases hc with rfl | rfl
    · show ¬(_ ∨ _)
      omega
    · show ¬(_ ∧ _)
      cases a with
      | phys => exact fun hx => hx.1 hw
      | func => exact fun hx => hx.2 hw)
  rw [hr]
  obtain ⟨ra, rt, rs⟩ := r
  obtain ⟨i1, i2, i3⟩ := hi
  have e1 : ra = a := AddrType.number_inj (i1.trans (idType_of h hw))
  have e2 : rt = ta := BitVec.eq_of_toNat_eq (by simp only [] at i2; rw [i2, hn]; omega)
  have e3 : rs = sa := BitVec.eq_of_toNat_eq (by simp only [] at i3; rw [i3, hn]; omega)
  rw [e1, e2, e3]

/-! ## Addressing information -/

theorem hasTarget_of_structured {fmt : BitVec 3} (h : structured fmt = true) : hasTarget fmt = true := by
  simp only [structured, hasTarget, decide_eq_true_eq] at *; omega

/-- What `ai_decode` recovers from an identifier and a data field (R135). -/
structure RecoveredIs (o : Offsets) (fmt : BitVec 3) (id : Word) (data : List Byte) (r : AiFields) : Prop where
  aty : OptIs (structured fmt = true) (fun a => a.number = idType o fmt id.toNat) r.aty?
  ta  : OptIs (hasTarget fmt = true)
          (fun b => b.toNat = if fmt.toNat = 2 then (data.getD 0 0#8).toNat else id.toNat / 256 % 256) r.ta?
  sa  : OptIs (structured fmt = true) (fun b => b.toNat = id.toNat % 256) r.sa?
  ae  : OptIs (hasExtension fmt = true) (fun b => b = data.getD 0 0#8) r.ae?

theorem yields_firstByte (data : List Byte) :
    Yields (firstByte data) [(data.length < 1, .inconsistent)] (fun b => b = data.getD 0 0#8) := by
  cases data with
  | nil => exact yields_error (by simp)
  | cons b bs => exact Yields.skip _ (by simp) (yields_ok (by simp))

theorem yields_aiDecode (o : Offsets) (f : Format) (id : Word) (data : List Byte) :
    Yields (aiDecode o f id data) (aiDecodeChecks o f.number id.toNat data.length)
      (RecoveredIs o f.number id data) := by
  have hs : isStandard id = false ↔ 0x7FF < id.toNat := by
    rw [← Bool.not_eq_true, isStandard_iff]; omega
  cases f with
  | n11 =>
    refine (yields_raiseIf .inconsistent hs).bind fun _ _ => yields_ok ?_
    exact ⟨optIs_none (by decide), optIs_none (by decide), optIs_none (by decide), optIs_none (by decide)⟩
  | nf =>
    refine ((yields_idDecode o .nf id).bind fun r hr => yields_ok (?_ : RecoveredIs o _ id data _) :
      Yields _ (_ ++ []) _)
    exact ⟨optIs_some (by decide) (hr.aty), optIs_some (by decide) (hr.ta),
      optIs_some (by decide) (hr.sa), optIs_none (by decide)⟩
  | ext =>
    refine (yields_firstByte data).bind fun b hb => yields_ok ?_
    exact ⟨optIs_none (by decide), optIs_some (by decide) (congrArg BitVec.toNat hb),
      optIs_none (by decide), optIs_none (by decide)⟩
  | m11 =>
    refine (yields_raiseIf .inconsistent hs).bind fun _ _ => ?_
    refine (yields_firstByte data).bind fun b hb => yields_ok ?_
    exact ⟨optIs_none (by decide), optIs_none (by decide), optIs_none (by decide),
      optIs_some (by decide) (hb)⟩
  | m29 =>
    refine (yields_idDecode o .m29 id).bind fun r hr => ?_
    refine (yields_firstByte data).bind fun b hb => yields_ok ?_
    exact ⟨optIs_some (by decide) (hr.aty), optIs_some (by decide) (hr.ta),
      optIs_some (by decide) (hr.sa), optIs_some (by decide) (hb)⟩

/-- `ai_enc_data` (R134). -/
theorem yields_aiEncData (f : Format) (ta? ae? : Option Byte) :
    Yields (aiEncData f ta? ae?)
      [(f.number.toNat = 2 ∧ ta?.isSome = false ∨ hasExtension f.number = true ∧ ae?.isSome = false, .inconsistent)]
      (fun d => d.length = addrBytes f.number ∧
        (f.number.toNat = 2 → d.head? = ta?) ∧ (hasExtension f.number = true → d.head? = ae?)) := by
  cases f with
  | n11 => exact Yields.skip _ (by simp [Format.number, hasExtension]) (yields_ok ⟨rfl, fun h => absurd h (by decide), fun h => absurd h (by decide)⟩)
  | nf => exact Yields.skip _ (by simp [Format.number, hasExtension]) (yields_ok ⟨rfl, fun h => absurd h (by decide), fun h => absurd h (by decide)⟩)
  | ext =>
    cases ta? with
    | none => exact yields_error (.inl ⟨rfl, rfl⟩)
    | some b => exact Yields.skip _ (by simp [Format.number, hasExtension]) (yields_ok ⟨rfl, fun _ => rfl, fun h => absurd h (by decide)⟩)
  | m11 =>
    cases ae? with
    | none => exact yields_error (.inr ⟨rfl, rfl⟩)
    | some b => exact Yields.skip _ (by simp [Format.number, hasExtension]) (yields_ok ⟨rfl, fun h => absurd h (by decide), fun _ => rfl⟩)
  | m29 =>
    cases ae? with
    | none => exact yields_error (.inr ⟨rfl, rfl⟩)
    | some b => exact Yields.skip _ (by simp [Format.number, hasExtension]) (yields_ok ⟨rfl, fun h => absurd h (by decide), fun _ => rfl⟩)

/-- The normalised values that `ai_validate` returns (R140), by number. -/
structure NormalisedIs (o : Offsets) (fmt : BitVec 3) (pm : BitVec 8) (s : State) (r : Normalised) : Prop where
  id : r.id = w32 (normId o fmt pm s)
  ta : OptIs (hasTarget fmt = true) (fun b => b.toNat = normTa fmt pm s) r.ta?
  sa : OptIs (structured fmt = true) (fun b => b.toNat = normSa pm s) r.sa?
  ae : OptIs (hasExtension fmt = true) (fun b => b.toNat = num s .ae) r.ae?

theorem yields_mandatory {α : Type} {given : Prop} {P : α → Prop} {v? : Option α} (h : OptIs given P v?) :
    Yields (mandatory v?) [(¬given, .inconsistent)] (fun v => given ∧ v? = some v ∧ P v) := by
  by_cases hg : given
  · obtain ⟨v, rfl, hp⟩ := h.some hg
    exact Yields.skip _ (fun h => h hg) (yields_ok ⟨hg, rfl, hp⟩)
  · rw [h.none hg]
    exact yields_error hg

theorem differs_iff {given : Prop} {n m : Nat} {v? : Option Byte} {v : Byte} (h : OptIs given (fun b => b.toNat = n) v?)
    (hv : v.toNat = m) : differs v? v = true ↔ given ∧ n ≠ m := by
  by_cases hg : given
  · obtain ⟨b, rfl, hb⟩ := h.some hg
    subst hb hv
    simp [differs, hg, ← BitVec.toNat_inj]
  · rw [h.none hg]
    simp [differs, hg]

/-- `resolve29` (R140). -/
structure ResolvedIs (o : Offsets) (fmt : BitVec 3) (pm : BitVec 8) (s : State) (r : Resolved) : Prop where
  id : r.id = w32 (normId o fmt pm s)
  ta : r.ta.toNat = normTa fmt pm s
  sa : r.sa.toNat = normSa pm s

theorem w32_num (s : State) (r : Reg) : w32 (num s r) = s.reg r := by simp [w32, num]

theorem yields_resolve29 {fmt : BitVec 3} {pm : BitVec 8} {s : State} {v : Addressing} (o : Offsets)
    (h : AddressingIs fmt pm s v) (f : Windowed) (hf : f.format.number = fmt) :
    Yields (resolve29 o f v.aty v.id? v.ta? v.sa?) (resolveChecks o fmt pm s) (ResolvedIs o fmt pm s) := by
  have hst : structured fmt = true := hf ▸ structured_number f
  unfold resolveChecks
  by_cases hg : Given pm 0
  · obtain ⟨u, hu, rfl, hid⟩ := h.id.some hg
    rw [hu, if_pos hg]
    refine Yields.bind (hf ▸ yields_idDecode o f (s.reg .id)) fun r hr => ?_
    refine (yields_raiseIf .inconsistent (d := idType o fmt (num s .id) ≠ num s .aty) ?_).bind fun _ ha => ?_
    · rw [← h.aty, num, ← hr.aty]
      exact not_congr ⟨fun e => by rw [e], AddrType.number_inj⟩
    refine (yields_raiseIf .inconsistent (differs_iff h.ta hr.ta)).bind fun _ _ => ?_
    refine (yields_raiseIf .inconsistent (differs_iff h.sa hr.sa)).bind fun _ _ => yields_ok ?_
    refine ⟨?_, ?_, ?_⟩
    · rw [normId, if_neg (by simp [hg]), w32_num]
    · rw [normTa, if_pos ⟨hst, hg⟩]; exact hr.ta
    · rw [normSa, if_pos hg]; exact hr.sa
  · rw [h.id.none hg, if_neg hg]
    by_cases ht : Given pm 1
    · refine Yields.check (c := ¬Given pm 2) (by tauto) ?_
      obtain ⟨ta, hta, htn⟩ := h.ta.some ht
      unfold resolve29
      rw [hta]
      refine (yields_mandatory h.sa).bind fun sa hsa => yields_ok ?_
      refine ⟨?_, ?_, ?_⟩
      · rw [normId, if_pos ⟨hst, hg⟩, idEncode_eq, hf, h.aty, htn, hsa.2.2]
      · rw [normTa, if_neg (by simp [hg])]; exact htn
      · rw [normSa, if_neg hg]; exact hsa.2.2
    · unfold resolve29
      rw [h.ta.none ht]
      exact yields_error (.inl ht)

/-- `ai_validate` (R140): its checks in order and what it returns. -/
theorem yields_aiValidate {fmt : BitVec 3} {pm : BitVec 8} {s : State} {v : Addressing} (o : Offsets)
    (h : AddressingIs fmt pm s v) :
    Yields (aiValidate o v) (validateChecks o fmt pm s) (NormalisedIs o fmt pm s) := by
  have hs : ∀ id : Word, isStandard id = false ↔ 0x7FF < id.toNat := fun id => by
    rw [← Bool.not_eq_true, isStandard_iff]; omega
  have hid : ∀ {fmt : BitVec 3}, structured fmt = false → s.reg .id = w32 (normId o fmt pm s) := fun hst => by
    rw [normId, if_neg (by simp [hst]), w32_num]
  obtain ⟨f, aty, id?, ta?, sa?, ae?⟩ := v
  have hfmt := h.fmt
  simp only at hfmt
  subst hfmt
  cases f with
  | n11 =>
    refine (yields_raiseIf .unusedArg ?_).bind fun _ _ => ?_
    · rw [h.ta.isSome_iff, h.sa.isSome_iff, h.ae.isSome_iff]
    refine (yields_mandatory h.id).bind fun id hi => ?_
    obtain ⟨_, _, rfl, _⟩ := hi
    refine (yields_raiseIf .inconsistent (hs _)).bind fun _ _ => yields_ok ?_
    exact ⟨hid rfl, optIs_none (by decide), optIs_none (by decide), optIs_none (by decide)⟩
  | nf =>
    refine (yields_raiseIf .unusedArg h.ae.isSome_iff).bind (ds := resolveChecks o _ pm s) fun _ _ => ?_
    refine (((yields_resolve29 o h .nf rfl).bind fun r hr => yields_ok (?_ : NormalisedIs o _ pm s _)) :
      Yields _ (_ ++ []) _) |> fun h => by simpa using h
    exact ⟨hr.id, optIs_some (by decide) hr.ta, optIs_some (by decide) hr.sa, optIs_none (by decide)⟩
  | ext =>
    refine (yields_raiseIf .unusedArg ?_).bind fun _ _ => ?_
    · rw [h.sa.isSome_iff, h.ae.isSome_iff]
    refine (yields_mandatory h.id).bind fun id hi => ?_
    obtain ⟨_, _, rfl, _⟩ := hi
    refine (yields_mandatory h.ta).bind fun ta hta => yields_ok ?_
    refine ⟨hid rfl, optIs_some (by decide) ?_, optIs_none (by decide), optIs_none (by decide)⟩
    rw [normTa, if_neg (by simp [structured, Format.number])]
    exact hta.2.2
  | m11 =>
    refine (yields_raiseIf .unusedArg ?_).bind fun _ _ => ?_
    · rw [h.ta.isSome_iff, h.sa.isSome_iff]
    refine (yields_mandatory h.id).bind fun id hi => ?_
    obtain ⟨_, _, rfl, _⟩ := hi
    refine (yields_raiseIf .inconsistent (hs _)).bind fun _ _ => ?_
    refine (yields_mandatory h.ae).bind fun ae hae => yields_ok ?_
    exact ⟨hid rfl, optIs_none (by decide), optIs_none (by decide), optIs_some (by decide) hae.2.2⟩
  | m29 =>
    refine (yields_mandatory h.ae).bind (ds := resolveChecks o _ pm s) fun ae hae => ?_
    refine (((yields_resolve29 o h .m29 rfl).bind fun r hr => yields_ok (?_ : NormalisedIs o _ pm s _)) :
      Yields _ (_ ++ []) _) |> fun h => by simpa using h
    exact ⟨hr.id, optIs_some (by decide) hr.ta, optIs_some (by decide) hr.sa, optIs_some (by decide) hae.2.2⟩

end Sys2Proof.Laws
end

