-- ==== Sys2Proof/Laws/Encoders.lean ====
section
/-! SUPPORT. What the data-length functions and the four packet-type encoders do (41_dlc.md, 43_single_frame.md to
46_flow_control.md), in the numbers of the claims: one lemma per function. -/

namespace Sys2Proof.Laws

open Sys2Proof.Machine Sys2Proof.Claims

/-! ## Data length -/

theorem dlcBytes_eq : ∀ c : Dlc, dlcBytes c = frameBytes c.val := by decide
theorem frameBytes_mem : ∀ c : Dlc, frameBytes c.val ∈ legalLengths := by decide
theorem codeOf_frameBytes : ∀ c : Dlc, codeOf (frameBytes c.val) = c.val := by decide
theorem frameBytes_le : ∀ c : Dlc, frameBytes c.val ≤ 64 := by decide
theorem legal_le : ∀ n ∈ legalLengths, n ≤ 64 := by decide
theorem codeOf_lt : ∀ n ∈ legalLengths, codeOf n < 16 := by decide
theorem frameBytes_codeOf : ∀ n ∈ legalLengths, frameBytes (codeOf n) = n := by decide
theorem mem_allCodes : ∀ c : Dlc, c ∈ allCodes := by decide

theorem yields_dlcExact (n : Nat) :
    Yields (dlcExact n) [(n ∉ legalLengths, .invalidValue)] (fun c => c.val = codeOf n ∧ frameBytes c.val = n) := by
  unfold dlcExact
  cases h : allCodes.find? (fun c => dlcBytes c == n) with
  | some c =>
    have hc : frameBytes c.val = n := by
      have := List.find?_some h
      rw [beq_iff_eq, dlcBytes_eq] at this
      exact this
    refine Yields.skip _ (fun h => h (hc ▸ frameBytes_mem c)) (yields_ok ⟨?_, hc⟩)
    rw [← hc, codeOf_frameBytes]
  | none =>
    refine yields_error fun hn => ?_
    have hc := List.find?_eq_none.1 h ⟨codeOf n, codeOf_lt n hn⟩ (mem_allCodes _)
    rw [beq_iff_eq, dlcBytes_eq] at hc
    exact hc (frameBytes_codeOf n hn)

/-- The values of `dlc_min` on the lengths it takes (R122). -/
theorem dlcMin_upTo : ∀ n : Fin 65, ∃ c : Dlc, dlcMin n.val = .ok c ∧ c.val = leastCode n.val ∧ n.val ≤ frameBytes c.val := by
  have h : ∀ n : Fin 65, ∃ c : Dlc, allCodes.find? (fun c => decide (n.val ≤ dlcBytes c)) = some c ∧
      c.val = leastCode n.val ∧ n.val ≤ frameBytes c.val := by decide +kernel
  intro n
  obtain ⟨c, hc, h'⟩ := h n
  exact ⟨c, by rw [dlcMin, hc], h'⟩

theorem yields_dlcMin (n : Nat) :
    Yields (dlcMin n) [(64 < n, .invalidValue)] (fun c => c.val = leastCode n ∧ n ≤ frameBytes c.val) := by
  by_cases hn : n ≤ 64
  · obtain ⟨c, hc, h⟩ := dlcMin_upTo ⟨n, by omega⟩
    refine Yields.skip _ (by omega) ?_
    rw [show dlcMin n = _ from hc]
    exact yields_ok h
  · have h : allCodes.find? (fun c => decide (n ≤ dlcBytes c)) = none := by
      rw [List.find?_eq_none]
      intro c _
      have := frameBytes_le c
      rw [decide_eq_true_iff, dlcBytes_eq]
      omega
    rw [dlcMin, h]
    exact yields_error (by omega)

theorem sfCap_ge (a : Nat) (c : Dlc) (n : Nat) : (n : Int) ≤ sfCap a c ↔ FitsSingle a c.val n := by
  unfold sfCap FitsSingle
  rw [dlcBytes_eq]
  split <;> omega

/-! ## Encoders -/

/-- An encoder's result: the code `c`, and after `a` addressing bytes exactly the PCI bytes, the payload and filler. -/
structure EncodedIs (a c : Nat) (pci pay : List Byte) (fill : Byte) (e : Encoded) : Prop where
  code : e.code.val = c
  body : e.body = pci ++ pay ++ List.replicate (frameBytes c - (a + pci.length + pay.length)) fill
  fits : a + pci.length + pay.length ≤ frameBytes c

theorem EncodedIs.length {a c : Nat} {pci pay : List Byte} {fill : Byte} {e : Encoded} (h : EncodedIs a c pci pay fill e) :
    a + e.body.length = frameBytes c := by
  have := h.fits
  rw [h.body]
  simp only [List.length_append, List.length_replicate]
  omega

/-- `sf_encode` (R157). -/
theorem yields_sfEncode {any : Bool} {pm : BitVec 8} {a : Nat} {s : State} {dlc? : Option Dlc} {pay : List Byte}
    (hp : pay.length = num s .plen) (hd : OptIs (Given pm 5) (fun c : Dlc => c.val = num s .dlc) dlc?) (fill : Byte) :
    Yields (sfEncode a pay dlc? any (s.reg .dl).toNat fill) (sfOwn any pm a s)
      (EncodedIs a (sfFrameCode pm a s) (sfPci any pm a s) pay fill) := by
  have hlen : (if any = true then (s.reg .dl).toNat else pay.length) = sfLength any s := by rw [hp]; rfl
  unfold sfEncode sfOwn
  refine (yields_raiseIf (d := any = false ∧ num s .plen < 1) .invalidValue (by rw [hp])).bind fun _ _ => ?_
  refine Yields.bind (cs := [_]) (P := fun c : Dlc => c.val = sfFrameCode pm a s) ?_ fun c hc => ?_
  · unfold sfFrameCode sfCode
    by_cases hg : Given pm 5
    · obtain ⟨c, rfl, hc⟩ := hd.some hg
      exact Yields.skip _ (fun h => h.1 hg) (yields_ok (by rw [if_pos hg]; exact hc))
    · rw [hd.none hg, hp, if_neg hg]
      show Yields (if a + 1 + num s .plen ≤ 8 then dlcExact (a + 1 + num s .plen)
        else if a + 2 + num s .plen ≤ 64 then dlcMin (a + 2 + num s .plen) else .error .inconsistent) _ _
      by_cases h8 : a + 1 + num s .plen ≤ 8
      · rw [if_pos h8, if_pos h8]
        have hl : ∀ n : Fin 9, n.val ∈ legalLengths ∧ codeOf n.val = n.val := by decide
        obtain ⟨hm, hn⟩ := hl ⟨a + 1 + num s .plen, by omega⟩
        refine Yields.skip _ (by omega) ((yields_dlcExact _).2 (fun h => h hm) |> fun ⟨c, h1, h2, _⟩ => ⟨c, h1, ?_⟩)
        exact h2.trans hn
      · rw [if_neg h8, if_neg h8]
        by_cases h64 : a + 2 + num s .plen ≤ 64
        · rw [if_pos h64]
          exact Yields.skip _ (by omega) ((yields_dlcMin _).2 (by omega) |> fun ⟨c, h1, h2, _⟩ => ⟨c, h1, h2⟩)
        · rw [if_neg h64]
          exact yields_error ⟨hg, by omega, by omega⟩
  · simp only [hlen, dlcBytes_eq, hc]
    by_cases h8 : sfFrameCode pm a s ≤ 8
    · rw [if_pos h8]
      refine (yields_raiseIf (d := sfFrameCode pm a s ≤ 8 ∧ _ < _) .inconsistent ?_).bind fun _ hfit => ?_
      · rw [hp]; exact ⟨fun h => ⟨h8, h⟩, fun h => h.2⟩
      refine (yields_raiseIf (d := sfFrameCode pm a s ≤ 8 ∧ any = false ∧ _ ≠ _) .inconsistent ?_).bind fun _ _ => ?_
      · rw [hp]; exact ⟨fun h => ⟨h8, h⟩, fun h => h.2⟩
      refine (yields_raiseIf (d := sfFrameCode pm a s ≤ 8 ∧ _ < _) .invalidValue ⟨fun h => ⟨h8, h⟩, fun h => h.2⟩).bind
        fun _ _ => ?_
      refine Yields.skip _ (by omega) (Yields.skip _ (by omega) (yields_ok ⟨hc, ?_, ?_⟩))
      · rw [sfPci, if_pos h8, hp]
        simp only [padding, List.length_singleton]
        congr 2
        omega
      · rw [sfPci, if_pos h8, hp]
        simp only [List.length_singleton]
        omega
    · rw [if_neg h8]
      refine Yields.skip _ (by omega) (Yields.skip _ (by omega) (Yields.skip _ (by omega) ?_))
      refine (yields_raiseIf (d := 8 < sfFrameCode pm a s ∧ _ < _) .inconsistent ?_).bind fun _ hfit => ?_
      · rw [hp]; exact ⟨fun h => ⟨by omega, h⟩, fun h => h.2⟩
      refine (yields_raiseIf (d := 8 < sfFrameCode pm a s ∧ _ < _) .invalidValue ⟨fun h => ⟨by omega, h⟩, fun h => h.2⟩).bind
        fun _ _ => yields_ok ⟨hc, ?_, ?_⟩
      · rw [sfPci, if_neg h8, hp]
        simp only [padding, List.length_cons, List.length_nil]
        congr 2
        omega
      · rw [sfPci, if_neg h8, hp]
        simp only [List.length_cons, List.length_nil]
        omega

theorem ffPciBytes_eq (s : State) : ffPciBytes (s.reg .dl) = ffPciCount s := rfl

theorem ffPci_eq (s : State) : ffPci (s.reg .dl) = ffPciList s := by
  have hb : ∀ i, (s.reg .dl).extractLsb' i 8 = byte (num s .dl / 2 ^ i % 256) := fun i => by
    apply BitVec.eq_of_toNat_eq
    simp [byte, num, BitVec.extractLsb'_toNat, Nat.shiftRight_eq_div_pow]
  have hlt : num s .dl < 2 ^ 32 := (s.reg .dl).isLt
  unfold ffPci ffPciList
  change (if 4095 < num s .dl then _ else _) = _
  by_cases h : 4095 < num s .dl
  · rw [if_pos h, if_pos h, hb, hb, hb, hb]
    rw [Nat.mod_eq_of_lt (a := num s .dl / 2 ^ 24) (by omega)]
    simp only [Nat.pow_zero, Nat.div_one]
  · rw [if_neg h, if_neg h, hb]
    simp only [Nat.pow_zero, Nat.div_one]
    congr 1
    apply BitVec.eq_of_toNat_eq
    simp only [nibbles, BitVec.toNat_append, BitVec.extractLsb'_toNat, byte, BitVec.toNat_ofNat, Nat.shiftRight_eq_div_pow]
    show _ = (0x10 + num s .dl / 256) % 256
    have : num s .dl / 2 ^ 8 % 2 ^ 4 = num s .dl / 256 := Nat.mod_eq_of_lt (by omega)
    have h2 : (s.reg .dl).toNat / 2 ^ 8 % 2 ^ 4 = num s .dl / 256 := this
    rw [h2, ← Nat.shiftLeft_add_eq_or_of_lt (by omega)]
    show 16 + num s .dl / 256 = _
    omega

theorem ffPci_length (s : State) : (ffPciList s).length = ffPciCount s := by
  unfold ffPciList ffPciCount
  split <;> rfl

/-- `ff_encode` (R173). -/
theorem yields_ffEncode {any : Bool} {pm : BitVec 8} {a : Nat} {s : State} {dlc? : Option Dlc} {pay : List Byte}
    (hp : pay.length = num s .plen) (hd : OptIs (Given pm 5) (fun c : Dlc => c.val = num s .dlc) dlc?) (fill : Byte) :
    Yields (ffEncode a pay (s.reg .dl) dlc? any) (ffOwn any pm a s)
      (EncodedIs a (ffFrameCode pm a s) (ffPciList s) pay fill) := by
  unfold ffEncode ffOwn
  simp only [ffPciBytes_eq, ffPci_eq, hp, dlcBytes_eq]
  refine (yields_raiseIf (d := any = false ∧ num s .plen < 1) .invalidValue Iff.rfl).bind fun _ _ => ?_
  refine Yields.bind (cs := [_]) (P := fun c : Dlc => c.val = ffFrameCode pm a s) ?_ fun c hc => ?_
  · unfold ffFrameCode Machine.ffCode
    by_cases hg : Given pm 5
    · obtain ⟨c, rfl, hc⟩ := hd.some hg
      exact Yields.skip _ (fun h => h.1 hg) (yields_ok (by rw [if_pos hg]; exact hc))
    · rw [hd.none hg, if_neg hg]
      have h := yields_dlcExact (a + ffPciCount s + num s .plen)
      by_cases hl : a + ffPciCount s + num s .plen ∈ legalLengths
      · obtain ⟨c, hc, h1, _⟩ := h.2 (fun h => h hl)
        exact Yields.skip _ (fun h => h.2 hl) ⟨c, by simp only [hc], h1⟩
      · have he : dlcExact (a + ffPciCount s + num s .plen) = .error .invalidValue := h.1 hl
        simp only [he]
        exact yields_error ⟨hg, hl⟩
  · simp only [hc]
    refine (yields_raiseIf .inconsistent Iff.rfl).bind fun _ hx => ?_
    refine (yields_raiseIf (d := any = false ∧ FitsSingle a (ffFrameCode pm a s) (num s .dl)) .inconsistent ?_).bind
      fun _ _ => yields_ok ⟨hc, ?_, ?_⟩
    · rw [sfCap_ge, hc]; rfl
    · rw [ffPci_length, hp, show frameBytes (ffFrameCode pm a s) - (a + ffPciCount s + num s .plen) = 0 by omega]
      simp
    · rw [ffPci_length, hp]
      omega

/-- A PCI byte from its two nibbles. -/
theorem nibbles_eq (h : Nat) (l : BitVec 4) (hh : h < 16) : nibbles (BitVec.ofNat 4 h) l = byte (h * 16 + l.toNat) := by
  apply BitVec.eq_of_toNat_eq
  have := l.isLt
  simp only [nibbles, BitVec.toNat_append, byte, BitVec.toNat_ofNat]
  rw [Nat.mod_eq_of_lt (by omega), ← Nat.shiftLeft_add_eq_or_of_lt (by omega), Nat.shiftLeft_eq,
    Nat.mod_eq_of_lt (by omega)]

/-- `cf_encode` (R186). -/
theorem yields_cfEncode {any : Bool} {pm : BitVec 8} {a : Nat} {s : State} {dlc? : Option Dlc} {pay : List Byte}
    {sn : BitVec 4} (hp : pay.length = num s .plen) (hd : OptIs (Given pm 5) (fun c : Dlc => c.val = num s .dlc) dlc?)
    (hn : sn.toNat = num s .sn) (fill : Byte) :
    Yields (cfEncode a pay sn dlc? any fill) (cfOwn any pm a s)
      (EncodedIs a (cfFrameCode pm a s) (cfPci s) pay fill) := by
  unfold cfEncode cfOwn
  simp only [hp, dlcBytes_eq]
  refine (yields_raiseIf (d := any = false ∧ num s .plen < 1) .invalidValue Iff.rfl).bind fun _ _ => ?_
  refine Yields.bind (cs := [_]) (P := fun c : Dlc => c.val = cfFrameCode pm a s) ?_ fun c hc => ?_
  · unfold cfFrameCode Machine.cfCode
    by_cases hg : Given pm 5
    · obtain ⟨c, rfl, hc⟩ := hd.some hg
      exact Yields.skip _ (fun h => h.1 hg) (yields_ok (by rw [if_pos hg]; exact hc))
    · rw [hd.none hg, if_neg hg]
      show Yields (if a + 1 + num s .plen ≤ 64 then dlcMin (a + 1 + num s .plen) else .error .inconsistent) _ _
      by_cases h64 : a + 1 + num s .plen ≤ 64
      · rw [if_pos h64]
        exact Yields.skip _ (by omega) ((yields_dlcMin _).2 (by omega) |> fun ⟨c, h1, h2, _⟩ => ⟨c, h1, h2⟩)
      · rw [if_neg h64]
        exact yields_error ⟨hg, by omega⟩
  · simp only [hc]
    refine (yields_raiseIf .inconsistent Iff.rfl).bind fun _ hx => yields_ok ⟨hc, ?_, ?_⟩
    · rw [show nibbles 2#4 sn = byte (0x20 + num s .sn) by rw [← hn]; exact nibbles_eq 2 sn (by decide)]
      simp only [padding, cfPci, List.length_singleton, hp]
      congr 2
      omega
    · simp only [cfPci, List.length_singleton, hp]
      omega

/-- The PCI bytes of a Flow Control frame, its code and the filler (R196, R198). -/
theorem yields_fcFinish {any : Bool} {pm : BitVec 8} {a : Nat} {s : State} {dlc? : Option Dlc} {pci : List Byte}
    (hpci : pci = fcPci any pm s) (ha : a ≤ 1) (hd : OptIs (Given pm 5) (fun c : Dlc => c.val = num s .dlc) dlc?)
    (fill : Byte) :
    Yields (fcFinish a pci dlc? fill)
      [(frameBytes (fcFrameCode any pm a s) < a + (fcPci any pm s).length, .inconsistent)]
      (EncodedIs a (fcFrameCode any pm a s) (fcPci any pm s) [] fill) := by
  have hle : (fcPci any pm s).length ≤ 3 := by
    unfold fcPci
    split
    · split <;> split <;> simp
    · split <;> simp
  subst hpci
  unfold fcFinish
  refine Yields.bind (cs := []) (P := fun c : Dlc => c.val = fcFrameCode any pm a s) ?_ fun c hc => ?_
  · unfold fcFrameCode Machine.fcCode
    by_cases hg : Given pm 5
    · obtain ⟨c, rfl, hc⟩ := hd.some hg
      exact yields_ok (by rw [if_pos hg]; exact hc)
    · rw [hd.none hg, if_neg hg]
      exact (yields_dlcMin _).2 (by omega) |> fun ⟨c, h1, h2, _⟩ => ⟨c, h1, h2⟩
  · simp only [dlcBytes_eq, hc]
    refine (yields_raiseIf .inconsistent Iff.rfl).bind fun _ hx => yields_ok ⟨hc, ?_, ?_⟩
    · simp [padding]
    · simp only [List.length_nil]
      omega

theorem flowStatusOf_eq (n : BitVec 4) :
    flowStatusOf n = if n.toNat = 0 then some .cts else if n.toNat = 1 then some .wait
      else if n.toNat = 2 then some .ovfl else none := by
  unfold flowStatusOf
  generalize n.toNat = k
  match k with
  | 0 => rfl
  | 1 => rfl
  | 2 => rfl
  | k + 3 => rfl

/-- `fc_encode` (R196, R198). -/
theorem yields_fcEncode {any : Bool} {pm : BitVec 8} {a : Nat} {s : State} {dlc? : Option Dlc} {bs? st? : Option Byte}
    {fs : BitVec 4} (ha : a ≤ 1) (hd : OptIs (Given pm 5) (fun c : Dlc => c.val = num s .dlc) dlc?)
    (hb : OptIs (Given pm 6) (fun b : Byte => b.toNat = num s .bs) bs?)
    (ht : OptIs (Given pm 7) (fun b : Byte => b.toNat = num s .st) st?) (hf : fs.toNat = num s .fs)
    {fill : Byte} (hfill : fill = filler s) :
    Yields (fcEncode a fs bs? st? dlc? any fill) (fcOwn any pm a s)
      (EncodedIs a (fcFrameCode any pm a s) (fcPci any pm s) [] fill) := by
  have hp : nibbles 3#4 fs = byte (0x30 + num s .fs) := by rw [← hf]; exact nibbles_eq 3 fs (by decide)
  unfold fcOwn fcEncode
  cases any with
  | true =>
    refine Yields.skip _ (by simp) (Yields.skip _ (by simp) (Yields.skip _ (by simp) ?_))
    refine (yields_raiseIf .inconsistent ?_).bind fun _ hx => ?_
    · rw [ht.isSome_iff, hb.isNone_iff]; simp
    refine yields_fcFinish ?_ ha hd fill
    rw [hp, fcPci]
    congr 1
    have e1 : bs?.toList = if Given pm 6 then [byte (num s .bs)] else [] := by
      by_cases hg : Given pm 6
      · obtain ⟨b, rfl, h⟩ := hb.some hg; rw [if_pos hg, byte_eq h]; rfl
      · rw [hb.none hg, if_neg hg]; rfl
    have e2 : st?.toList = if Given pm 7 then [byte (num s .st)] else [] := by
      by_cases hg : Given pm 7
      · obtain ⟨b, rfl, h⟩ := ht.some hg; rw [if_pos hg, byte_eq h]; rfl
      · rw [ht.none hg, if_neg hg]; rfl
    rw [e1, e2]
    rfl
  | false =>
    show Yields (fcEncodeValid a fs bs? st? dlc? fill) _ _
    unfold fcEncodeValid
    rw [flowStatusOf_eq, hf]
    by_cases h0 : num s .fs = 0
    · simp only [h0, if_true]
      refine Yields.skip _ (by omega) ?_
      refine Yields.check (c := ¬Given pm 6 ∨ ¬Given pm 7) (by simp) ?_
      refine Yields.bind (cs := [_, _, _]) (P := fun tail => tail = [byte (num s .bs), byte (num s .st)]) ?_ fun tail htl => ?_
      · by_cases hg : Given pm 6
        · refine Yields.check (c := ¬Given pm 7) (by tauto) ?_
          unfold fcValidTail
          refine Yields.bind (cs := []) ((yields_mandatory hb).2 (fun h => h hg)) fun b hbb => ?_
          refine (yields_mandatory ht).bind fun t htt => ?_
          refine Yields.skip _ (by simp) (Yields.skip _ (by simp) (yields_ok ?_))
          rw [byte_eq hbb.2.2, byte_eq htt.2.2]
        · unfold fcValidTail
          rw [hb.none hg]
          exact yields_error (.inl hg)
      · subst htl
        refine yields_fcFinish ?_ ha hd fill
        rw [hp, fcPci]
        simp [h0]
    · refine Yields.check (c := 2 < num s .fs) (by simp) ?_
      by_cases h2 : 2 < num s .fs
      · rw [if_neg h0, if_neg (by omega), if_neg (by omega)]
        exact yields_error h2
      · refine Yields.skip _ h2 (Yields.skip _ (by omega) ?_)
        have hw : ∃ status, (status = FlowStatus.wait ∨ status = FlowStatus.ovfl) ∧
            (if num s .fs = 0 then some FlowStatus.cts else if num s .fs = 1 then some .wait
              else if num s .fs = 2 then some .ovfl else none) = some status := by
          by_cases h1 : num s .fs = 1
          · exact ⟨.wait, .inl rfl, by simp [h1]⟩
          · have : num s .fs = 2 := by omega
            exact ⟨.ovfl, .inr rfl, by simp [this]⟩
        obtain ⟨status, hst, he⟩ := hw
        rw [he]
        have htail : fcValidTail status bs? st? fill =
            (do raiseIf (bs?.isSome ∨ st?.isSome) .inconsistent; .ok [fill, fill]) := by
          rcases hst with rfl | rfl <;> rfl
        simp only [htail]
        refine Yields.check (c := Given pm 6 ∨ Given pm 7) (by simp [h0]) ?_
        refine Yields.bind (cs := [_]) (P := fun tail => tail = [fill, fill])
          ((yields_raiseIf .inconsistent (by rw [hb.isSome_iff, ht.isSome_iff])).bind (ds := [])
            fun _ _ => yields_ok rfl) fun tail htl => ?_
        subst htl
        refine Yields.skip _ (by simp) (yields_fcFinish ?_ ha hd fill)
        rw [hp, fcPci, hfill]
        simp [h0]

end Sys2Proof.Laws
end

