-- ==== Sys2Proof/Laws/Decoders.lean ====
section
/-! SUPPORT. What the packet-type decoders and the separation-time functions do (43_single_frame.md to
46_flow_control.md), in the numbers of the claims: one lemma per function. -/

namespace Sys2Proof.Laws

open Sys2Proof.Machine Sys2Proof.Claims

/-! ## Bytes of a frame -/

theorem frameByte_bytesFrom (b : Nat → Byte) {n i : Nat} (h : i < n) : frameByte (bytesFrom b 0 n) i = b i := by
  rw [frameByte, getD_bytesFrom b 0 n i _ h, Nat.zero_add]

theorem drop_bytesFrom (b : Nat → Byte) (n k : Nat) : (bytesFrom b 0 n).drop k = bytesFrom b k (n - k) :=
  List.ext_getElem (by simp) (fun i _ _ => by simp)

theorem take_bytesFrom (b : Nat → Byte) {k n m : Nat} (h : m ≤ n) : (bytesFrom b k n).take m = bytesFrom b k m :=
  List.ext_getElem (by simp; omega) (fun i _ _ => by simp)

theorem hi4_toNat (b : Byte) : (hi4 b).toNat = hi b := by
  have := b.isLt
  simp only [hi4, hi, BitVec.extractLsb'_toNat, Nat.shiftRight_eq_div_pow]
  exact Nat.mod_eq_of_lt (by omega)
theorem lo4_toNat (b : Byte) : (lo4 b).toNat = lo b := by
  simp only [lo4, lo, BitVec.extractLsb'_toNat, Nat.shiftRight_zero]
theorem lo4_eq_zero (b : Byte) : lo4 b ≠ 0#4 ↔ lo b ≠ 0 := by
  rw [← lo4_toNat]
  exact not_congr ⟨fun h => by rw [h]; rfl, fun h => BitVec.eq_of_toNat_eq (by rw [h]; rfl)⟩

theorem packetTypeOf_eq (n : BitVec 4) (t : PacketType) : packetTypeOf n = some t ↔ n.toNat = t.number := by
  unfold packetTypeOf
  generalize n.toNat = k
  match k with
  | 0 => cases t <;> simp [PacketType.number]
  | 1 => cases t <;> simp [PacketType.number]
  | 2 => cases t <;> simp [PacketType.number]
  | 3 => cases t <;> simp [PacketType.number]
  | k + 4 => cases t <;> simp [PacketType.number]

theorem packetTypeOf_isSome (n : BitVec 4) : packetTypeOf n = none ↔ 3 < n.toNat := by
  unfold packetTypeOf
  generalize n.toNat = k
  match k with
  | 0 => simp
  | 1 => simp
  | 2 => simp
  | 3 => simp
  | k + 4 => simp

theorem yields_requireType (t : PacketType) (b : Byte) :
    Yields (requireType t b) [(hi b ≠ t.number, .invalidValue)] (fun _ => hi b = t.number) :=
  (yields_raiseIf _ (by rw [← hi4_toNat]; exact not_congr (packetTypeOf_eq _ t))).mono fun _ h => not_not.1 h

theorem long_code : ∀ n ∈ legalLengths, 8 < codeOf n → 12 ≤ n := by decide

/-! ## Decoders -/

/-- What a length-carrying decoder returns. -/
structure LengthViewIs (b : Nat → Byte) (n start len dl : Nat) (r : LengthView) : Prop where
  code : r.code.val = codeOf n
  dl   : r.dl = dl
  pay  : r.pay = bytesFrom b start len
  fits : start + len ≤ n
  le   : n ≤ 64

/-- `sf_decode` (R158). -/
theorem yields_sfDecode (b : Nat → Byte) {a : Nat} (ha : a ≤ 1) (n : Nat) :
    Yields (sfDecode a (bytesFrom b 0 n)) (sfDecChecks b a n)
      (LengthViewIs b n (sfDecStart a n) (sfDecLength b a n) (sfDecLength b a n)) := by
  unfold sfDecode sfDecChecks
  simp only [length_bytesFrom]
  refine (yields_dlcExact n).bind fun c hc => ?_
  have hn : n ∈ legalLengths := hc.2 ▸ frameBytes_mem c
  refine (yields_raiseIf .inconsistent Iff.rfl).bind fun _ h1 => ?_
  rw [frameByte_bytesFrom b (by omega)]
  refine (yields_requireType .sf (b a)).bind fun _ _ => ?_
  by_cases h8 : codeOf n ≤ 8
  · rw [if_pos (by omega), lo4_toNat]
    refine (yields_raiseIf (d := codeOf n ≤ 8 ∧ _ < _) .invalidValue ⟨fun h => ⟨h8, h⟩, fun h => h.2⟩).bind fun _ _ => ?_
    refine (yields_raiseIf (d := codeOf n ≤ 8 ∧ _ ≠ _) .inconsistent ⟨fun h => ⟨h8, h⟩, fun h => h.2⟩).bind fun _ hx => ?_
    refine Yields.skip _ (by omega) (Yields.skip _ (by omega) (Yields.skip _ (by omega) (yields_ok ?_)))
    refine ⟨hc.1, by rw [sfDecLength, if_pos h8], ?_, ?_, legal_le n hn⟩
    · rw [sfDecLength, sfDecStart, if_pos h8, if_pos h8, drop_bytesFrom, take_bytesFrom b (by omega)]
    · rw [sfDecLength, sfDecStart, if_pos h8, if_pos h8]; omega
  · rw [if_neg (by omega)]
    have hlong := long_code n hn (by omega)
    rw [frameByte_bytesFrom b (by omega)]
    refine Yields.skip _ (by omega) (Yields.skip _ (by omega) ?_)
    refine (yields_raiseIf (d := 8 < codeOf n ∧ _ ≠ _) .inconsistent
      ((lo4_eq_zero _).trans ⟨fun h => ⟨by omega, h⟩, fun h => h.2⟩)).bind fun _ _ => ?_
    refine (yields_raiseIf (d := 8 < codeOf n ∧ _ < _) .invalidValue ⟨fun h => ⟨by omega, h⟩, fun h => h.2⟩).bind
      fun _ _ => ?_
    refine (yields_raiseIf (d := 8 < codeOf n ∧ _ < _) .inconsistent ⟨fun h => ⟨by omega, h⟩, fun h => h.2⟩).bind
      fun _ hx => yields_ok ?_
    refine ⟨hc.1, by rw [sfDecLength, if_neg h8], ?_, ?_, legal_le n hn⟩
    · rw [sfDecLength, sfDecStart, if_neg h8, if_neg h8, drop_bytesFrom, take_bytesFrom b (by omega)]
    · rw [sfDecLength, sfDecStart, if_neg h8, if_neg h8]; omega

/-- An OR of shifted disjoint parts is a sum. -/
theorem shift_or (x : Nat) {y k : Nat} (h : y < 2 ^ k) : x <<< k ||| y = x * 2 ^ k + y := by
  rw [← Nat.shiftLeft_add_eq_or_of_lt h, Nat.shiftLeft_eq]

theorem ffField_eq (b : Nat → Byte) (a : Nat) : (lo4 (b a)).toNat <<< 8 ||| (b (a + 1)).toNat = ffField b a := by
  rw [shift_or _ (b (a + 1)).isLt, lo4_toNat]
  rfl

theorem ffEscape_eq (w x y z : Byte) :
    w.toNat <<< 24 ||| x.toNat <<< 16 ||| y.toNat <<< 8 ||| z.toNat =
      w.toNat * 2 ^ 24 + x.toNat * 2 ^ 16 + y.toNat * 2 ^ 8 + z.toNat := by
  have hx := x.isLt
  have hy := y.isLt
  have hz := z.isLt
  rw [Nat.or_assoc, Nat.or_assoc, shift_or y.toNat hz,
    shift_or x.toNat (y := y.toNat * 2 ^ 8 + z.toNat) (k := 16) (by omega),
    shift_or w.toNat (y := x.toNat * 2 ^ 16 + (y.toNat * 2 ^ 8 + z.toNat)) (k := 24) (by omega)]
  omega

/-- `ff_decode` (R174). -/
theorem yields_ffDecode (b : Nat → Byte) {a : Nat} (n : Nat) :
    Yields (ffDecode a (bytesFrom b 0 n)) (ffDecChecks b a n)
      (LengthViewIs b n (a + ffDecPci b a) (n - (a + ffDecPci b a)) (ffDecLength b a)) := by
  unfold ffDecode ffDecChecks
  simp only [length_bytesFrom]
  refine (yields_dlcExact n).bind fun c hc => ?_
  have hn : n ∈ legalLengths := hc.2 ▸ frameBytes_mem c
  refine (yields_raiseIf .inconsistent Iff.rfl).bind fun _ h2 => ?_
  rw [frameByte_bytesFrom b (by omega)]
  refine (yields_requireType .ff (b a)).bind fun _ _ => ?_
  refine Yields.bind (cs := [_, _]) (P := fun l => l.dl = ffDecLength b a ∧ l.k = ffDecPci b a) ?_ fun l hl => ?_
  · unfold ffLength
    simp only [length_bytesFrom]
    rw [frameByte_bytesFrom b (by omega), frameByte_bytesFrom b (by omega), ffField_eq]
    by_cases h0 : ffField b a = 0
    · rw [if_neg (by simp [h0])]
      refine (yields_raiseIf (d := ffField b a = 0 ∧ _ < _) .inconsistent ⟨fun h => ⟨h0, h⟩, fun h => h.2⟩).bind
        fun _ h6 => ?_
      have h6' : ¬n < a + 6 := fun h => h6 ⟨h0, h⟩
      rw [frameByte_bytesFrom b (by omega), frameByte_bytesFrom b (by omega), frameByte_bytesFrom b (by omega),
        frameByte_bytesFrom b (by omega), ffEscape_eq]
      refine (yields_raiseIf (d := ffField b a = 0 ∧ _ ≤ _) .inconsistent ⟨fun h => ⟨h0, h⟩, fun h => h.2⟩).bind
        fun _ _ => yields_ok ⟨?_, ?_⟩
      · rw [ffDecLength, if_pos h0]; rfl
      · rw [ffDecPci, if_pos h0]
    · rw [if_pos h0]
      refine Yields.skip _ (fun h => h0 h.1) (Yields.skip _ (fun h => h0 h.1) (yields_ok ⟨?_, ?_⟩))
      · rw [ffDecLength, if_neg h0]
      · rw [ffDecPci, if_neg h0]
  · rw [hl.1, hl.2]
    refine (yields_raiseIf .inconsistent Iff.rfl).bind fun _ h3 => ?_
    refine (yields_raiseIf .inconsistent ?_).bind fun _ _ => yields_ok ?_
    · rw [sfCap_ge, hc.1]
    · exact ⟨hc.1, rfl, by rw [drop_bytesFrom], by omega, legal_le n hn⟩

/-- `cf_decode` (R187). -/
structure SequenceViewIs (b : Nat → Byte) (a n : Nat) (r : SequenceView) : Prop where
  code : r.code.val = codeOf n
  sn   : r.sn.toNat = lo (b a)
  pay  : r.pay = bytesFrom b (a + 1) (n - (a + 1))
  fits : a + 2 ≤ n
  le   : n ≤ 64

theorem yields_cfDecode (b : Nat → Byte) {a : Nat} (n : Nat) :
    Yields (cfDecode a (bytesFrom b 0 n)) (cfDecChecks b a n) (SequenceViewIs b a n) := by
  unfold cfDecode cfDecChecks
  simp only [length_bytesFrom]
  refine (yields_dlcExact n).bind fun c hc => ?_
  have hn : n ∈ legalLengths := hc.2 ▸ frameBytes_mem c
  refine (yields_raiseIf .inconsistent Iff.rfl).bind fun _ h2 => ?_
  rw [frameByte_bytesFrom b (by omega)]
  refine (yields_requireType .cf (b a)).bind fun _ _ => yields_ok ?_
  exact ⟨hc.1, lo4_toNat _, drop_bytesFrom b n (a + 1), by omega, legal_le n hn⟩

/-- `fc_decode` (R199). -/
structure FlowViewIs (b : Nat → Byte) (a n : Nat) (r : FlowView) : Prop where
  code : r.code.val = codeOf n
  fs   : r.fs.number.toNat = lo (b a)
  bs   : OptIs (lo (b a) = 0) (fun v => v = b (a + 1)) r.bs?
  st   : OptIs (lo (b a) = 0) (fun v => v = b (a + 2)) r.st?
  fits : a + 3 ≤ n
  le   : n ≤ 64

theorem yields_fcDecode (b : Nat → Byte) {a : Nat} (n : Nat) :
    Yields (fcDecode a (bytesFrom b 0 n)) (fcDecChecks b a n) (FlowViewIs b a n) := by
  unfold fcDecode fcDecChecks
  simp only [length_bytesFrom]
  refine (yields_dlcExact n).bind fun c hc => ?_
  have hn : n ∈ legalLengths := hc.2 ▸ frameBytes_mem c
  refine (yields_raiseIf .inconsistent Iff.rfl).bind fun _ h3 => ?_
  rw [frameByte_bytesFrom b (by omega), frameByte_bytesFrom b (by omega), frameByte_bytesFrom b (by omega)]
  refine (yields_requireType .fc (b a)).bind fun _ _ => ?_
  have hl := legal_le n hn
  rw [flowStatusOf_eq, lo4_toNat]
  by_cases h0 : lo (b a) = 0
  · rw [if_pos h0]
    exact Yields.skip _ (by omega) (yields_ok ⟨hc.1, h0.symm, optIs_some h0 rfl, optIs_some h0 rfl, by omega, hl⟩)
  · rw [if_neg h0]
    by_cases h1 : lo (b a) = 1
    · rw [if_pos h1]
      exact Yields.skip _ (by omega) (yields_ok ⟨hc.1, h1.symm, optIs_none h0, optIs_none h0, by omega, hl⟩)
    · rw [if_neg h1]
      by_cases h2 : lo (b a) = 2
      · rw [if_pos h2]
        exact Yields.skip _ (by omega) (yields_ok ⟨hc.1, h2.symm, optIs_none h0, optIs_none h0, by omega, hl⟩)
      · rw [if_neg h2]
        exact yields_error (by omega)

/-- What the strict decoder of a packet type delivers to PKT_LOAD and PKT_VIEW (R225, R232). -/
structure ViewIs (t : PacketType) (b : Nat → Byte) (a n : Nat) (v : PacketView) : Prop where
  dl  : OptIs (t = .sf ∨ t = .ff) (fun d => d = if t = .sf then sfDecLength b a n else ffDecLength b a) v.dl?
  sn  : OptIs (t = .cf) (fun k => k.toNat = lo (b a)) v.sn?
  fs  : OptIs (t = .fc) (fun f => f.number.toNat = lo (b a)) v.fs?
  bs  : OptIs (t = .fc ∧ lo (b a) = 0) (fun x => x = b (a + 1)) v.bs?
  st  : OptIs (t = .fc ∧ lo (b a) = 0) (fun x => x = b (a + 2)) v.st?
  pay : OptIs (t ≠ .fc) (fun p => p = bytesFrom b (viewStart t b a n) (viewBytes t b a n)) v.pay?
  fits : t ≠ .fc → viewStart t b a n + viewBytes t b a n ≤ n
  legal : n ∈ legalLengths

theorem optIs_imp {α : Type} {p q : Prop} {P : α → Prop} {o : Option α} (h : OptIs p P o) (hpq : p ↔ q) : OptIs q P o :=
  ⟨fun hq => h.some (hpq.2 hq), fun hq => h.none (mt hpq.1 hq)⟩

theorem yields_viewFrame (t : PacketType) (b : Nat → Byte) {a : Nat} (ha : a ≤ 1) (n : Nat) :
    Yields (viewFrame t a (bytesFrom b 0 n)) (decChecks t b a n) (ViewIs t b a n) := by
  have hleg : ∀ {α : Type} {r : Except Err α} {cs : List Check} {P : α → Prop},
      Yields r ((n ∉ legalLengths, .invalidValue) :: cs) P →
      Yields r ((n ∉ legalLengths, .invalidValue) :: cs) (fun v => P v ∧ n ∈ legalLengths) := fun h =>
    ⟨h.1, fun hc => (show Yields _ _ _ from h.2 hc).mono fun _ hp => ⟨hp, not_not.1 hc⟩⟩
  cases t with
  | sf =>
    refine ((hleg (yields_sfDecode b ha n)).bind fun r hr => yields_ok (?_ : ViewIs .sf b a n _) : Yields _ (_ ++ []) _)
    obtain ⟨hr, hn⟩ := hr
    exact ⟨optIs_some (.inl rfl) (by rw [if_pos rfl]; exact hr.dl), optIs_none (by decide), optIs_none (by decide),
      optIs_none (by simp), optIs_none (by simp), optIs_some (by decide) hr.pay, fun _ => hr.fits, hn⟩
  | ff =>
    refine ((hleg (yields_ffDecode b n)).bind fun r hr => yields_ok (?_ : ViewIs .ff b a n _) : Yields _ (_ ++ []) _)
    obtain ⟨hr, hn⟩ := hr
    exact ⟨optIs_some (.inr rfl) (by rw [if_neg (by decide)]; exact hr.dl), optIs_none (by decide), optIs_none (by decide),
      optIs_none (by simp), optIs_none (by simp), optIs_some (by decide) hr.pay, fun _ => hr.fits, hn⟩
  | cf =>
    refine ((hleg (yields_cfDecode b n)).bind fun r hr => yields_ok (?_ : ViewIs .cf b a n _) : Yields _ (_ ++ []) _)
    obtain ⟨hr, hn⟩ := hr
    have hf := hr.fits
    exact ⟨optIs_none (by decide), optIs_some rfl hr.sn, optIs_none (by decide), optIs_none (by simp), optIs_none (by simp),
      optIs_some (by decide) hr.pay, fun _ => by show a + 1 + (n - (a + 1)) ≤ n; omega, hn⟩
  | fc =>
    refine ((hleg (yields_fcDecode b n)).bind fun r hr => yields_ok (?_ : ViewIs .fc b a n _) : Yields _ (_ ++ []) _)
    obtain ⟨hr, hn⟩ := hr
    exact ⟨optIs_none (by decide), optIs_none (by decide), optIs_some rfl hr.fs, optIs_imp hr.bs (by simp),
      optIs_imp hr.st (by simp), optIs_none (by simp), fun h => absurd rfl h, hn⟩

/-! ## Separation time -/

/-- `stmin_time` (R205). -/
theorem stminTime_eq (r : Byte) : (stminTime r).warn = reservedRaw r.toNat ∧
    (stminTime r).t = if r.toNat ≤ 0x7F then 10 * r.toNat else if 0xF1 ≤ r.toNat ∧ r.toNat ≤ 0xF9 then r.toNat - 0xF0
      else 1270 := by
  have := r.isLt
  unfold stminTime reservedRaw
  by_cases h1 : r.toNat ≤ 0x7F
  · rw [if_pos h1, if_pos h1]
    exact ⟨by rw [eq_comm, decide_eq_false_iff_not]; omega, rfl⟩
  · rw [if_neg h1, if_neg h1]
    by_cases h2 : 0xF1 ≤ r.toNat ∧ r.toNat ≤ 0xF9
    · rw [if_pos h2, if_pos h2]
      exact ⟨by rw [eq_comm, decide_eq_false_iff_not]; omega, rfl⟩
    · rw [if_neg h2, if_neg h2]
      exact ⟨by rw [eq_comm, decide_eq_true_iff]; omega, rfl⟩

/-- `stmin_raw` (R206). -/
theorem yields_stminRaw (t : Nat) :
    Yields (stminRaw t) [(¬(t ≤ 1270 ∧ t % 10 = 0) ∧ ¬(1 ≤ t ∧ t ≤ 9), .invalidValue)]
      (fun r => r.toNat = if t ≤ 1270 ∧ t % 10 = 0 then t / 10 else 0xF0 + t) := by
  unfold stminRaw
  by_cases h1 : t ≤ 1270 ∧ t % 10 = 0
  · rw [if_pos h1]
    refine Yields.skip _ (fun h => h.1 h1) (yields_ok ?_)
    rw [if_pos h1, BitVec.toNat_ofNat]
    omega
  · rw [if_neg h1]
    by_cases h2 : 1 ≤ t ∧ t ≤ 9
    · rw [if_pos h2]
      refine Yields.skip _ (fun h => h.2 h2) (yields_ok ?_)
      rw [if_neg h1, BitVec.toNat_ofNat]
      omega
    · rw [if_neg h2]
      exact yields_error ⟨h1, h2⟩

end Sys2Proof.Laws
end

