-- ==== Sys2Proof/Laws/Effects.lean ====
section
/-! SUPPORT. What the shared operations leave alone, composed along a chain of updates (`Effect`), the command words in
numbers, and the effect of an encoder's and a decoder's delivery. -/

namespace Sys2Proof.Laws

open Sys2Proof.Machine Sys2Proof.Claims

/-! ## Command words -/

theorem commandWord_toNat (opc : BitVec 8) (any : Bool) (fmt : BitVec 3) (pm : BitVec 8) :
    (commandWord opc any fmt pm).toNat =
      opc.toNat * 2 ^ 24 + (if any then 2 ^ 23 else 0) + fmt.toNat * 2 ^ 20 + pm.toNat := by
  have h1 := opc.isLt
  have h2 := fmt.isLt
  have h3 := pm.isLt
  have h4 : (BitVec.ofBool any).toNat = if any then 1 else 0 := by cases any <;> rfl
  have h5 : (BitVec.ofBool any).toNat < 2 := by cases any <;> decide
  simp only [commandWord, BitVec.toNat_append]
  rw [shift_or _ h3, BitVec.toNat_ofNat, Nat.zero_mod, Nat.or_zero, Nat.shiftLeft_eq, shift_or _ h2, shift_or _ h5, h4]
  cases any <;> simp <;> omega

theorem commandWord_eq (opc : BitVec 8) (any : Bool) (fmt : BitVec 3) (pm : BitVec 8) :
    commandWord opc any fmt pm = cmdWord opc.toNat any fmt pm := by
  apply BitVec.eq_of_toNat_eq
  have := (commandWord opc any fmt pm).isLt
  rw [commandWord_toNat] at *
  rw [cmdWord, w32, BitVec.toNat_ofNat, Nat.mod_eq_of_lt this]

/-! ## What a chain of updates leaves alone -/

/-- `u` differs from `s` at most in the registers of `written`, the buffer bytes of `stored`, and `PKT`. -/
structure Effect (s u : State) (written : List Reg) (stored : Nat → Prop) : Prop where
  esticky : u.esticky = s.esticky
  ecmd    : u.ecmd = s.ecmd
  cfg     : u.cfg = s.cfg
  regs    : ∀ r, r ∉ written → u.reg r = s.reg r
  bytes   : ∀ k, ¬stored k → u.byteAt k = s.byteAt k
  offs    : u.offs = s.offs
  epoch   : u.epoch = s.epoch
  pending : u.pending = s.pending
  rdata   : u.rdata = s.rdata
  canonical : s.mem.wf → u.mem.wf
  cells   : ∀ P : Nat → Prop, (∀ c ∈ s.mem, P c.1) → (∀ k, stored k → P k) → ∀ c ∈ u.mem, P c.1

variable {s u : State} {written : List Reg} {stored : Nat → Prop}

theorem Effect.refl (s : State) (written : List Reg) (stored : Nat → Prop) : Effect s s written stored :=
  ⟨rfl, rfl, rfl, fun _ _ => rfl, fun _ _ => rfl, rfl, rfl, rfl, rfl, fun h => h, fun _ h _ => h⟩

/-- The end `ok` of a command with the effect. -/
theorem Effect.kept (h : Effect s u written stored) : Kept s (u.endOk false) written stored :=
  ⟨rfl, by rw [State.endOk_esticky, stickyWarn_false, h.esticky], h.ecmd, h.cfg, h.regs, h.bytes, h.offs, h.epoch,
    h.pending, h.rdata⟩

theorem Effect.setReg (h : Effect s u written stored) {r : Reg} (hr : r ∈ written) (v : Word) :
    Effect s (u.setReg r v) written stored :=
  ⟨h.esticky, h.ecmd, h.cfg,
    fun q hq => (State.reg_setReg_ne u (fun e : q = r => hq (e.symm ▸ hr)) v).trans (h.regs q hq),
    h.bytes, h.offs, h.epoch, h.pending, h.rdata, h.canonical, h.cells⟩

theorem Effect.setRegByte? (h : Effect s u written stored) {r : Reg} (hr : r ∈ written) (b? : Option Byte) :
    Effect s (u.setRegByte? r b?) written stored := by
  cases b? with
  | none => exact h
  | some b => exact h.setReg hr _

theorem Effect.setRegNat? (h : Effect s u written stored) {r : Reg} (hr : r ∈ written) (n? : Option Nat) :
    Effect s (u.setRegNat? r n?) written stored := by
  cases n? with
  | none => exact h
  | some b => exact h.setReg hr _

theorem Effect.setAddrType? (h : Effect s u written stored) (hr : Reg.aty ∈ written) (a? : Option AddrType) :
    Effect s (u.setAddrType? a?) written stored := by
  cases a? with
  | none => exact h
  | some b => exact h.setReg hr _

theorem Effect.storeBytes (h : Effect s u written stored) {a : Nat} {bs : List Byte}
    (hs : ∀ k, a ≤ k → k < a + bs.length → stored k) : Effect s (u.storeBytes a bs) written stored :=
  ⟨h.esticky, h.ecmd, h.cfg, h.regs,
    fun k hk => by
      rw [State.byteAt_storeBytes_outside _ _ _ (fun hx => hk (hs k hx.1 hx.2))]; exact h.bytes k hk,
    h.offs, h.epoch, h.pending, h.rdata, fun hc => Memory.wf_writeBytes bs (h.canonical hc) a,
    fun P hP hst => Memory.range_writeBytes bs (h.cells P hP hst) fun k h1 h2 => hst k (hs k h1 h2)⟩

theorem Effect.setPkt (h : Effect s u written stored) (p : Packet) : Effect s { u with pkt := p } written stored :=
  ⟨h.esticky, h.ecmd, h.cfg, h.regs, h.bytes, h.offs, h.epoch, h.pending, h.rdata, h.canonical, h.cells⟩

theorem Effect.mono (h : Effect s u written stored) {written' : List Reg} {stored' : Nat → Prop}
    (hw : ∀ r ∈ written, r ∈ written') (hs : ∀ k, stored k → stored' k) : Effect s u written' stored' :=
  ⟨h.esticky, h.ecmd, h.cfg, fun r hr => h.regs r (mt (hw r) hr), fun k hk => h.bytes k (mt (hs k) hk), h.offs, h.epoch,
    h.pending, h.rdata, h.canonical, fun P hP hst => h.cells P hP fun k hk => hst k (hs k hk)⟩

/-- `x[RP]` after a command that writes it last. -/
@[simp] theorem presence_endOk (u : State) (rs : List Reg) (b : Bool) :
    ((u.setPresence rs).endOk b).reg .rp = presenceMask rs := State.reg_setReg_self _ _ _

theorem Effect.regsOnly (h : Effect s u written nowhere) (hp : u.pkt = s.pkt) : RegsOnly s (u.endOk false) written :=
  ⟨h.kept, hp⟩

/-! ## Optional results -/

variable {p : Prop} [Decidable p] {n : Nat}

theorem reg_setRegByte?_ne (u : State) {r q : Reg} (h : q ≠ r) (b? : Option Byte) :
    (u.setRegByte? r b?).reg q = u.reg q := by
  cases b? with
  | none => rfl
  | some b => exact State.reg_setReg_ne u h _

theorem reg_setRegNat?_ne (u : State) {r q : Reg} (h : q ≠ r) (n? : Option Nat) :
    (u.setRegNat? r n?).reg q = u.reg q := by
  cases n? with
  | none => rfl
  | some b => exact State.reg_setReg_ne u h _

theorem reg_setAddrType?_ne (u : State) {q : Reg} (h : q ≠ .aty) (a? : Option AddrType) :
    (u.setAddrType? a?).reg q = u.reg q := by
  cases a? with
  | none => rfl
  | some b => exact State.reg_setReg_ne u h _

/-- A register that takes an optional byte. -/
theorem reg_setRegByte? (u : State) (r : Reg) {b? : Option Byte} (h : OptIs p (fun b => b.toNat = n) b?) :
    (u.setRegByte? r b?).reg r = if p then w32 n else u.reg r := by
  by_cases hp : p
  · obtain ⟨b, rfl, hb⟩ := h.some hp
    rw [if_pos hp, State.setRegByte?_some, State.reg_setReg_self, byte_setWidth hb]
  · rw [h.none hp, if_neg hp, State.setRegByte?_none]

theorem reg_setRegNat? (u : State) (r : Reg) {n? : Option Nat} (h : OptIs p (fun m => m = n) n?) :
    (u.setRegNat? r n?).reg r = if p then w32 n else u.reg r := by
  by_cases hp : p
  · obtain ⟨b, rfl, rfl⟩ := h.some hp
    rw [if_pos hp, State.setRegNat?_some, State.reg_setReg_self]
    rfl
  · rw [h.none hp, if_neg hp, State.setRegNat?_none]

theorem reg_setAddrType? (u : State) {a? : Option AddrType} (h : OptIs p (fun a => a.number = n) a?) :
    (u.setAddrType? a?).reg .aty = if p then w32 n else u.reg .aty := by
  by_cases hp : p
  · obtain ⟨b, rfl, rfl⟩ := h.some hp
    rw [if_pos hp, State.setAddrType?_some, State.reg_setReg_self]
    rfl
  · rw [h.none hp, if_neg hp, State.setAddrType?_none]

theorem presenceMask_append (l m : List Reg) : presenceMask (l ++ m) = presenceMask l ||| presenceMask m := by
  induction l with
  | nil => simp [presenceMask]
  | cons r l ih => simp [presenceMask, ih, BitVec.or_assoc]

theorem presenceMask_present {α : Type} {P : α → Prop} {o : Option α} (r : Reg) (h : OptIs p P o) :
    presenceMask (presentReg r o) = if p then 1#32 <<< r.index.val else 0#32 := by
  by_cases hp : p
  · obtain ⟨b, rfl, _⟩ := h.some hp
    simp [hp, presenceMask]
  · simp [h.none hp, hp, presenceMask]

/-! ## Buffers -/

theorem fb_storeFb (s : State) (i : Nat) (bs : List Byte) (k : Nat) :
    (s.storeFb i bs).fb k = if i ≤ k ∧ k < i + bs.length then bs.getD (k - i) 0#8 else s.fb k := by
  unfold State.fb
  rw [State.storeFb_eq, State.byteAt_storeBytes, Nat.add_sub_add_left]
  congr 1
  simp only [eq_iff_iff]
  omega

theorem pb_storePb (s : State) (bs : List Byte) (k : Nat) :
    (s.storePb 0 bs).pb k = if k < bs.length then bs.getD k 0#8 else s.pb k := by
  unfold State.pb
  rw [State.storePb_eq, State.byteAt_storeBytes, Nat.add_sub_add_left, Nat.sub_zero]
  congr 1
  simp only [eq_iff_iff]
  omega

theorem fb_storePb (s : State) (bs : List Byte) {k : Nat} (h : k < 64) : (s.storePb 0 bs).fb k = s.fb k := by
  unfold State.fb
  rw [State.storePb_eq, State.byteAt_storeBytes_outside _ _ _ (by simp only [fbBase, pbBase]; omega)]

/-- Byte by byte, an encoder's result is the body of a frame (43_single_frame.md R154). -/
theorem body_of_encoded {a c len : Nat} {pci : List Byte} {pay : Nat → Byte} {fill : Byte} {e : Encoded}
    {b : Nat → Byte} (h : EncodedIs a c pci (bytesFrom pay 0 len) fill e)
    (hb : ∀ k, a ≤ k → k < a + e.body.length → b k = e.body.getD (k - a) 0#8) : Body b a (frameBytes c) pci pay len fill := by
  have hlen := h.length
  have hfit := h.fits
  rw [length_bytesFrom] at hfit
  refine ⟨fun j hj => ?_, fun j hj => ?_, fun k h1 h2 => ?_⟩
  · rw [hb _ (by omega) (by omega), Nat.add_sub_cancel_left, h.body, List.append_assoc, List.getD_append _ _ _ _ hj]
  · rw [hb _ (by omega) (by omega), h.body, List.append_assoc, List.getD_append_right _ _ _ _ (by omega),
      List.getD_append _ _ _ _ (by rw [length_bytesFrom]; omega),
      show a + pci.length + j - a - pci.length = j by omega, getD_bytesFrom pay 0 len j _ hj, Nat.zero_add]
  · rw [hb _ (by omega) (by omega), h.body,
      List.getD_append_right _ _ _ _ (by rw [List.length_append, length_bytesFrom]; omega),
      List.getD_eq_getElem?_getD, List.getElem?_replicate, if_pos]
    · rfl
    · rw [List.length_append, length_bytesFrom]
      omega

theorem fill_eq (s : State) : s.fill = filler s := by
  apply BitVec.eq_of_toNat_eq
  simp [State.fill, filler, byte]

/-- What `emit` leaves (R154). -/
theorem leafEncoded_emit {s : State} {a c len : Nat} {pci : List Byte} {e : Encoded}
    (h : EncodedIs a c pci (s.payload len) (filler s) e) : LeafEncoded s ((s.emit a e).endOk false) a c pci len := by
  have hl := h.length
  refine ⟨body_of_encoded h (fun k h1 h2 => ?_), ?_, ?_, presence_endOk _ _ _, Effect.kept ?_, rfl⟩
  · show (s.storeFb a e.body).fb k = _
    rw [fb_storeFb, if_pos ⟨h1, h2⟩]
  · simp [State.emit, dlcBytes_eq, h.code, w32]
  · simp [State.emit, h.code, w32]
  · refine ((((Effect.refl _ _ _).storeBytes fun k h1 h2 => ?_).setReg (by simp) _).setReg (by simp) _).setReg (by simp) _
    simp only [fbBase] at h1 h2
    show _ ∧ _
    omega

theorem frameBytes_le64 (c : Nat) : frameBytes c ≤ 64 := by
  unfold frameBytes
  by_cases h : c < 16
  · exact frameBytes_le ⟨c, h⟩
  · rw [List.getD_eq_default _ _ (by simp [legalLengths]; omega)]
    decide

/-- What the delivery of a payload leaves (R162, R179, R191). -/
theorem pb_deliver (s : State) (pay : List Byte) (k : Nat) :
    (s.deliverPayload pay).pb k = if k < pay.length then pay.getD k 0#8 else s.pb k := pb_storePb s pay k

theorem Effect.deliverPayload (h : Effect s u written stored) (hr : Reg.plen ∈ written) {pay : List Byte}
    (hs : ∀ k, pbSpan pay.length k → stored k) : Effect s (u.deliverPayload pay) written stored := by
  refine (h.storeBytes fun k h1 h2 => hs k ?_).setReg hr _
  simp only [pbBase] at h1 h2
  exact ⟨h1, h2⟩

end Sys2Proof.Laws
end

