-- ==== Sys2Proof/Laws/Encoding.lean ====
section
/-! SUPPORT. Laws of the command word and its decoder: the fields of a word made of fields, and the row that a word
selects. -/

namespace Sys2Proof.Laws

open Sys2Proof.Machine Sys2Proof.Claims

variable (opc : BitVec 8) (any : Bool) (fmt : BitVec 3) (pm : BitVec 8)

/-! ## Fields -/

@[simp] theorem opcOf_commandWord : opcOf (commandWord opc any fmt pm) = opc := by
  apply BitVec.eq_of_toNat_eq
  have h1 := opc.isLt
  have h2 := fmt.isLt
  have h3 := pm.isLt
  simp only [opcOf, BitVec.extractLsb'_toNat, commandWord_toNat, Nat.shiftRight_eq_div_pow]
  cases any <;> simp <;> omega

@[simp] theorem anyOf_commandWord : anyOf (commandWord opc any fmt pm) = any := by
  have h2 := fmt.isLt
  have h3 := pm.isLt
  simp only [anyOf, BitVec.getLsbD, Nat.testBit_eq_decide_div_mod_eq, commandWord_toNat]
  cases any <;> simp <;> omega

@[simp] theorem fmtOf_commandWord : fmtOf (commandWord opc any fmt pm) = fmt := by
  apply BitVec.eq_of_toNat_eq
  have h2 := fmt.isLt
  have h3 := pm.isLt
  simp only [fmtOf, BitVec.extractLsb'_toNat, commandWord_toNat, Nat.shiftRight_eq_div_pow]
  cases any <;> simp <;> omega

@[simp] theorem reservedOf_commandWord : reservedOf (commandWord opc any fmt pm) = 0#12 := by
  apply BitVec.eq_of_toNat_eq
  have h2 := fmt.isLt
  have h3 := pm.isLt
  simp only [reservedOf, BitVec.extractLsb'_toNat, commandWord_toNat, Nat.shiftRight_eq_div_pow]
  cases any <;> simp <;> omega

@[simp] theorem pmOf_commandWord : pmOf (commandWord opc any fmt pm) = pm := by
  apply BitVec.eq_of_toNat_eq
  have h2 := fmt.isLt
  have h3 := pm.isLt
  simp only [pmOf, BitVec.extractLsb'_toNat, commandWord_toNat, Nat.shiftRight_eq_div_pow]
  cases any <;> simp <;> omega

/-- A word with its reserved bits 0 is made of its fields (R81). -/
theorem commandWord_fields {w : Word} (h : reservedOf w = 0#12) :
    commandWord (opcOf w) (anyOf w) (fmtOf w) (pmOf w) = w := by
  have h' : w.toNat / 2 ^ 8 % 2 ^ 12 = 0 := by
    have := congrArg BitVec.toNat h
    simpa [reservedOf, BitVec.extractLsb'_toNat, Nat.shiftRight_eq_div_pow] using this
  apply BitVec.eq_of_toNat_eq
  have hw := w.isLt
  rw [commandWord_toNat]
  simp only [opcOf, anyOf, fmtOf, pmOf, BitVec.extractLsb'_toNat, Nat.shiftRight_eq_div_pow, BitVec.getLsbD,
    Nat.testBit_eq_decide_div_mod_eq]
  by_cases hb : w.toNat / 2 ^ 23 % 2 = 1
  · rw [if_pos (by simpa using hb)]
    simp only [Nat.pow_zero, Nat.div_one] at *
    omega
  · rw [if_neg (by simpa using hb)]
    simp only [Nat.pow_zero, Nat.div_one] at *
    omega

/-! ## Rows -/

/-- The checks of a row, all at once (R86, R87). -/
theorem Row.read_eq_ok {r : Row} {w : Word} {i : Instr} :
    r.read w = .ok i ↔ reservedOf w = 0#12 ∧ (r.takesAny = false → anyOf w = false) ∧ (r.takesFmt = false → fmtOf w = 0#3) ∧
      pmOf w &&& ~~~r.pmAllowed = 0#8 ∧ i = r.make (anyOf w) (fmtOf w) (pmOf w) := by
  unfold Row.read
  by_cases h1 : reservedOf w = 0#12
  · by_cases h2 : r.takesAny = false ∧ anyOf w = true
    · simp [h1, h2]
    · by_cases h3 : r.takesFmt = false ∧ fmtOf w ≠ 0#3
      · simp [h1, h2, h3]
      · by_cases h4 : pmOf w &&& ~~~r.pmAllowed = 0#8
        · simp only [h1, h2, h3, h4, ne_eq, not_true_eq_false, if_false]
          have h2' : r.takesAny = false → anyOf w = false := fun h => by simpa [h] using h2
          have h3' : r.takesFmt = false → fmtOf w = 0#3 := fun h => by simpa [h] using h3
          exact ⟨fun h => ⟨trivial, h2', h3', trivial, (Except.ok.inj h).symm⟩, fun h => congrArg Except.ok h.2.2.2.2.symm⟩
        · simp [h1, h2, h3, h4]
  · simp [h1]

/-- The row a decoded word selects. -/
theorem decode_eq_ok {w : Word} {i : Instr} :
    decode w = .ok i ↔ ∃ r ∈ opcodeTable, r.opc = opcOf w ∧ r.read w = .ok i := by
  unfold decode
  cases h : opcodeTable.find? (fun r => r.opc == opcOf w) with
  | none =>
    rw [List.find?_eq_none] at h
    simp only [reduceCtorEq, false_iff, not_exists, not_and]
    exact fun r hr ho => absurd (by simpa using ho) (h r hr)
  | some q =>
    have hq := List.find?_some h
    have hm := List.mem_of_find?_eq_some h
    refine ⟨fun hr => ⟨q, hm, by simpa using hq, hr⟩, fun ⟨r, hr, ho, hi⟩ => ?_⟩
    have hdist : ∀ n m : Fin 34, opcodeTable[n].opc = opcodeTable[m].opc → n = m := by decide
    obtain ⟨n, hn, rfl⟩ := List.getElem_of_mem hr
    obtain ⟨m, hm', rfl⟩ := List.getElem_of_mem hm
    have := hdist ⟨n, hn⟩ ⟨m, hm'⟩ (ho.trans (by simpa using hq : opcodeTable[m].opc = opcOf w).symm)
    cases this
    exact hi

end Sys2Proof.Laws
end

