-- ==== Sys2Proof/Laws/Packets.lean ====
section
/-! SUPPORT. What the operand groups of the frame and packet commands read, and what packet construction (47_packet.md
R216), the record (R225), the change of addressing (R228) and the view (R232) do. -/

namespace Sys2Proof.Laws

open Sys2Proof.Machine Sys2Proof.Claims

/-! ## Operand groups -/

theorem addrBytes_le (fmt : BitVec 3) : addrBytes fmt ≤ 1 := by unfold addrBytes; split <;> omega

theorem yields_dlcOptional (pm : BitVec 8) (s : State) :
    Yields (optionalOperand pm .dlc (codeOperand (s.reg .dlc))) [(Given pm 5 ∧ 15 < num s .dlc, .invalidValue)]
      (OptIs (Given pm 5) (fun c : Dlc => c.val = num s .dlc)) := yields_optional (yields_code (s.reg .dlc))

/-- The operands of Flow Control, as numbers (46_flow_control.md R210). -/
structure FlowOperandsAre (pm : BitVec 8) (s : State) (o : FlowOperands) : Prop where
  dlc : OptIs (Given pm 5) (fun c : Dlc => c.val = num s .dlc) o.dlc?
  bs  : OptIs (Given pm 6) (fun b : Byte => b.toNat = num s .bs) o.bs?
  st  : OptIs (Given pm 7) (fun b : Byte => b.toNat = num s .st) o.st?
  fs  : o.fs.toNat = num s .fs

theorem yields_flowOperands (pm : BitVec 8) (s : State) :
    Yields (flowOperands pm s) (fcRange pm s) (FlowOperandsAre pm s) := by
  refine (yields_dlcOptional pm s).bind fun c? hc => ?_
  refine (yields_optional (yields_byte (s.reg .bs))).bind fun bs? hb => ?_
  refine (yields_optional (yields_byte (s.reg .st))).bind fun st? ht => ?_
  refine (yields_nibble (s.reg .fs)).last fun fs hf => yields_ok ⟨hc, hb, ht, hf⟩

theorem yields_frame (fmt : BitVec 3) (s : State) :
    Yields (frameOperands fmt s) [formatCheck fmt, (64 < num s .flen, .invalidValue)]
      (fun o => o.a = addrBytes fmt ∧ o.frame = bytesFrom s.fb 0 (num s .flen)) := by
  refine (yields_format fmt).bind fun f hf => ?_
  refine (yields_length _).last fun n hn => yields_ok ⟨?_, ?_⟩
  · subst hf; exact aiBytes_eq f
  · obtain ⟨rfl, _⟩ := hn; rfl


/-! ## Construction -/

theorem hasTarget_or (f : Format) : f.number.toNat = 2 → hasTarget f.number = true := by cases f <;> decide

/-- The addressing bytes of normalised values (42_addressing.md R134, R140): they always exist. -/
theorem aiEncData_normalised {fmt : BitVec 3} {pm : BitVec 8} {s : State} {v : Addressing} {r : Normalised}
    (hv : AddressingIs fmt pm s v) (hr : NormalisedIs s.offs fmt pm s r) :
    ∃ d, aiEncData v.fmt r.ta? r.ae? = .ok d ∧ d.length = addrBytes fmt ∧
      (addrBytes fmt = 1 → d = [addressByte fmt s]) := by
  obtain ⟨f, aty, id?, ta?, sa?, ae?⟩ := v
  obtain ⟨ri, rt, rs, re⟩ := r
  have hf := hv.fmt
  have h2 := hr.ta
  have h4 := hr.ae
  simp only at hf h2 h4
  subst hf
  cases f with
  | n11 => exact ⟨[], rfl, rfl, fun h => absurd h (by decide)⟩
  | nf => exact ⟨[], rfl, rfl, fun h => absurd h (by decide)⟩
  | ext =>
    obtain ⟨b, rfl, hb⟩ := h2.some (by decide)
    refine ⟨[b], rfl, rfl, fun _ => ?_⟩
    rw [byte_eq hb]
    rfl
  | m11 =>
    obtain ⟨b, rfl, hb⟩ := h4.some (by decide)
    refine ⟨[b], rfl, rfl, fun _ => ?_⟩
    rw [byte_eq hb]
    rfl
  | m29 =>
    obtain ⟨b, rfl, hb⟩ := h4.some (by decide)
    refine ⟨[b], rfl, rfl, fun _ => ?_⟩
    rw [byte_eq hb]
    rfl

/-- `PKT`'s addressing fields from normalised values (R216, R225, R228). -/
theorem addressingSet_of {p : Packet} {f : Format} {aty : AddrType} {id : Word} {ta? sa? ae? : Option Byte} {idn : Nat}
    {ta sa ae : Byte} (hid : id = w32 idn) (ht : OptIs (hasTarget f.number = true) (fun b => b = ta) ta?)
    (hs : OptIs (structured f.number = true) (fun b => b = sa) sa?)
    (he : OptIs (hasExtension f.number = true) (fun b => b = ae) ae?) :
    AddressingSet p (p.setAddressing f aty id ta? sa? ae?) f.number aty.number idn ta sa ae := by
  have key : ∀ {c : Prop} [Decidable c] {o : Option Byte} {b : Byte} (old : Byte), OptIs c (fun x => x = b) o →
      o.isSome = decide c ∧ o.getD old = if c then b else old := by
    intro c _ o b old h
    by_cases hc : c
    · obtain ⟨x, rfl, rfl⟩ := h.some hc
      simp [hc]
    · simp [h.none hc, hc]
  refine ⟨rfl, rfl, hid, ?_, (key p.ta ht).2, ?_, (key p.sa hs).2, ?_, (key p.ae he).2⟩
  · show ta?.isSome = _
    rw [(key p.ta ht).1, Bool.decide_eq_true]
  · show sa?.isSome = _
    rw [(key p.sa hs).1, Bool.decide_eq_true]
  · show ae?.isSome = _
    rw [(key p.ae he).1, Bool.decide_eq_true]

theorem optIs_byte {c : Prop} {n : Nat} {o : Option Byte} (h : OptIs c (fun b => b.toNat = n) o) :
    OptIs c (fun b => b = byte n) o :=
  ⟨fun hc => (h.some hc).imp fun _ hx => ⟨hx.1, byte_eq hx.2⟩, h.none⟩

/-- `PKT.DATA` after a frame is written to it. -/
theorem packetByte_write (s u : State) (frame : List Byte) (he : u.epoch = s.epoch)
    (hp : u.pkt.data = s.pkt.data.writeBytes 0 frame) (k : Nat) :
    u.packetByte k = if k < frame.length then frame.getD k 0#8 else s.packetByte k := by
  unfold State.packetByte
  rw [hp, he, Memory.read_writeBytes]
  by_cases h : k < frame.length
  · rw [if_pos (by omega), if_pos h]; rfl
  · rw [if_neg (by omega), if_neg h]

theorem and_of_right {p q : Prop} (hq : q) (hp : q → p) : p ∧ q := ⟨hp hq, hq⟩

/-- `pkt_build` (R216): its checks in order and what it leaves. -/
theorem yields_pktBuild {fmt : BitVec 3} {pm : BitVec 8} {s : State} {v : Addressing} {type : PacketType}
    {enc : Nat → Except Err Encoded} {own : List Check} {c : Nat} {pci : List Byte} {len : Nat} (hv : AddressingIs fmt pm s v)
    (henc : Yields (enc (addrBytes fmt)) own (EncodedIs (addrBytes fmt) c pci (s.payload len) (filler s))) :
    Yields (pktBuild v type enc s) (validateChecks s.offs fmt pm s ++ own ++ [(frameBytes c < 2, .invalidValue)])
      (fun u => Built s (u.endOk false) fmt pm type c pci len ∧
        Effect s u [.flen, .dlc, .id, .rp] (fbSpan 0 (frameBytes c)) ∧
        ∃ frame r, frame.length = frameBytes c ∧ aiValidate s.offs v = .ok r ∧
          u.pkt = { (s.pkt.setAddressing v.fmt v.aty r.id r.ta? r.sa? r.ae?).setFrame type u.pkt.dlc frame with
            isRecord := false, dir := .tx, ts := 0#64 }) := by
  rw [List.append_assoc]
  refine (yields_aiValidate s.offs hv).value.bind fun r hr => ?_
  obtain ⟨hr, hrv⟩ := hr
  obtain ⟨d, hd, hdl, hdb⟩ := aiEncData_normalised hv hr
  rw [hd, ok_bind, aiBytes_eq, hv.fmt]
  refine henc.bind fun e he => ?_
  rw [dlcBytes_eq, he.code]
  refine (yields_raiseIf .invalidValue Iff.rfl).bind (ds := []) fun _ _ => yields_ok ?_
  have hl := he.length
  have hfl : (d ++ e.body).length = frameBytes c := by rw [List.length_append, hdl]; exact hl
  obtain ⟨f, aty, id?, ta?, sa?, ae?⟩ := v
  have hf := hv.fmt
  have hat := hv.aty
  simp only at hf hat
  subst hf
  have hset := addressingSet_of (p := s.pkt) (aty := aty) hr.id (optIs_byte hr.ta) (optIs_byte hr.sa) (optIs_byte hr.ae)
  have hfb : ∀ k, (s.storeFb 0 (d ++ e.body)).fb k = if k < frameBytes c then (d ++ e.body).getD k 0#8 else s.fb k := fun k => by
    rw [fb_storeFb, hfl, Nat.sub_zero, Nat.zero_add]
    congr 1
    simp only [eq_iff_iff]
    omega
  have h64 := frameBytes_le64 c
  refine and_of_right ⟨?_, d ++ e.body, r, hfl, hrv, rfl⟩ fun heff =>
    { address := fun h1 => ?_, body := body_of_encoded he fun k h1 h2 => ?_, data := fun k => ?_, valid := rfl,
      isRecord := rfl, addressing := ⟨hset.format, hset.type.trans hat, hset.identifier, hset.hasTa, hset.target, hset.hasSa,
        hset.source, hset.hasAe, hset.extension⟩, ptype := rfl, pdlc := he.code, plen := ?_, dir := rfl, ts := rfl,
      flen := ?_, dlc := ?_, id := ?_, rp := presence_endOk _ _ _, kept := heff.1.kept }
  · refine Effect.setReg (Effect.setReg (Effect.setReg (Effect.setReg ((Effect.setPkt (Effect.refl _ _ _) _).storeBytes
      fun k h1 h2 => ?_) (by simp) _) (by simp) _) (by simp) _) (by simp) _
    rw [hfl] at h2
    exact ⟨h1, by simp only [fbBase] at h2; omega⟩
  · refine (hfb 0).trans ?_
    rw [if_pos (by omega), hdb h1]
    rfl
  · refine (hfb k).trans ?_
    rw [if_pos (by omega), List.getD_append_right _ _ _ _ (by omega), hdl]
  · refine Eq.trans (packetByte_write s _ (d ++ e.body) ?_ ?_ k) ?_
    · rfl
    · rfl
    rw [hfl]
    by_cases hk : k < frameBytes c
    · rw [if_pos hk, if_pos hk]
      exact ((hfb k).trans (if_pos hk)).symm
    · rw [if_neg hk, if_neg hk]
  · show (BitVec.ofNat 7 (dlcBytes e.code)).toNat = _
    rw [dlcBytes_eq, he.code, BitVec.toNat_ofNat]
    omega
  · simp [w32]
  · simp [w32]
  · simp [hr.id]

end Sys2Proof.Laws
end

