-- ==== Sys2Proof/Laws/Exec.lean ====
section
/-! SUPPORT. Every command in one form: its checks and effect (`commandResult`) and its end (`exec_eq`), and what the
effect of each leaves alone (`commandResult_effect`). -/

namespace Sys2Proof.Laws

open Sys2Proof.Machine Sys2Proof.Claims

/-- The checks and the effect of a command, before `STATUS` is written. -/
def commandResult : Instr → State → Except Err State
  | .nop, s => .ok s
  | .sreset, s => .ok s.softReset
  | .clrstk, s => .ok { s with esticky := 0#32, ecmd := 0#32 }
  | .idIsstd, s => .ok (s.setTruth (isStandard (s.reg .id)))
  | .idIsext, s => .ok (s.setTruth (isExtended (s.reg .id)))
  | .idClassify fmt pm, s => idClassifyResult fmt pm s
  | .idEncode fmt, s => idEncodeResult fmt s
  | .idDecode fmt, s => idDecodeResult fmt s
  | .dlcDecode, s => dlcDecodeResult s
  | .dlcEncode, s => dlcEncodeResult s
  | .dlcMin, s => dlcMinResult s
  | .aiNbytes fmt, s => aiNbytesResult fmt s
  | .aiEncdata fmt pm, s => aiEncdataResult fmt pm s
  | .aiDecode fmt, s => aiDecodeResult fmt s
  | .aiValidate fmt pm, s => aiValidateResult fmt pm s
  | .ptGet fmt, s => ptGetResult fmt s
  | .sfEnc any fmt pm, s => sfEncResult any fmt pm s
  | .sfDec fmt, s => sfDecResult fmt s
  | .ffEnc any fmt pm, s => ffEncResult any fmt pm s
  | .ffDec fmt, s => ffDecResult fmt s
  | .cfEnc any fmt pm, s => cfEncResult any fmt pm s
  | .cfDec fmt, s => cfDecResult fmt s
  | .fcEnc any fmt pm, s => fcEncResult any fmt pm s
  | .fcDec fmt, s => fcDecResult fmt s
  | .stminDec, s => stminDecResult s
  | .stminEnc, s => stminEncResult s
  | .pktSf any fmt pm, s => pktSfResult any fmt pm s
  | .pktFf any fmt pm, s => pktFfResult any fmt pm s
  | .pktCf any fmt pm, s => pktCfResult any fmt pm s
  | .pktFc any fmt pm, s => pktFcResult any fmt pm s
  | .pktLoad fmt, s => pktLoadResult fmt s
  | .pktSetai fmt pm, s => pktSetaiResult fmt pm s
  | .pktView, s => pktViewResult s
  | .pktClear, s => .ok { s with pkt := { s.pkt with valid := false } }

/-- STMIN_DEC warns on a reserved raw value, when its operand is in range at all (46_flow_control.md R207, R212). -/
theorem execStminDec_eq (s : State) :
    execStminDec s = concludeWith (encode .stminDec) s (reservedRaw (num s .st)) (stminDecResult s) := by
  unfold execStminDec stminDecResult
  by_cases h : 0xFF < (s.reg .st).toNat
  · rw [show byteOperand (s.reg .st) = .error .invalidValue from (yields_byte (s.reg .st)).1 h]
    rfl
  · have hb : ((s.reg .st).setWidth 8).toNat = num s .st := by
      rw [BitVec.toNat_setWidth, num]
      omega
    rw [(stminTime_eq _).1, hb]

/-- Every command ends by the one conclusion, with the warning of R254. -/
theorem exec_eq (i : Instr) (s : State) : exec i s = concludeWith (encode i) s (warns i s) (commandResult i s) := by
  cases i
  case stminDec =>
    rw [show warns .stminDec s = reservedRaw (num s .st) by simp [warns]]
    exact execStminDec_eq s
  all_goals
    rw [show warns _ s = false by simp [warns]]
    rfl

/-- The two ends of a command. -/
theorem exec_next {i : Instr} {s t : State} (h : exec i s = .next t) :
    (∃ u, commandResult i s = .ok u ∧ t = u.endOk (warns i s)) ∨
      (∃ e, commandResult i s = .error e ∧ t = s.endError e (encode i)) := by
  rw [exec_eq] at h
  exact concludeWith_next h

/-- Where a command may store, by the two tables of Safety.lean. -/
def mayStore (i : Instr) (k : Nat) : Prop := (mayStoreFb i = true ∧ fbSpan 0 64 k) ∨ (mayStorePb i = true ∧ pbSpan 64 k)

theorem bind_ok {α β : Type} {x : Except Err α} {f : α → Except Err β} {b : β} (h : (x >>= f) = .ok b) :
    ∃ a, x = .ok a ∧ f a = .ok b := bind_eq_ok.1 h

variable {s u : State} {written : List Reg} {stored : Nat → Prop}

theorem Effect.emit (h : Effect s u written stored) (h1 : Reg.flen ∈ written) (h2 : Reg.dlc ∈ written)
    (h3 : Reg.rp ∈ written) {a : Nat} {e : Encoded} (hs : ∀ k, 0x100 ≤ k → k < 0x100 + (a + e.body.length) → stored k) :
    Effect s (u.emit a e) written stored :=
  (((h.storeBytes fun k k1 k2 => hs k (by simp only [fbBase] at k1; omega) (by simp only [fbBase] at k2; omega)).setReg h1
    _).setReg h2 _).setReg h3 _

/-- The effect of an encoder's result (43_single_frame.md R154). -/
theorem emit_effect {a c : Nat} {pci pay : List Byte} {fill : Byte} {e : Encoded} (h : EncodedIs a c pci pay fill e)
    (i : Instr) (hw : mayWrite i = [.flen, .dlc, .rp]) (hs : mayStoreFb i = true) :
    Effect s (s.emit a e) (mayWrite i) (mayStore i) := by
  refine (Effect.refl _ _ _).emit (by rw [hw]; decide) (by rw [hw]; decide) (by rw [hw]; decide) fun k h1 h2 => .inl ⟨hs, h1, ?_⟩
  have := h.length
  have := frameBytes_le64 c
  omega

theorem payload_length (s : State) : (s.payload (num s .plen)).length = num s .plen := length_bytesFrom _ _ _

/-- The effect of a build command (47_packet.md R216). -/
theorem built_effect {c : Nat} (h : Effect s u [.flen, .dlc, .id, .rp] (fbSpan 0 (frameBytes c))) (i : Instr)
    (hw : mayWrite i = [.flen, .dlc, .id, .rp]) (hs : mayStoreFb i = true) : Effect s u (mayWrite i) (mayStore i) :=
  h.mono (fun _ hr => hw ▸ hr) fun _ hk => .inl ⟨hs, hk.1, by
    have := hk.2
    have := frameBytes_le64 c
    omega⟩

/-- The effect of the packet-type part of a view (R232). -/
theorem viewEffect (h : Effect s u (mayWrite .pktView) (mayStore .pktView)) (v : PacketView)
    (hp : ∀ pay, v.pay? = some pay → pay.length ≤ 64) :
    Effect s (u.deliverView v) (mayWrite .pktView) (mayStore .pktView) := by
  refine (((((?_ : Effect s _ _ _).setRegNat? (by decide) _).setRegNat? (by decide) _).setRegNat? (by decide) _).setRegByte?
    (by decide) _).setRegByte? (by decide) _
  cases hv : v.pay? with
  | none => exact h
  | some pay =>
    have := hp pay hv
    exact h.deliverPayload (by decide) fun k hk => .inr ⟨rfl, hk.1, by have := hk.2; omega⟩

/-- What the effect of a command leaves alone (10_state.md R22, R38), SRESET and CLRSTK apart. -/
theorem commandResult_effect {i : Instr} {s u : State} (h : commandResult i s = .ok u) (h1 : i ≠ .sreset)
    (h2 : i ≠ .clrstk) : Effect s u (mayWrite i) (mayStore i) := by
  cases i
  case sreset => exact absurd rfl h1
  case clrstk => exact absurd rfl h2
  case nop => cases h; exact Effect.refl _ _ _
  case pktClear => cases h; exact (Effect.refl _ _ _).setPkt _
  case idIsstd => cases h; exact ((Effect.refl _ _ _).setReg (by simp [mayWrite]) _).setReg (by simp [mayWrite]) _
  case idIsext => cases h; exact ((Effect.refl _ _ _).setReg (by simp [mayWrite]) _).setReg (by simp [mayWrite]) _
  case idClassify fmt pm =>
    obtain ⟨_, _, h⟩ := bind_ok h
    obtain ⟨_, _, h⟩ := bind_ok h
    obtain ⟨_, _, h⟩ := bind_ok h
    cases h
    exact (((Effect.refl _ _ _).setReg (by simp [mayWrite]) _).setReg (by simp [mayWrite]) _)
  case idEncode fmt =>
    obtain ⟨_, _, h⟩ := bind_ok h
    obtain ⟨_, _, h⟩ := bind_ok h
    obtain ⟨_, _, h⟩ := bind_ok h
    obtain ⟨_, _, h⟩ := bind_ok h
    obtain ⟨_, _, h⟩ := bind_ok h
    cases h
    exact (((Effect.refl _ _ _).setReg (by simp [mayWrite]) _).setReg (by simp [mayWrite]) _)
  case idDecode fmt =>
    obtain ⟨_, _, h⟩ := bind_ok h
    obtain ⟨_, _, h⟩ := bind_ok h
    obtain ⟨_, _, h⟩ := bind_ok h
    obtain ⟨_, _, h⟩ := bind_ok h
    cases h
    exact (((((Effect.refl _ _ _).setReg (by simp [mayWrite]) _).setReg (by simp [mayWrite]) _).setReg (by simp [mayWrite]) _).setReg (by simp [mayWrite]) _)
  case dlcDecode =>
    obtain ⟨_, _, h⟩ := bind_ok h
    cases h
    exact (((Effect.refl _ _ _).setReg (by simp [mayWrite]) _).setReg (by simp [mayWrite]) _)
  case dlcEncode =>
    obtain ⟨_, _, h⟩ := bind_ok h
    cases h
    exact (((Effect.refl _ _ _).setReg (by simp [mayWrite]) _).setReg (by simp [mayWrite]) _)
  case dlcMin =>
    obtain ⟨_, _, h⟩ := bind_ok h
    cases h
    exact (((Effect.refl _ _ _).setReg (by simp [mayWrite]) _).setReg (by simp [mayWrite]) _)
  case aiNbytes fmt =>
    obtain ⟨_, _, h⟩ := bind_ok h
    cases h
    exact (((Effect.refl _ _ _).setReg (by simp [mayWrite]) _).setReg (by simp [mayWrite]) _)
  case aiEncdata fmt pm =>
    obtain ⟨f, hf, h⟩ := bind_ok h
    obtain ⟨_, _, h⟩ := bind_ok h
    obtain ⟨_, _, h⟩ := bind_ok h
    obtain ⟨d, hd, h⟩ := bind_ok h
    cases h
    refine (((Effect.refl _ _ _).storeBytes fun k k1 k2 => .inl ⟨rfl, k1, ?_⟩).setReg (by simp [mayWrite]) _).setReg (by simp [mayWrite]) _
    rw [((yields_aiEncData f _ _).passed hd).1.1] at k2
    have := addrBytes_le f.number
    simp only [fbBase] at k2
    omega
  case aiDecode fmt =>
    obtain ⟨_, _, h⟩ := bind_ok h
    obtain ⟨_, _, h⟩ := bind_ok h
    obtain ⟨_, _, h⟩ := bind_ok h
    obtain ⟨_, _, h⟩ := bind_ok h
    cases h
    exact (((((Effect.refl _ _ _).setAddrType? (by simp [mayWrite]) _).setRegByte? (by simp [mayWrite]) _).setRegByte? (by simp [mayWrite]) _).setRegByte?
      (by simp [mayWrite]) _).setReg (by simp [mayWrite]) _
  case aiValidate fmt pm =>
    obtain ⟨_, _, h⟩ := bind_ok h
    obtain ⟨_, _, h⟩ := bind_ok h
    cases h
    exact (((((Effect.refl _ _ _).setReg (by simp [mayWrite]) _).setRegByte? (by simp [mayWrite]) _).setRegByte? (by simp [mayWrite]) _).setRegByte?
      (by simp [mayWrite]) _).setReg (by simp [mayWrite]) _
  case ptGet fmt =>
    obtain ⟨_, _, h⟩ := bind_ok h
    obtain ⟨_, _, h⟩ := bind_ok h
    obtain ⟨_, _, h⟩ := bind_ok h
    split at h
    · cases h
      exact (((Effect.refl _ _ _).setReg (by simp [mayWrite]) _).setReg (by simp [mayWrite]) _)
    · cases h
  case sfEnc any fmt pm =>
    obtain ⟨f, hf, h⟩ := bind_ok h
    obtain ⟨c?, hc, h⟩ := bind_ok h
    obtain ⟨n, hn, h⟩ := bind_ok h
    obtain ⟨e, he, h⟩ := bind_ok h
    cases h
    obtain ⟨rfl, _⟩ := ((yields_length _).passed hn).1
    exact emit_effect ((yields_sfEncode (payload_length s) ((yields_dlcOptional pm s).passed hc).1 s.fill).passed he).1 _
      rfl rfl
  case ffEnc any fmt pm =>
    obtain ⟨f, hf, h⟩ := bind_ok h
    obtain ⟨c?, hc, h⟩ := bind_ok h
    obtain ⟨n, hn, h⟩ := bind_ok h
    obtain ⟨e, he, h⟩ := bind_ok h
    cases h
    obtain ⟨rfl, _⟩ := ((yields_length _).passed hn).1
    exact emit_effect ((yields_ffEncode (payload_length s) ((yields_dlcOptional pm s).passed hc).1 s.fill).passed he).1 _
      rfl rfl
  case cfEnc any fmt pm =>
    obtain ⟨f, hf, h⟩ := bind_ok h
    obtain ⟨c?, hc, h⟩ := bind_ok h
    obtain ⟨sn, hsn, h⟩ := bind_ok h
    obtain ⟨n, hn, h⟩ := bind_ok h
    obtain ⟨e, he, h⟩ := bind_ok h
    cases h
    obtain ⟨rfl, _⟩ := ((yields_length _).passed hn).1
    exact emit_effect ((yields_cfEncode (payload_length s) ((yields_dlcOptional pm s).passed hc).1 ((yields_nibble _).passed hsn).1 s.fill).passed he).1 _
      rfl rfl
  case fcEnc any fmt pm =>
    obtain ⟨f, hf, h⟩ := bind_ok h
    obtain ⟨o, ho, h⟩ := bind_ok h
    obtain ⟨e, he, h⟩ := bind_ok h
    cases h
    have hfo := ((yields_flowOperands pm s).passed ho).1
    have ha : aiBytes f ≤ 1 := aiBytes_eq f ▸ addrBytes_le _
    exact emit_effect ((yields_fcEncode ha hfo.dlc hfo.bs hfo.st hfo.fs (fill_eq s)).passed he).1 _ rfl rfl
  case sfDec fmt =>
    obtain ⟨o, ho, h⟩ := bind_ok h
    obtain ⟨r, hr, h⟩ := bind_ok h
    cases h
    obtain ⟨a, fr⟩ := o
    obtain ⟨rfl, rfl⟩ := ((yields_frame fmt s).passed ho).1
    have hv := ((yields_sfDecode s.fb (addrBytes_le fmt) (num s .flen)).passed hr).1
    have hp := congrArg List.length hv.pay
    have hf := hv.fits
    have hl := hv.le
    rw [length_bytesFrom] at hp
    exact (((((Effect.refl _ _ _).deliverPayload (by simp [mayWrite]) fun k hk => .inr ⟨rfl, hk.1, by have := hk.2; omega⟩).setReg
      (by simp [mayWrite]) _).setReg (by simp [mayWrite]) _).setReg (by simp [mayWrite]) _)
  case ffDec fmt =>
    obtain ⟨o, ho, h⟩ := bind_ok h
    obtain ⟨r, hr, h⟩ := bind_ok h
    cases h
    obtain ⟨a, fr⟩ := o
    obtain ⟨rfl, rfl⟩ := ((yields_frame fmt s).passed ho).1
    have hv := ((yields_ffDecode s.fb (num s .flen)).passed hr).1
    have hp := congrArg List.length hv.pay
    have hf := hv.fits
    have hl := hv.le
    rw [length_bytesFrom] at hp
    exact (((((Effect.refl _ _ _).deliverPayload (by simp [mayWrite]) fun k hk => .inr ⟨rfl, hk.1, by have := hk.2; omega⟩).setReg
      (by simp [mayWrite]) _).setReg (by simp [mayWrite]) _).setReg (by simp [mayWrite]) _)
  case cfDec fmt =>
    obtain ⟨o, ho, h⟩ := bind_ok h
    obtain ⟨r, hr, h⟩ := bind_ok h
    cases h
    obtain ⟨a, fr⟩ := o
    obtain ⟨rfl, rfl⟩ := ((yields_frame fmt s).passed ho).1
    have hv := ((yields_cfDecode s.fb (num s .flen)).passed hr).1
    have hp := congrArg List.length hv.pay
    have hf := hv.fits
    have hl := hv.le
    rw [length_bytesFrom] at hp
    exact (((((Effect.refl _ _ _).deliverPayload (by simp [mayWrite]) fun k hk => .inr ⟨rfl, hk.1, by have := hk.2; omega⟩).setReg
      (by simp [mayWrite]) _).setReg (by simp [mayWrite]) _).setReg (by simp [mayWrite]) _)
  case fcDec fmt =>
    obtain ⟨_, _, h⟩ := bind_ok h
    obtain ⟨_, _, h⟩ := bind_ok h
    cases h
    exact (((((Effect.refl _ _ _).setReg (by simp [mayWrite]) _).setReg (by simp [mayWrite]) _).setRegByte? (by simp [mayWrite]) _).setRegByte? (by simp [mayWrite]) _).setReg (by simp [mayWrite]) _
  case stminDec =>
    obtain ⟨_, _, h⟩ := bind_ok h
    cases h
    exact (((Effect.refl _ _ _).setReg (by simp [mayWrite]) _).setReg (by simp [mayWrite]) _)
  case stminEnc =>
    obtain ⟨_, _, h⟩ := bind_ok h
    cases h
    exact (((Effect.refl _ _ _).setReg (by simp [mayWrite]) _).setReg (by simp [mayWrite]) _)
  case pktSf any fmt pm =>
    obtain ⟨v, hv, h⟩ := bind_ok h
    obtain ⟨c?, hc, h⟩ := bind_ok h
    obtain ⟨n, hn, h⟩ := bind_ok h
    obtain ⟨rfl, _⟩ := ((yields_length _).passed hn).1
    exact built_effect ((yields_pktBuild ((yields_addressing fmt pm s).passed hv).1
      ((yields_sfEncode (payload_length s) ((yields_dlcOptional pm s).passed hc).1 s.fill).mono fun _ he =>
        fill_eq s ▸ he)).passed h).1.2.1 _ rfl rfl
  case pktFf any fmt pm =>
    obtain ⟨v, hv, h⟩ := bind_ok h
    obtain ⟨c?, hc, h⟩ := bind_ok h
    obtain ⟨n, hn, h⟩ := bind_ok h
    obtain ⟨rfl, _⟩ := ((yields_length _).passed hn).1
    exact built_effect ((yields_pktBuild ((yields_addressing fmt pm s).passed hv).1
      ((yields_ffEncode (payload_length s) ((yields_dlcOptional pm s).passed hc).1 s.fill).mono fun _ he =>
        fill_eq s ▸ he)).passed h).1.2.1 _ rfl rfl
  case pktCf any fmt pm =>
    obtain ⟨v, hv, h⟩ := bind_ok h
    obtain ⟨c?, hc, h⟩ := bind_ok h
    obtain ⟨sn, hsn, h⟩ := bind_ok h
    obtain ⟨n, hn, h⟩ := bind_ok h
    obtain ⟨rfl, _⟩ := ((yields_length _).passed hn).1
    exact built_effect ((yields_pktBuild ((yields_addressing fmt pm s).passed hv).1
      ((yields_cfEncode (payload_length s) ((yields_dlcOptional pm s).passed hc).1 ((yields_nibble _).passed hsn).1 s.fill).mono fun _ he =>
        fill_eq s ▸ he)).passed h).1.2.1 _ rfl rfl
  case pktFc any fmt pm =>
    obtain ⟨v, hv, h⟩ := bind_ok h
    obtain ⟨o, ho, h⟩ := bind_ok h
    have hfo := ((yields_flowOperands pm s).passed ho).1
    exact built_effect ((yields_pktBuild (len := 0) ((yields_addressing fmt pm s).passed hv).1
      ((yields_fcEncode (addrBytes_le _) hfo.dlc hfo.bs hfo.st hfo.fs (fill_eq s)).mono fun _ he =>
        fill_eq s ▸ he)).passed h).1.2.1 _ rfl rfl
  case pktLoad fmt =>
    obtain ⟨_, _, h⟩ := bind_ok h
    obtain ⟨_, _, h⟩ := bind_ok h
    obtain ⟨_, _, h⟩ := bind_ok h
    obtain ⟨_, _, h⟩ := bind_ok h
    obtain ⟨_, _, h⟩ := bind_ok h
    obtain ⟨_, _, h⟩ := bind_ok h
    obtain ⟨_, _, h⟩ := bind_ok h
    obtain ⟨_, _, h⟩ := bind_ok h
    obtain ⟨_, _, h⟩ := bind_ok h
    obtain ⟨_, _, h⟩ := bind_ok h
    obtain ⟨_, _, h⟩ := bind_ok h
    cases h
    exact ((Effect.refl _ _ _).setPkt _ |>.setReg (by simp [mayWrite]) _).setReg (by simp [mayWrite]) _
  case pktSetai fmt pm =>
    obtain ⟨_, _, h⟩ := bind_ok h
    obtain ⟨_, _, h⟩ := bind_ok h
    obtain ⟨_, _, h⟩ := bind_ok h
    obtain ⟨_, _, h⟩ := bind_ok h
    obtain ⟨_, _, h⟩ := bind_ok h
    obtain ⟨_, _, h⟩ := bind_ok h
    cases h
    exact ((Effect.refl _ _ _).setPkt _ |>.setReg (by simp [mayWrite]) _).setReg (by simp [mayWrite]) _
  case pktView =>
    obtain ⟨_, _, h⟩ := bind_ok h
    obtain ⟨v, hv, h⟩ := bind_ok h
    cases h
    have hvi := ((yields_viewFrame s.pkt.ptype s.packetByte (a := aiBytes s.pkt.fmt) (aiBytes_eq _ ▸ addrBytes_le _)
      s.pkt.len.toNat).passed hv).1
    have hl := legal_le _ hvi.legal
    have hpay : ∀ pay, v.pay? = some pay → pay.length ≤ 64 := fun pay hp => by
      by_cases ht : s.pkt.ptype = .fc
      · rw [hvi.pay.none (by simp [ht])] at hp; cases hp
      · obtain ⟨x, hx, hxp⟩ := hvi.pay.some ht
        have := hvi.fits ht
        rw [hx] at hp
        cases hp
        rw [hxp, length_bytesFrom]
        omega
    refine Effect.setReg (Effect.setReg (viewEffect (Effect.setReg (Effect.setReg (Effect.setReg (Effect.setReg
      (Effect.storeBytes ?_ fun k k1 k2 => .inl ⟨rfl, k1, ?_⟩) (by simp [mayWrite]) _) (by simp [mayWrite]) _) (by simp [mayWrite]) _) (by simp [mayWrite]) _)
      v hpay) (by simp [mayWrite]) _) (by simp [mayWrite]) _
    · exact ((((((Effect.refl _ _ _).setReg (by simp [mayWrite]) _).setReg (by simp [mayWrite]) _).setReg (by simp [mayWrite]) _).setRegByte?
        (by simp [mayWrite]) _).setRegByte? (by simp [mayWrite]) _).setRegByte? (by simp [mayWrite]) _
    · rw [State.packetFrame, length_bytesFrom] at k2
      simp only [fbBase] at k2
      omega

end Sys2Proof.Laws
end

