-- ==== Sys2Proof/Laws/PacketSteps.lean ====
section
/-! SUPPORT. How each command leaves `PKT` (47_packet.md R216, R225, R226, R228, R230, R234): one inductive relation, which
the packet invariant and the claims about `PKT` cite instead of the meanings. -/

namespace Sys2Proof.Laws

open Sys2Proof.Machine Sys2Proof.Claims

/-- How a command leaves `PKT`: as it was, cleared, with a packet built, with a record, or with its addressing changed. -/
inductive PacketStep (i : Instr) (s : State) : Packet → Prop
  | same : PacketStep i s s.pkt
  | softReset : i = .sreset → PacketStep i s { Packet.reset with data := s.pkt.data }
  | clear : i = .pktClear → PacketStep i s { s.pkt with valid := false }
  | build (fmt : BitVec 3) (pm : BitVec 8) (v : Addressing) (r : Normalised) (d : List Byte) (t : PacketType)
      (e : Encoded) (pci pay : List Byte) (fill : Byte) :
      replacesPacket i = true → AddressingIs fmt pm s v → aiValidate s.offs v = .ok r →
      aiEncData v.fmt r.ta? r.ae? = .ok d → EncodedIs (addrBytes fmt) e.code.val pci pay fill e →
      (∀ b, pci.head? = some b → hi b = t.number) → pci ≠ [] → 2 ≤ dlcBytes e.code →
      PacketStep i s
        { (s.pkt.setAddressing v.fmt v.aty r.id r.ta? r.sa? r.ae?).setFrame t e.code (d ++ e.body) with
          isRecord := false, dir := .tx, ts := 0#64 }
  | load (f : Format) (a : AddrType) (id : Word) (n : Nat) (c : Dlc) (r : AiFields) (t : PacketType) (dir : Direction)
      (ts : BitVec 64) (v : PacketView) :
      replacesPacket i = true → id.toNat ≤ 0x1FFFFFFF → dlcBytes c = n → 2 ≤ n →
      aiDecode s.offs f id (s.frame n) = .ok r → addrTypeDiffers r.aty? a = false →
      observedType (s.fb (aiBytes f)) = .ok t → viewFrame t (aiBytes f) (s.frame n) = .ok v →
      PacketStep i s
        { (s.pkt.setAddressing f a id r.ta? r.sa? r.ae?).setFrame t c (s.frame n) with
          isRecord := true, dir := dir, ts := ts }
  | setai (fmt : BitVec 3) (pm : BitVec 8) (v : Addressing) (r : Normalised) (d : List Byte) :
      i = .pktSetai fmt pm → s.pkt.valid = true → s.pkt.isRecord = false → AddressingIs fmt pm s v →
      aiBytes v.fmt = aiBytes s.pkt.fmt → aiValidate s.offs v = .ok r → aiEncData v.fmt r.ta? r.ae? = .ok d →
      PacketStep i s
        { s.pkt.setAddressing v.fmt v.aty r.id r.ta? r.sa? r.ae? with data := s.pkt.data.writeBytes 0 d }

theorem pktBuild_step {i : Instr} {s u : State} {fmt : BitVec 3} {pm : BitVec 8} {v : Addressing} {t : PacketType}
    {enc : Nat → Except Err Encoded} {own : List Check} {c : Nat} {pci pay : List Byte} {fill : Byte}
    (hi : replacesPacket i = true) (hv : AddressingIs fmt pm s v)
    (henc : Yields (enc (addrBytes fmt)) own (EncodedIs (addrBytes fmt) c pci pay fill))
    (hp : (∀ c ∈ own, ¬c.1) → ∀ b, pci.head? = some b → Claims.hi b = t.number) (hne : pci ≠ [])
    (h : pktBuild v t enc s = .ok u) : PacketStep i s u.pkt := by
  obtain ⟨r, hr, h⟩ := bind_ok h
  obtain ⟨d, hd, h⟩ := bind_ok h
  obtain ⟨e, he, h⟩ := bind_ok h
  obtain ⟨_, h2, h⟩ := bind_ok h
  cases h
  rw [aiBytes_eq, hv.fmt] at he
  obtain ⟨hei, hck⟩ := henc.passed he
  rw [raiseIf_eq_ok] at h2
  have hc := hei.code
  subst hc
  exact .build fmt pm v r d t e pci pay fill hi hv hr hd hei (hp hck) hne (by omega)

/-- Every command leaves `PKT` in one of those ways. -/
theorem commandResult_packet {i : Instr} {s u : State} (h : commandResult i s = .ok u) : PacketStep i s u.pkt := by
  have same : u.pkt = s.pkt → PacketStep i s u.pkt := fun h => h ▸ .same
  cases i
  case nop => cases h; exact .same
  case sreset => cases h; exact .softReset rfl
  case clrstk => cases h; exact .same
  case pktClear => cases h; exact .clear rfl
  case idIsstd => cases h; exact .same
  case idIsext => cases h; exact .same
  case pktSf any fmt pm =>
    obtain ⟨v, hv, h⟩ := bind_ok h
    obtain ⟨c?, hc, h⟩ := bind_ok h
    obtain ⟨n, hn, h⟩ := bind_ok h
    obtain ⟨rfl, _⟩ := ((yields_length _).passed hn).1
    refine pktBuild_step rfl ((yields_addressing fmt pm s).passed hv).1
      (yields_sfEncode (payload_length s) ((yields_dlcOptional pm s).passed hc).1 s.fill) (fun hck b hb => ?_) ?_ h
    · have h1 := hck (sfFrameCode pm (addrBytes fmt) s ≤ 8 ∧ 0xF < sfLength any s, .invalidValue) (by simp [sfOwn])
      unfold sfPci at hb
      split at hb
      · cases hb
        simp only [hi, byte, PacketType.number, BitVec.toNat_ofNat]
        simp only [] at h1
        omega
      · cases hb; rfl
    · unfold sfPci; split <;> simp
  case pktFf any fmt pm =>
    obtain ⟨v, hv, h⟩ := bind_ok h
    obtain ⟨c?, hc, h⟩ := bind_ok h
    obtain ⟨n, hn, h⟩ := bind_ok h
    obtain ⟨rfl, _⟩ := ((yields_length _).passed hn).1
    refine pktBuild_step rfl ((yields_addressing fmt pm s).passed hv).1
      (yields_ffEncode (payload_length s) ((yields_dlcOptional pm s).passed hc).1 s.fill) (fun hck b hb => ?_) ?_ h
    · unfold ffPciList at hb
      split at hb
      · cases hb; rfl
      · cases hb
        simp only [hi, byte, PacketType.number, BitVec.toNat_ofNat]
        omega
    · unfold ffPciList; split <;> simp
  case pktCf any fmt pm =>
    obtain ⟨v, hv, h⟩ := bind_ok h
    obtain ⟨c?, hc, h⟩ := bind_ok h
    obtain ⟨sn, hsn, h⟩ := bind_ok h
    obtain ⟨n, hn, h⟩ := bind_ok h
    obtain ⟨rfl, _⟩ := ((yields_length _).passed hn).1
    have h15 := ((yields_nibble _).passed hsn).2 _ (List.mem_singleton.2 rfl)
    refine pktBuild_step rfl ((yields_addressing fmt pm s).passed hv).1
      (yields_cfEncode (payload_length s) ((yields_dlcOptional pm s).passed hc).1 ((yields_nibble _).passed hsn).1 s.fill)
      (fun hck b hb => ?_) (by simp [cfPci]) h
    cases hb
    simp only [hi, byte, PacketType.number, BitVec.toNat_ofNat, num]
    simp only at h15
    omega
  case pktFc any fmt pm =>
    obtain ⟨v, hv, h⟩ := bind_ok h
    obtain ⟨o, ho, h⟩ := bind_ok h
    obtain ⟨hfo, hck⟩ := (yields_flowOperands pm s).passed ho
    have h15 := hck (15 < num s .fs, .invalidValue) (by simp [fcRange])
    refine pktBuild_step rfl ((yields_addressing fmt pm s).passed hv).1
      (yields_fcEncode (addrBytes_le _) hfo.dlc hfo.bs hfo.st hfo.fs (fill_eq s)) (fun hck b hb => ?_)
      (by simp [fcPci]) h
    cases hb
    simp only [hi, byte, PacketType.number, BitVec.toNat_ofNat]
    simp only at h15
    omega
  case pktLoad fmt =>
    obtain ⟨f, hf, h⟩ := bind_ok h
    obtain ⟨id, hid, h⟩ := bind_ok h
    obtain ⟨a, ha, h⟩ := bind_ok h
    obtain ⟨n, hn, h⟩ := bind_ok h
    obtain ⟨dir, hdir, h⟩ := bind_ok h
    obtain ⟨c, hc, h⟩ := bind_ok h
    obtain ⟨_, h2, h⟩ := bind_ok h
    obtain ⟨r, hr, h⟩ := bind_ok h
    obtain ⟨_, had, h⟩ := bind_ok h
    obtain ⟨t, ht, h⟩ := bind_ok h
    obtain ⟨v, hv, h⟩ := bind_ok h
    cases h
    rw [raiseIf_eq_ok] at h2 had
    obtain ⟨rfl, hle⟩ := ((yields_id _).passed hid).1
    refine .load f a _ n c r t dir _ v rfl hle ?_ (by omega) hr (by simpa using had) ht hv
    rw [dlcBytes_eq]
    exact ((yields_dlcExact n).passed hc).1.2
  case pktSetai fmt pm =>
    obtain ⟨_, h1, h⟩ := bind_ok h
    obtain ⟨_, h2, h⟩ := bind_ok h
    obtain ⟨v, hv, h⟩ := bind_ok h
    obtain ⟨_, h3, h⟩ := bind_ok h
    obtain ⟨r, hr, h⟩ := bind_ok h
    obtain ⟨d, hd, h⟩ := bind_ok h
    cases h
    rw [raiseIf_eq_ok] at h1 h2 h3
    exact .setai fmt pm v r d rfl (by simpa using h1) (by simpa using h2) ((yields_addressing fmt pm s).passed hv).1
      (not_not.1 h3) hr hd
  all_goals
    refine same ?_
    repeat obtain ⟨_, _, h⟩ := bind_ok h
    first
      | (cases h
         simp [State.emit, State.deliverPayload, State.deliverView, State.deliverRecord, State.deliverAddressing])
      | (split at h
         · cases h; simp
         · cases h)

/-- `PKT.DATA` keeps its canonical form. -/
theorem packet_canonical {s : State} {i : Instr} {p : Packet} (h : PacketStep i s p) (hc : s.pkt.data.wf) :
    p.data.wf := by
  cases h
  case same => exact hc
  case softReset => exact hc
  case clear => exact hc
  all_goals exact Memory.wf_writeBytes _ hc _

theorem build_length {fmt : BitVec 3} {v : Addressing} {r : Normalised} {d pci pay : List Byte} {e : Encoded}
    {fill : Byte} (hv : v.fmt.number = fmt) (hd : aiEncData v.fmt r.ta? r.ae? = .ok d)
    (he : EncodedIs (addrBytes fmt) e.code.val pci pay fill e) : (d ++ e.body).length = frameBytes e.code.val := by
  have := ((yields_aiEncData _ _ _).passed hd).1.1
  have := he.length
  rw [List.length_append]
  rw [hv] at *
  omega

/-- `PKT.DATA` keeps its range. -/
theorem packet_range {s : State} {i : Instr} {p : Packet} (h : PacketStep i s p) (hc : CellsIn s.pkt.data 0 64) :
    CellsIn p.data 0 64 := by
  cases h
  case same => exact hc
  case softReset => exact hc
  case clear => exact hc
  case build fmt pm v r d t e pci pay fill h1 h2 h3 h4 h5 h6 h7 h8 =>
    refine Memory.range_writeBytes (P := fun k => 0 ≤ k ∧ k < 64) _ hc fun k k1 k2 => ?_
    rw [build_length h2.fmt h4 h5] at k2
    have := frameBytes_le64 e.code.val
    omega
  case load f a id n c r t dir ts v h0 h1 h2 h3 h4 h5 h6 h7 =>
    refine Memory.range_writeBytes (P := fun k => 0 ≤ k ∧ k < 64) _ hc fun k k1 k2 => ?_
    rw [State.frame, length_bytesFrom, ← h2, dlcBytes_eq] at k2
    have := frameBytes_le64 c.val
    omega
  case setai fmt pm v r d h0 h1 h2 h3 h4 h5 h6 =>
    refine Memory.range_writeBytes (P := fun k => 0 ≤ k ∧ k < 64) _ hc fun k k1 k2 => ?_
    rw [((yields_aiEncData _ _ _).passed h6).1.1] at k2
    have := addrBytes_le v.fmt.number
    omega

/-! ## Addressing that validates, for the packet invariant (10_state.md R41) -/

/-- What `resolve29` returns resolves to itself, and its identifier decodes to it (42_addressing.md R140, R142). -/
theorem resolve29_self {o : Offsets} (ho : o.Ok) {f : Windowed} {aty : AddrType} {id? : Option Word}
    {ta? sa? : Option Byte} {r : Resolved} (h : resolve29 o f aty id? ta? sa? = .ok r) :
    resolve29 o f aty (some r.id) (some r.ta) (some r.sa) = .ok r ∧ idDecode o f r.id = .ok ⟨aty, r.ta, r.sa⟩ := by
  have key : ∀ id ta sa, idDecode o f id = .ok ⟨aty, ta, sa⟩ →
      resolve29 o f aty (some id) (some ta) (some sa) = .ok ⟨id, ta, sa⟩ := by
    intro id ta sa hd
    simp [resolve29, hd, differs]
  cases id? with
  | none =>
    obtain ⟨ta, ht, h⟩ := bind_ok h
    obtain ⟨sa, hs, h⟩ := bind_ok h
    cases h
    exact ⟨key _ _ _ (idDecode_idEncode ho f aty ta sa), idDecode_idEncode ho f aty ta sa⟩
  | some id =>
    obtain ⟨q, hq, h⟩ := bind_ok h
    obtain ⟨_, h1, h⟩ := bind_ok h
    obtain ⟨_, h2, h⟩ := bind_ok h
    obtain ⟨_, h3, h⟩ := bind_ok h
    cases h
    rw [raiseIf_eq_ok, not_not] at h1
    have : idDecode o f id = .ok ⟨aty, q.ta, q.sa⟩ := by rw [hq, ← h1]
    exact ⟨key _ _ _ this, this⟩

/-- What `ai_validate` returns validates to itself (R142). -/
theorem validate_self {o : Offsets} (ho : o.Ok) {v : Addressing} {r : Normalised} (h : aiValidate o v = .ok r) :
    aiValidate o ⟨v.fmt, v.aty, some r.id, r.ta?, r.sa?, r.ae?⟩ = .ok r := by
  obtain ⟨f, aty, id?, ta?, sa?, ae?⟩ := v
  cases f with
  | n11 =>
    obtain ⟨_, h1, h⟩ := bind_ok h
    obtain ⟨id, h2, h⟩ := bind_ok h
    obtain ⟨_, h3, h⟩ := bind_ok h
    cases h
    rw [raiseIf_eq_ok] at h3
    simp [aiValidate, mandatory, h3]
  | nf =>
    obtain ⟨_, h1, h⟩ := bind_ok h
    obtain ⟨q, h2, h⟩ := bind_ok h
    cases h
    simp [aiValidate, (resolve29_self ho h2).1]
  | ext =>
    obtain ⟨_, h1, h⟩ := bind_ok h
    obtain ⟨id, h2, h⟩ := bind_ok h
    obtain ⟨_, h3, h⟩ := bind_ok h
    cases h
    simp [aiValidate, mandatory]
  | m11 =>
    obtain ⟨_, h1, h⟩ := bind_ok h
    obtain ⟨id, h2, h⟩ := bind_ok h
    obtain ⟨_, h3, h⟩ := bind_ok h
    obtain ⟨_, h4, h⟩ := bind_ok h
    cases h
    rw [raiseIf_eq_ok] at h3
    simp [aiValidate, mandatory, h3]
  | m29 =>
    obtain ⟨_, h1, h⟩ := bind_ok h
    obtain ⟨q, h2, h⟩ := bind_ok h
    cases h
    simp [aiValidate, mandatory, (resolve29_self ho h2).1]

/-- The optional addresses of `PKT` after they are set. -/
theorem setAddressing_opts (p : Packet) (f : Format) (a : AddrType) (id : Word) (ta? sa? ae? : Option Byte) :
    (p.setAddressing f a id ta? sa? ae?).ta? = ta? ∧ (p.setAddressing f a id ta? sa? ae?).sa? = sa? ∧
      (p.setAddressing f a id ta? sa? ae?).ae? = ae? := by
  refine ⟨?_, ?_, ?_⟩
  · cases ta? <;> rfl
  · cases sa? <;> rfl
  · cases ae? <;> rfl

/-- A validated identifier is in range. -/
theorem id_range {o : Offsets} (ho : o.Ok) {fmt : BitVec 3} {pm : BitVec 8} {s : State} {v : Addressing}
    {r : Normalised} (hv : AddressingIs fmt pm s v) (h : aiValidate o v = .ok r) : r.id.toNat ≤ 0x1FFFFFFF := by
  have hid : ∀ id, v.id? = some id → id.toNat ≤ 0x1FFFFFFF := by
    intro id he
    by_cases hg : Given pm 0
    · obtain ⟨x, hx, rfl, hxl⟩ := hv.id.some hg
      rw [hx] at he; cases he; exact hxl
    · rw [hv.id.none hg] at he; cases he
  have hres : ∀ (f : Windowed) (q : Resolved), resolve29 o f v.aty v.id? v.ta? v.sa? = .ok q → q.id.toNat ≤ 0x1FFFFFFF := by
    intro f q hq
    have := (resolve29_self ho hq).2
    have hc := ((yields_idDecode o f q.id).passed this).2 (q.id.toNat < 0x800 ∨ 0x1FFFFFFF < q.id.toNat, .inconsistent)
      (by simp [idChecks])
    simp only at hc
    omega
  have hman : ∀ id, mandatory v.id? = .ok id → id.toNat ≤ 0x1FFFFFFF := by
    intro id hm
    cases he : v.id? with
    | none => rw [he] at hm; cases hm
    | some x => rw [he] at hm; cases hm; exact hid _ he
  obtain ⟨f, aty, id?, ta?, sa?, ae?⟩ := v
  cases f with
  | n11 =>
    obtain ⟨_, h1, h⟩ := bind_ok h
    obtain ⟨id, h2, h⟩ := bind_ok h
    obtain ⟨_, h3, h⟩ := bind_ok h
    cases h; exact hman _ h2
  | nf =>
    obtain ⟨_, h1, h⟩ := bind_ok h
    obtain ⟨q, h2, h⟩ := bind_ok h
    cases h; exact hres _ _ h2
  | ext =>
    obtain ⟨_, h1, h⟩ := bind_ok h
    obtain ⟨id, h2, h⟩ := bind_ok h
    obtain ⟨_, h3, h⟩ := bind_ok h
    cases h; exact hman _ h2
  | m11 =>
    obtain ⟨_, h1, h⟩ := bind_ok h
    obtain ⟨id, h2, h⟩ := bind_ok h
    obtain ⟨_, h3, h⟩ := bind_ok h
    obtain ⟨_, h4, h⟩ := bind_ok h
    cases h; exact hman _ h2
  | m29 =>
    obtain ⟨_, h1, h⟩ := bind_ok h
    obtain ⟨q, h2, h⟩ := bind_ok h
    cases h; exact hres _ _ h2

/-- The addressing that PKT_LOAD recovers validates to itself (47_packet.md R225). -/
theorem load_validates {o : Offsets} {f : Format} {a : AddrType} {id : Word} {data : List Byte} {r : AiFields}
    (hr : aiDecode o f id data = .ok r) (ha : addrTypeDiffers r.aty? a = false) :
    aiValidate o ⟨f, a, some id, r.ta?, r.sa?, r.ae?⟩ = .ok ⟨id, r.ta?, r.sa?, r.ae?⟩ := by
  cases f with
  | n11 =>
    obtain ⟨_, h1, h⟩ := bind_ok hr
    cases h
    rw [raiseIf_eq_ok] at h1
    simp [aiValidate, mandatory, h1]
  | nf =>
    obtain ⟨q, h1, h⟩ := bind_ok hr
    cases h
    have : q.aty = a := by simpa [addrTypeDiffers] using ha
    simp [aiValidate, resolve29, h1, this, differs]
  | ext =>
    obtain ⟨q, h1, h⟩ := bind_ok hr
    cases h
    simp [aiValidate, mandatory]
  | m11 =>
    obtain ⟨_, h1, h⟩ := bind_ok hr
    obtain ⟨q, h2, h⟩ := bind_ok h
    cases h
    rw [raiseIf_eq_ok] at h1
    simp [aiValidate, mandatory, h1]
  | m29 =>
    obtain ⟨q, h1, h⟩ := bind_ok hr
    obtain ⟨b, h2, h⟩ := bind_ok h
    cases h
    have : q.aty = a := by simpa [addrTypeDiffers] using ha
    simp [aiValidate, mandatory, resolve29, h1, this, differs]

/-- The checks of a strict decoder read the frame's own bytes. -/
theorem decChecks_congr {t : PacketType} {b b' : Nat → Byte} {a n : Nat} (ha : a ≤ 1) (hb : ∀ k, k < n → b' k = b k)
    (h : ∀ c ∈ decChecks t b a n, ¬c.1) : ∀ c ∈ decChecks t b' a n, ¬c.1 := by
  cases t with
  | sf =>
    have h0 := h (n ∉ legalLengths, .invalidValue) (by simp [decChecks, sfDecChecks])
    have h1 := h (n < a + 1, .inconsistent) (by simp [decChecks, sfDecChecks])
    simp only [not_not] at h0 h1
    have e0 := hb a (by omega)
    by_cases h8 : 8 < codeOf n
    · have := long_code n h0 h8
      have e1 := hb (a + 1) (by omega)
      simpa only [decChecks, sfDecChecks, e0, e1] using h
    · simp only [decChecks, sfDecChecks, e0, List.mem_cons, forall_eq_or_imp, h8, false_and, not_false_eq_true,
        true_and] at h ⊢
      exact h
  | ff =>
    have h1 := h (n < a + 2, .inconsistent) (by simp [decChecks, ffDecChecks])
    have h3 := h (ffField b a = 0 ∧ n < a + 6, .inconsistent) (by simp [decChecks, ffDecChecks])
    simp only at h1 h3
    have e0 := hb a (by omega)
    have e1 := hb (a + 1) (by omega)
    have ef : ffField b' a = ffField b a := by simp [ffField, e0, e1]
    by_cases hf : ffField b a = 0
    · have ee : ffEscape b' a = ffEscape b a := by
        simp [ffEscape, hb (a + 2) (by omega), hb (a + 3) (by omega), hb (a + 4) (by omega), hb (a + 5) (by omega)]
      simpa only [decChecks, ffDecChecks, ffDecPci, ffDecLength, e0, ef, ee] using h
    · simp only [decChecks, ffDecChecks, ffDecPci, ffDecLength, e0, ef, hf, false_and, if_false] at h ⊢
      exact h
  | cf =>
    have h1 := h (n < a + 2, .inconsistent) (by simp [decChecks, cfDecChecks])
    simp only at h1
    simpa only [decChecks, cfDecChecks, hb a (by omega)] using h
  | fc =>
    have h1 := h (n < a + 3, .inconsistent) (by simp [decChecks, fcDecChecks])
    simp only at h1
    simpa only [decChecks, fcDecChecks, hb a (by omega)] using h

end Sys2Proof.Laws
end

