-- ==== Sys2Proof/Laws/PerInstr.lean ====
section
/-! SUPPORT. A statement made for each command: its word (30_encoding.md R81, R85) selects the command's own row. -/

namespace Sys2Proof.Laws.EncodeFields

open Sys2Proof.Machine Sys2Proof.Claims

/-- The word of `i` has its reserved bits 0 and carries `i`'s presence mask, and its fields select a row of the table that
allows exactly `i`'s presence bits and makes `i` of them. -/
def Statement (i : Instr) : Prop :=
  reservedOf (encode i) = 0#12 ∧ pmOf (encode i) = i.presence ∧
  ∃ r ∈ opcodeTable, r.opc = opcOf (encode i) ∧ r.pmAllowed = i.presenceAllowed ∧
    r.make (anyOf (encode i)) (fmtOf (encode i)) (pmOf (encode i)) = i ∧
    (r.takesAny = false → anyOf (encode i) = false) ∧ (r.takesFmt = false → fmtOf (encode i) = 0#3)

/-- The statement from a row and the fields of the word. -/
theorem of_row {i : Instr} (r : Row) (any : Bool) (fmt : BitVec 3) (pm : BitVec 8) (hr : r ∈ opcodeTable)
    (hw : encode i = commandWord r.opc any fmt pm) (hp : pm = i.presence) (ha : r.pmAllowed = i.presenceAllowed)
    (hm : r.make any fmt pm = i) (h1 : r.takesAny = false → any = false) (h2 : r.takesFmt = false → fmt = 0#3) :
    Statement i := by
  unfold Statement
  rw [hw, reservedOf_commandWord, pmOf_commandWord, anyOf_commandWord, fmtOf_commandWord, opcOf_commandWord]
  exact ⟨rfl, hp, r, hr, rfl, ha, hm, h1, h2⟩

theorem mem_codec {r : Row} (h : r ∈ codecRows) : r ∈ opcodeTable := by
  simp only [opcodeTable, List.mem_append]
  exact .inl (.inl h)
theorem mem_frame {r : Row} (h : r ∈ frameRows) : r ∈ opcodeTable := by
  simp only [opcodeTable, List.mem_append]
  exact .inl (.inr h)
theorem mem_packet {r : Row} (h : r ∈ packetRows) : r ∈ opcodeTable := by
  simp only [opcodeTable, List.mem_append]
  exact .inr h

theorem nop : Statement (.nop) :=
  of_row (plainRow 0x00 .nop) false 0 0 (mem_codec (by simp [codecRows])) rfl rfl rfl rfl (fun _ => rfl) (fun _ => rfl)
theorem sreset : Statement (.sreset) :=
  of_row (plainRow 0x01 .sreset) false 0 0 (mem_codec (by simp [codecRows])) rfl rfl rfl rfl (fun _ => rfl) (fun _ => rfl)
theorem clrstk : Statement (.clrstk) :=
  of_row (plainRow 0x02 .clrstk) false 0 0 (mem_codec (by simp [codecRows])) rfl rfl rfl rfl (fun _ => rfl) (fun _ => rfl)
theorem idIsstd : Statement (.idIsstd) :=
  of_row (plainRow 0x10 .idIsstd) false 0 0 (mem_codec (by simp [codecRows])) rfl rfl rfl rfl (fun _ => rfl) (fun _ => rfl)
theorem idIsext : Statement (.idIsext) :=
  of_row (plainRow 0x11 .idIsext) false 0 0 (mem_codec (by simp [codecRows])) rfl rfl rfl rfl (fun _ => rfl) (fun _ => rfl)
theorem idClassify (fmt : BitVec 3) (pm : BitVec 8) : Statement (.idClassify fmt pm) :=
  of_row (presenceRow 0x12 0x10 .idClassify) false fmt pm (mem_codec (by simp [codecRows])) rfl rfl rfl rfl (fun _ => rfl) nofun
theorem idEncode (fmt : BitVec 3) : Statement (.idEncode fmt) :=
  of_row (formatRow 0x13 .idEncode) false fmt 0 (mem_codec (by simp [codecRows])) rfl rfl rfl rfl (fun _ => rfl) nofun
theorem idDecode (fmt : BitVec 3) : Statement (.idDecode fmt) :=
  of_row (formatRow 0x14 .idDecode) false fmt 0 (mem_codec (by simp [codecRows])) rfl rfl rfl rfl (fun _ => rfl) nofun
theorem dlcDecode : Statement (.dlcDecode) :=
  of_row (plainRow 0x20 .dlcDecode) false 0 0 (mem_codec (by simp [codecRows])) rfl rfl rfl rfl (fun _ => rfl) (fun _ => rfl)
theorem dlcEncode : Statement (.dlcEncode) :=
  of_row (plainRow 0x21 .dlcEncode) false 0 0 (mem_codec (by simp [codecRows])) rfl rfl rfl rfl (fun _ => rfl) (fun _ => rfl)
theorem dlcMin : Statement (.dlcMin) :=
  of_row (plainRow 0x22 .dlcMin) false 0 0 (mem_codec (by simp [codecRows])) rfl rfl rfl rfl (fun _ => rfl) (fun _ => rfl)
theorem aiNbytes (fmt : BitVec 3) : Statement (.aiNbytes fmt) :=
  of_row (formatRow 0x30 .aiNbytes) false fmt 0 (mem_frame (by simp [frameRows])) rfl rfl rfl rfl (fun _ => rfl) nofun
theorem aiEncdata (fmt : BitVec 3) (pm : BitVec 8) : Statement (.aiEncdata fmt pm) :=
  of_row (presenceRow 0x31 0x0A .aiEncdata) false fmt pm (mem_frame (by simp [frameRows])) rfl rfl rfl rfl (fun _ => rfl) nofun
theorem aiDecode (fmt : BitVec 3) : Statement (.aiDecode fmt) :=
  of_row (formatRow 0x32 .aiDecode) false fmt 0 (mem_frame (by simp [frameRows])) rfl rfl rfl rfl (fun _ => rfl) nofun
theorem aiValidate (fmt : BitVec 3) (pm : BitVec 8) : Statement (.aiValidate fmt pm) :=
  of_row (presenceRow 0x33 0x0F .aiValidate) false fmt pm (mem_frame (by simp [frameRows])) rfl rfl rfl rfl (fun _ => rfl) nofun
theorem ptGet (fmt : BitVec 3) : Statement (.ptGet fmt) :=
  of_row (formatRow 0x40 .ptGet) false fmt 0 (mem_frame (by simp [frameRows])) rfl rfl rfl rfl (fun _ => rfl) nofun
theorem sfEnc (any : Bool) (fmt : BitVec 3) (pm : BitVec 8) : Statement (.sfEnc any fmt pm) :=
  of_row (encoderRow 0x41 0x20 .sfEnc) any fmt pm (mem_frame (by simp [frameRows])) rfl rfl rfl rfl nofun nofun
theorem sfDec (fmt : BitVec 3) : Statement (.sfDec fmt) :=
  of_row (formatRow 0x42 .sfDec) false fmt 0 (mem_frame (by simp [frameRows])) rfl rfl rfl rfl (fun _ => rfl) nofun
theorem ffEnc (any : Bool) (fmt : BitVec 3) (pm : BitVec 8) : Statement (.ffEnc any fmt pm) :=
  of_row (encoderRow 0x43 0x20 .ffEnc) any fmt pm (mem_frame (by simp [frameRows])) rfl rfl rfl rfl nofun nofun
theorem ffDec (fmt : BitVec 3) : Statement (.ffDec fmt) :=
  of_row (formatRow 0x44 .ffDec) false fmt 0 (mem_frame (by simp [frameRows])) rfl rfl rfl rfl (fun _ => rfl) nofun
theorem cfEnc (any : Bool) (fmt : BitVec 3) (pm : BitVec 8) : Statement (.cfEnc any fmt pm) :=
  of_row (encoderRow 0x45 0x20 .cfEnc) any fmt pm (mem_frame (by simp [frameRows])) rfl rfl rfl rfl nofun nofun
theorem cfDec (fmt : BitVec 3) : Statement (.cfDec fmt) :=
  of_row (formatRow 0x46 .cfDec) false fmt 0 (mem_frame (by simp [frameRows])) rfl rfl rfl rfl (fun _ => rfl) nofun
theorem fcEnc (any : Bool) (fmt : BitVec 3) (pm : BitVec 8) : Statement (.fcEnc any fmt pm) :=
  of_row (encoderRow 0x47 0xE0 .fcEnc) any fmt pm (mem_frame (by simp [frameRows])) rfl rfl rfl rfl nofun nofun
theorem fcDec (fmt : BitVec 3) : Statement (.fcDec fmt) :=
  of_row (formatRow 0x48 .fcDec) false fmt 0 (mem_frame (by simp [frameRows])) rfl rfl rfl rfl (fun _ => rfl) nofun
theorem stminDec : Statement (.stminDec) :=
  of_row (plainRow 0x49 .stminDec) false 0 0 (mem_frame (by simp [frameRows])) rfl rfl rfl rfl (fun _ => rfl) (fun _ => rfl)
theorem stminEnc : Statement (.stminEnc) :=
  of_row (plainRow 0x4A .stminEnc) false 0 0 (mem_frame (by simp [frameRows])) rfl rfl rfl rfl (fun _ => rfl) (fun _ => rfl)
theorem pktSf (any : Bool) (fmt : BitVec 3) (pm : BitVec 8) : Statement (.pktSf any fmt pm) :=
  of_row (encoderRow 0x50 0x2F .pktSf) any fmt pm (mem_packet (by simp [packetRows])) rfl rfl rfl rfl nofun nofun
theorem pktFf (any : Bool) (fmt : BitVec 3) (pm : BitVec 8) : Statement (.pktFf any fmt pm) :=
  of_row (encoderRow 0x51 0x2F .pktFf) any fmt pm (mem_packet (by simp [packetRows])) rfl rfl rfl rfl nofun nofun
theorem pktCf (any : Bool) (fmt : BitVec 3) (pm : BitVec 8) : Statement (.pktCf any fmt pm) :=
  of_row (encoderRow 0x52 0x2F .pktCf) any fmt pm (mem_packet (by simp [packetRows])) rfl rfl rfl rfl nofun nofun
theorem pktFc (any : Bool) (fmt : BitVec 3) (pm : BitVec 8) : Statement (.pktFc any fmt pm) :=
  of_row (encoderRow 0x53 0xEF .pktFc) any fmt pm (mem_packet (by simp [packetRows])) rfl rfl rfl rfl nofun nofun
theorem pktLoad (fmt : BitVec 3) : Statement (.pktLoad fmt) :=
  of_row (formatRow 0x54 .pktLoad) false fmt 0 (mem_packet (by simp [packetRows])) rfl rfl rfl rfl (fun _ => rfl) nofun
theorem pktSetai (fmt : BitVec 3) (pm : BitVec 8) : Statement (.pktSetai fmt pm) :=
  of_row (presenceRow 0x55 0x0F .pktSetai) false fmt pm (mem_packet (by simp [packetRows])) rfl rfl rfl rfl (fun _ => rfl) nofun
theorem pktView : Statement (.pktView) :=
  of_row (plainRow 0x56 .pktView) false 0 0 (mem_packet (by simp [packetRows])) rfl rfl rfl rfl (fun _ => rfl) (fun _ => rfl)
theorem pktClear : Statement (.pktClear) :=
  of_row (plainRow 0x57 .pktClear) false 0 0 (mem_packet (by simp [packetRows])) rfl rfl rfl rfl (fun _ => rfl) (fun _ => rfl)

end Sys2Proof.Laws.EncodeFields
end

