-- ==== Sys2Proof/Tests/Slice0.lean ====
section
/-! SUPPORT. The model's own tests and the witnesses of the statements. Expected values are those of the spec's vectors
(95_test_vectors.md, 96_test_vectors_derived.md; the row is named above each test) or words written out from the table
of 30_encoding.md R85. -/

namespace Sys2Proof.Tests

open Sys2Proof.Machine Sys2Proof.Claims Sys2Proof.Laws

/-! ## Decoding: `OPC`, `ANY`, `FMT`, the reserved bits and `PM`, bit by bit (R81, R85) -/

theorem test_decode_system :
    decode 0b0000_0000_0_000_0000_0000_0000_0000_0000#32 = .ok .nop ∧
    decode 0b0000_0001_0_000_0000_0000_0000_0000_0000#32 = .ok .sreset ∧
    decode 0b0000_0010_0_000_0000_0000_0000_0000_0000#32 = .ok .clrstk := by decide

theorem test_decode_identifier :
    decode 0b0001_0000_0_000_0000_0000_0000_0000_0000#32 = .ok .idIsstd ∧
    decode 0b0001_0001_0_000_0000_0000_0000_0000_0000#32 = .ok .idIsext ∧
    decode 0b0001_0010_0_001_0000_0000_0000_0001_0000#32 = .ok (.idClassify 1 0x10) ∧
    decode 0b0001_0011_0_100_0000_0000_0000_0000_0000#32 = .ok (.idEncode 4) ∧
    decode 0b0001_0100_0_001_0000_0000_0000_0000_0000#32 = .ok (.idDecode 1) := by decide

theorem test_decode_dataLength :
    decode 0b0010_0000_0_000_0000_0000_0000_0000_0000#32 = .ok .dlcDecode ∧
    decode 0b0010_0001_0_000_0000_0000_0000_0000_0000#32 = .ok .dlcEncode ∧
    decode 0b0010_0010_0_000_0000_0000_0000_0000_0000#32 = .ok .dlcMin := by decide

theorem test_decode_addressing :
    decode 0b0011_0000_0_011_0000_0000_0000_0000_0000#32 = .ok (.aiNbytes 3) ∧
    decode 0b0011_0001_0_100_0000_0000_0000_0000_1000#32 = .ok (.aiEncdata 4 0x08) ∧
    decode 0b0011_0010_0_010_0000_0000_0000_0000_0000#32 = .ok (.aiDecode 2) ∧
    decode 0b0011_0011_0_000_0000_0000_0000_0000_0101#32 = .ok (.aiValidate 0 0x05) := by decide

theorem test_decode_frames :
    decode 0b0100_0000_0_010_0000_0000_0000_0000_0000#32 = .ok (.ptGet 2) ∧
    decode 0b0100_0001_1_001_0000_0000_0000_0010_0000#32 = .ok (.sfEnc true 1 0x20) ∧
    decode 0b0100_0010_0_100_0000_0000_0000_0000_0000#32 = .ok (.sfDec 4) ∧
    decode 0b0100_0011_0_010_0000_0000_0000_0010_0000#32 = .ok (.ffEnc false 2 0x20) ∧
    decode 0b0100_0100_0_011_0000_0000_0000_0000_0000#32 = .ok (.ffDec 3) ∧
    decode 0b0100_0101_1_100_0000_0000_0000_0000_0000#32 = .ok (.cfEnc true 4 0x00) ∧
    decode 0b0100_0110_0_001_0000_0000_0000_0000_0000#32 = .ok (.cfDec 1) := by decide

theorem test_decode_flowControl :
    decode 0b0100_0111_0_000_0000_0000_0000_0110_0000#32 = .ok (.fcEnc false 0 0x60) ∧
    decode 0b0100_1000_0_010_0000_0000_0000_0000_0000#32 = .ok (.fcDec 2) ∧
    decode 0b0100_1001_0_000_0000_0000_0000_0000_0000#32 = .ok .stminDec ∧
    decode 0b0100_1010_0_000_0000_0000_0000_0000_0000#32 = .ok .stminEnc := by decide

theorem test_decode_packets :
    decode 0b0101_0000_0_100_0000_0000_0000_0000_1110#32 = .ok (.pktSf false 4 0x0E) ∧
    decode 0b0101_0001_1_010_0000_0000_0000_0010_0011#32 = .ok (.pktFf true 2 0x23) ∧
    decode 0b0101_0010_0_011_0000_0000_0000_0010_1001#32 = .ok (.pktCf false 3 0x29) ∧
    decode 0b0101_0011_1_000_0000_0000_0000_1110_0001#32 = .ok (.pktFc true 0 0xE1) ∧
    decode 0b0101_0100_0_001_0000_0000_0000_0000_0000#32 = .ok (.pktLoad 1) ∧
    decode 0b0101_0101_0_010_0000_0000_0000_0000_0011#32 = .ok (.pktSetai 2 0x03) ∧
    decode 0b0101_0110_0_000_0000_0000_0000_0000_0000#32 = .ok .pktView ∧
    decode 0b0101_0111_0_000_0000_0000_0000_0000_0000#32 = .ok .pktClear := by decide

/-- IL-1, IL-3, IL-4, IL-5, IL-6, IL-9, IL-11: words of no row, by the reasons of R87. -/
theorem test_decode_refuses :
    decode 0x03000000#32 = .error .unassignedOpcode ∧ decode 0x00000001#32 = .error .presenceBits ∧
    decode 0x00800000#32 = .error .modeBit ∧ decode 0x10100000#32 = .error .formatBits ∧
    decode 0x41000100#32 = .error .reservedBits ∧ decode 0x47000001#32 = .error .presenceBits ∧
    decode 0x12000001#32 = .error .presenceBits := by decide

/-- The table's numbering is the command word's (R81), and the step runs the word as the first command after reset. -/
theorem test_tableWord :
    decodeTableWord 32 0x4140_0020 = some (.sfEnc false 4 0x20) ∧ decodeTableWord 32 0x4100_0100 = none := by decide

theorem test_step_runs_tableWord : ∃ t, step (State.reset.withFetchWord 32 0x1000_0000) = .next t ∧ t.reg .res = 1#32 :=
  ⟨_, rfl, by decide⟩

/-! ## Well-formedness: a term with a presence bit its row does not allow is refused (R83) -/

theorem test_illFormed :
    ¬(Instr.idClassify 1 0x11).WellFormed ∧ ¬(Instr.aiEncdata 1 0x0B).WellFormed ∧
    ¬(Instr.aiValidate 1 0x1F).WellFormed ∧ ¬(Instr.sfEnc true 1 0x21).WellFormed ∧
    ¬(Instr.ffEnc true 1 0x21).WellFormed ∧ ¬(Instr.cfEnc true 1 0x21).WellFormed ∧
    ¬(Instr.fcEnc true 1 0xE1).WellFormed ∧ ¬(Instr.pktSf true 1 0x3F).WellFormed ∧
    ¬(Instr.pktFf true 1 0x3F).WellFormed ∧ ¬(Instr.pktCf true 1 0x3F).WellFormed ∧
    ¬(Instr.pktFc true 1 0xFF).WellFormed ∧ ¬(Instr.pktSetai 1 0x1F).WellFormed := by decide

theorem test_wellFormed :
    (Instr.idClassify 7 0x10).WellFormed ∧ (Instr.aiEncdata 7 0x0A).WellFormed ∧
    (Instr.aiValidate 7 0x0F).WellFormed ∧ (Instr.sfEnc true 7 0x20).WellFormed ∧
    (Instr.ffEnc true 7 0x20).WellFormed ∧ (Instr.cfEnc true 7 0x20).WellFormed ∧
    (Instr.fcEnc true 7 0xE0).WellFormed ∧ (Instr.pktSf true 7 0x2F).WellFormed ∧
    (Instr.pktFf true 7 0x2F).WellFormed ∧ (Instr.pktCf true 7 0x2F).WellFormed ∧
    (Instr.pktFc true 7 0xEF).WellFormed ∧ (Instr.pktSetai 7 0x0F).WellFormed := by decide

/-! ## One step of each command -/

/-- The state after a command that answers a next state. -/
def stateOf (s : State) : Host.Outcome State Fault Refusal → State
  | .next t => t
  | .fault _ => s
  | .refused _ => s

/-- The state after host actions, from reset. -/
def setUp (as : List HostAction) : State := as.foldl (fun s a => stateOf s (hostAction a s)) State.reset

/-- Byte writes from an offset on. -/
def load : Nat → List Byte → List HostAction
  | _, [] => []
  | off, b :: bs => .wrb off b :: load (off + 1) bs

/-- `WR`, `LDPB` and `LDFB` of the listings (30_encoding.md R89). -/
def wr (r : Reg) (v : Word) : HostAction := .wr (0x040 + 4 * r.index.val) v
def loadPayload (bs : List Byte) : List HostAction := load 0x140 bs ++ [wr .plen (BitVec.ofNat 32 bs.length)]
def loadFrame (bs : List Byte) : List HostAction := load 0x100 bs ++ [wr .flen (BitVec.ofNat 32 bs.length)]

/-- The command word `w`, executed after the host actions. -/
def ended (as : List HostAction) (w : Word) : State := stateOf State.reset (runCommand w (setUp as))

/-- The command ends `ok` with these register values and these bytes from these offsets on. -/
def runs (as : List HostAction) (w : Word) (regs : List (Reg × Word)) (bytes : List (Nat × List Byte)) : Bool :=
  (ended as w).status == 0#32 && regs.all (fun p => (ended as w).reg p.1 == p.2) &&
    bytes.all (fun p => (List.range p.2.length).map (fun k => (ended as w).mem.read (p.1 + k)) == p.2.map some)

/-- The same, with `PKTST` as given. -/
def builds (as : List HostAction) (w pktst : Word) (regs : List (Reg × Word)) (bytes : List (Nat × List Byte)) : Bool :=
  runs as w regs bytes && (ended as w).pkt.summary == pktst

/-- The command ends with this error code, and registers, buffers and `PKT` keep their values. -/
def fails (as : List HostAction) (w : Word) (code : Nat) : Bool :=
  (ended as w).status == BitVec.ofNat 32 code && (ended as w).ecmd == w && (ended as w).x == (setUp as).x &&
    (ended as w).mem == (setUp as).mem && (ended as w).pkt == (setUp as).pkt

/-- ID-1. -/
theorem test_idIsstd_largest : runs [wr .id 0x7FF] 0x10000000 [(.res, 0x1), (.rp, 0x000)] [] := by decide
/-- ID-2. -/
theorem test_idIsstd_above : runs [wr .id 0x800] 0x10000000 [(.res, 0x0), (.rp, 0x000)] [] := by decide
/-- ID-4. -/
theorem test_idIsext_largest : runs [wr .id 0x1FFFFFFF] 0x11000000 [(.res, 0x1), (.rp, 0x000)] [] := by decide
/-- ID-5. -/
theorem test_idIsext_above : runs [wr .id 0x20000000] 0x11000000 [(.res, 0x0), (.rp, 0x000)] [] := by decide
/-- ID-14. -/
theorem test_idClassify_other_window :
    runs [wr .id 0x18DB0000, wr .aty 0] 0x12100010 [(.res, 0x0), (.rp, 0x000)] [] := by decide
/-- ID-21. -/
theorem test_idClassify_format_five : fails [wr .id 0x7DF] 0x12500000 1 := by decide
/-- S2-19. -/
theorem test_idEncode_functional :
    runs [wr .aty 1, wr .ta 0xAB, wr .sa 0xCD] 0x13400000 [(.id, 0x18CDABCD), (.rp, 0x001)] [] := by decide
/-- ID-26. -/
theorem test_idEncode_no_structure : fails [wr .ta 1, wr .sa 2] 0x13000000 3 := by decide
/-- S2-5. -/
theorem test_idDecode_last_of_window :
    runs [wr .id 0x18DBFFFF] 0x14100000 [(.aty, 1), (.ta, 0xFF), (.sa, 0xFF), (.rp, 0x016)] [] := by decide
/-- S2-13. -/
theorem test_idDecode_below_window : fails [wr .id 0x18D9FFFF] 0x14100000 5 := by decide
/-- DLC-2. -/
theorem test_dlcDecode_nine : runs [wr .dlc 9] 0x20000000 [(.dl, 12), (.rp, 0x100)] [] := by decide
/-- DLC-3. -/
theorem test_dlcDecode_range : fails [wr .dlc 16] 0x20000000 1 := by decide
/-- The row 12 of the table of 3.2. -/
theorem test_dlcEncode_twelve : runs [wr .dl 12] 0x21000000 [(.dlc, 9), (.rp, 0x020)] [] := by decide
/-- DLC-6. -/
theorem test_dlcEncode_range : fails [wr .dl 65] 0x21000000 1 := by decide
/-- The row 13 of the table of 3.2. -/
theorem test_dlcMin_thirteen : runs [wr .dl 13] 0x22000000 [(.dlc, 10), (.rp, 0x020)] [] := by decide
/-- DLC-5. -/
theorem test_dlcMin_range : fails [wr .dl 0xFFFFFFFF] 0x22000000 1 := by decide
/-- AI-5. -/
theorem test_aiNbytes_mixed29 : runs [] 0x30400000 [(.res, 0x1), (.rp, 0x000)] [] := by decide
/-- AI-6. -/
theorem test_aiNbytes_format_five : fails [] 0x30500000 1 := by decide
/-- AI-10. -/
theorem test_aiEncdata_extension :
    runs [wr .ae 0x7B, wr .ta 0x5A] 0x3140000A [(.res, 0x1), (.rp, 0x000)] [] := by decide
/-- AI-13. -/
theorem test_aiEncdata_missing_target : fails [wr .ae 0x7B] 0x31200008 3 := by decide
/-- AI-25. -/
theorem test_aiDecode_all_four :
    runs ([wr .id 0x18CE10F1] ++ loadFrame [0x7B, 0x02, 0x3E, 0x00]) 0x32400000
      [(.aty, 0), (.ta, 0x10), (.sa, 0xF1), (.ae, 0x7B), (.rp, 0x01E)] [] := by decide
/-- AI-28. -/
theorem test_aiDecode_identifier_first : fails [wr .id 0x18DA10F1] 0x32400000 5 := by decide
/-- S8-7. -/
theorem test_aiValidate_pair :
    runs [wr .ta 0x10, wr .sa 0xF1] 0x33100006 [(.id, 0x18DA10F1), (.ta, 0x10), (.sa, 0xF1), (.rp, 0x017)]
      [] := by decide
/-- S8-5. -/
theorem test_aiValidate_other_target : fails [wr .id 0x18DA10F1, wr .ta 0x11] 0x33100003 3 := by decide
/-- PT-3. -/
theorem test_ptGet_after_address :
    runs (loadFrame [0x5A, 0x21, 1, 2, 3, 4, 5, 6]) 0x40200000 [(.res, 0x2), (.rp, 0x000)] [] := by decide
/-- PT-5. -/
theorem test_ptGet_short : fails (loadFrame [0x5A]) 0x40200000 3 := by decide
/-- SF-5. -/
theorem test_sfEnc_long_form :
    runs (loadPayload [0xA1, 0xA2, 0xA3, 0xA4, 0xA5, 0xA6, 0xA7]) 0x41200000 [(.flen, 12), (.dlc, 9), (.rp, 0x020)]
      [(0x101, [0x00, 0x07, 0xA1, 0xA2, 0xA3, 0xA4, 0xA5, 0xA6, 0xA7, 0xCC, 0xCC])] := by decide
/-- SF-10. -/
theorem test_sfEnc_padded_short : fails (loadPayload [1, 2, 3] ++ [wr .dlc 8]) 0x41000020 3 := by decide
/-- SFD-7. -/
theorem test_sfDec_long_form :
    runs (loadFrame [0x00, 0x08, 0xA1, 0xA2, 0xA3, 0xA4, 0xA5, 0xA6, 0xA7, 0xA8, 0xCC, 0xCC]) 0x42000000
      [(.plen, 8), (.dl, 8), (.dlc, 9), (.rp, 0x920)]
      [(0x140, [0xA1, 0xA2, 0xA3, 0xA4, 0xA5, 0xA6, 0xA7, 0xA8])] := by decide
/-- SFD-4. -/
theorem test_sfDec_padded_short : fails (loadFrame [0x03, 1, 2, 3, 0xCC, 0xCC, 0xCC, 0xCC]) 0x42000000 3 := by decide
/-- FF-3. -/
theorem test_ffEnc_length_bits :
    runs ([wr .dl 0x123] ++ loadPayload [0x01, 0x02, 0x03, 0x04, 0x05, 0x06]) 0x43000000
      [(.flen, 8), (.dlc, 8), (.rp, 0x020)] [(0x100, [0x11, 0x23, 0x01, 0x02, 0x03, 0x04, 0x05, 0x06])] := by decide
/-- FF-6. -/
theorem test_ffEnc_escape :
    runs ([wr .dl 4096] ++ loadPayload [0xA1, 0xA2]) 0x43000000 [(.flen, 8), (.dlc, 8), (.rp, 0x020)]
      [(0x100, [0x10, 0x00, 0x00, 0x00, 0x10, 0x00, 0xA1, 0xA2])] := by decide
/-- FFD-4. -/
theorem test_ffDec_escape :
    runs (loadFrame [0x10, 0x00, 0x00, 0x00, 0x10, 0x00, 0xA1, 0xA2]) 0x44000000
      [(.plen, 2), (.dl, 4096), (.dlc, 8), (.rp, 0x920)] [(0x140, [0xA1, 0xA2])] := by decide
/-- FFD-6. -/
theorem test_ffDec_small_escape :
    fails (loadFrame [0x10, 0x00, 0x00, 0x00, 0x0F, 0xFF, 0xA1, 0xA2]) 0x44000000 3 := by decide
/-- CF-4. -/
theorem test_cfEnc_padded :
    runs ([wr .sn 2] ++ loadPayload [1, 2, 3] ++ [wr .dlc 8]) 0x45200020 [(.flen, 8), (.dlc, 8), (.rp, 0x020)]
      [(0x101, [0x22, 0x01, 0x02, 0x03, 0xCC, 0xCC, 0xCC])] := by decide
/-- CF-6. -/
theorem test_cfEnc_sequence_range : fails ([wr .sn 16] ++ loadPayload [1, 2, 3]) 0x45000000 1 := by decide
/-- CFD-2. -/
theorem test_cfDec_filler :
    runs (loadFrame [0x5A, 0x22, 1, 2, 3, 0xCC, 0xCC, 0xCC]) 0x46200000 [(.plen, 6), (.sn, 2), (.dlc, 8), (.rp, 0xA20)]
      [(0x140, [0x01, 0x02, 0x03, 0xCC, 0xCC, 0xCC])] := by decide
/-- CFD-4. -/
theorem test_cfDec_short : fails (loadFrame [0x21]) 0x46000000 3 := by decide
/-- FC-4. -/
theorem test_fcEnc_wait :
    runs [wr .fs 1] 0x47000000 [(.flen, 3), (.dlc, 3), (.rp, 0x020)] [(0x100, [0x31, 0xCC, 0xCC])] := by decide
/-- FC-6. -/
theorem test_fcEnc_dropped_operands : fails [wr .fs 1, wr .bs 8, wr .st 20] 0x470000C0 3 := by decide
/-- FCD-2. -/
theorem test_fcDec_wait_keeps :
    runs (loadFrame [0x31, 0xCC, 0xCC] ++ [wr .bs 0x77, wr .st 0x77]) 0x48000000 [(.fs, 1), (.dlc, 3), (.rp, 0x420)]
      [] := by decide
/-- FCD-6. -/
theorem test_fcDec_short : fails (loadFrame [0x31, 0xCC]) 0x48000000 3 := by decide
/-- ST-3. -/
theorem test_stminDec_reserved :
    (ended [wr .st 0xE0] 0x49000000).reg .stt = 1270 ∧ (ended [wr .st 0xE0] 0x49000000).status = 0x10 ∧
    (ended [wr .st 0xE0] 0x49000000).esticky = 0x100 := by decide
/-- ST-4. -/
theorem test_stminDec_range : fails [wr .st 0x100] 0x49000000 1 := by decide
/-- ST-6. -/
theorem test_stminEnc_tenths : runs [wr .stt 5] 0x4A000000 [(.st, 0xF5), (.rp, 0x080)] [] := by decide
/-- ST-10. -/
theorem test_stminEnc_between : fails [wr .stt 15] 0x4A000000 1 := by decide
/-- PK-3. -/
theorem test_pktSf_mixed29 :
    builds ([wr .ta 0x10, wr .sa 0xF1, wr .ae 0x7B] ++ loadPayload [0x11, 0x22, 0x33, 0x44, 0x55, 0x66])
      0x5040000E 0x00088041 [(.flen, 8), (.dlc, 8), (.id, 0x18CE10F1), (.rp, 0x021)]
      [(0x100, [0x7B, 0x06, 0x11, 0x22, 0x33, 0x44, 0x55, 0x66])] := by decide
/-- PK-4. -/
theorem test_pktSf_unused : fails ([wr .id 0x7DF, wr .ta 0x10] ++ loadPayload [0x3E, 0x00]) 0x50000003 2 := by decide
/-- PK-6. -/
theorem test_pktFf_extended :
    builds ([wr .id 0x6A0, wr .ta 0x5A, wr .dl 20] ++ loadPayload [0x01, 0x02, 0x03, 0x04, 0x05]) 0x51200003 0x00088121
      [(.flen, 8), (.dlc, 8), (.id, 0x000006A0), (.rp, 0x021)]
      [(0x100, [0x5A, 0x10, 0x14, 0x01, 0x02, 0x03, 0x04, 0x05])] := by decide
/-- PK-7. -/
theorem test_pktCf_mixed11 :
    builds ([wr .id 0x6A0, wr .ae 0x7B, wr .sn 3, wr .dlc 8] ++ loadPayload [1, 2, 3]) 0x52300029 0x00088231
      [(.flen, 8), (.dlc, 8), (.id, 0x000006A0), (.rp, 0x021)]
      [(0x100, [0x7B, 0x23, 0x01, 0x02, 0x03, 0xCC, 0xCC, 0xCC])] := by decide
/-- PK-10. -/
theorem test_pktFc_two_bytes :
    builds [wr .id 0x6A0, wr .ta 0x5A, wr .fs 1] 0x53A00003 0x00022321
      [(.flen, 2), (.dlc, 2), (.id, 0x000006A0), (.rp, 0x021)] [(0x100, [0x5A, 0x31])] := by decide
/-- PK-9. -/
theorem test_pktFc_one_byte : fails [wr .id 0x7E8, wr .fs 1] 0x53800001 1 := by decide
/-- PL-1. -/
theorem test_pktLoad_record :
    builds ([wr .id 0x7E8] ++ loadFrame [0x30, 0xF9, 0xE0] ++ [wr .dir 1, wr .tsl 0x12345678, wr .tsh 0x9A])
      0x54000000 0x02033303 [(.res, 0x3), (.rp, 0x000)] [] := by decide
/-- PL-3. -/
theorem test_pktLoad_context :
    fails ([wr .id 0x18DB33F1, wr .aty 0] ++ loadFrame [0x02, 0x3E, 0x00]) 0x54100000 3 := by decide
/-- PS-3. -/
theorem test_pktSetai_same_count :
    builds ([wr .id 0x6A0, wr .ta 0x5A] ++ loadPayload [0x3E, 0x00] ++ [.cmd 0x50200003, wr .ae 0x7B])
      0x55300009 0x00044031 [(.id, 0x000006A0), (.rp, 0x001)] [] := by decide
/-- PS-1. -/
theorem test_pktSetai_guard :
    fails ([wr .id 0x7E0] ++ loadPayload [0x3E, 0x00] ++ [.cmd 0x50000001, wr .ta 0x5A]) 0x55200003 4 := by decide
/-- PV-3. -/
theorem test_pktView_consecutive :
    runs ([wr .id 0x6A0, wr .ae 0x7B, wr .sn 3, wr .dlc 8] ++ loadPayload [1, 2, 3] ++ [.cmd 0x52300029]) 0x56000000
      [(.id, 0x000006A0), (.aty, 0), (.dlc, 8), (.ae, 0x7B), (.flen, 8), (.dir, 0), (.tsl, 0x00000000), (.tsh,
        0x00000000), (.plen, 6), (.sn, 3), (.res, 0x32), (.rp, 0xA39)]
      [(0x100, [0x7B, 0x23, 0x01, 0x02, 0x03, 0xCC, 0xCC, 0xCC]), (0x140, [0x01, 0x02, 0x03, 0xCC, 0xCC,
        0xCC])] := by decide
/-- PV-7. -/
theorem test_pktView_strict :
    fails ([wr .id 0x7DF] ++ loadPayload [1, 2, 3] ++ [wr .dlc 8, wr .dl 3, .cmd 0x50800021]) 0x56000000 3 := by decide
/-- PV-9. -/
theorem test_pktClear_keeps_fields :
    builds ([wr .id 0x7DF] ++ loadPayload [0x3E, 0x00] ++ [.cmd 0x50000001]) 0x57000000 0x00033000 [] [] := by decide
/-- SY-2. -/
theorem test_nop_keeps_sticky :
    (ended [wr .dlc 16, .cmd 0x20000000] 0x00000000).status = 0 ∧
    (ended [wr .dlc 16, .cmd 0x20000000] 0x00000000).esticky = 0x002 ∧
    (ended [wr .dlc 16, .cmd 0x20000000] 0x00000000).ecmd = 0x20000000 := by decide
/-- SY-3. -/
theorem test_clrstk_clears :
    (ended [wr .dlc 16, .cmd 0x20000000] 0x02000000).esticky = 0 ∧
    (ended [wr .dlc 16, .cmd 0x20000000] 0x02000000).ecmd = 0 ∧
    (ended [wr .dlc 16, .cmd 0x20000000] 0x02000000).reg .dlc = 16 := by decide
/-- SY-4. -/
theorem test_sreset_keeps_bytes :
    runs ([wr .dlc 16, .cmd 0x20000000, .wr 0x00C 0x55] ++ loadPayload [1, 2]) 0x01000000 [(.dlc, 0), (.plen, 0)]
      [(0x140, [1, 2])] ∧
    (ended [.wr 0x00C 0x55] 0x01000000).cfg = 0xCC := by decide
/-- IL-6. -/
theorem test_illegal_word : fails [] 0x41000100 6 := by decide

/-! ## Host actions -/

/-- BA-1 to BA-6. -/
theorem test_bad_accesses :
    [HostAction.wr 0x004 0x5, .rd 0x018, .rd 0x100, .wrb 0x040 0x10, .wr 0x042 0, .rdb 0x180].all (fun a =>
      setUp [a] == { State.reset with esticky := 0x200 }) := by decide
/-- BA-7. -/
theorem test_read_cmd : setUp [.rd 0x000] = State.reset := by decide
/-- 20_memory.md R67 to R69: the ends of the register window and of the buffer window, and the eight bits of `CFG`. -/
theorem test_host_boundaries :
    (setUp [.wr 0x040 7, .rd 0x040]).rdata = 7 ∧ (setUp [.wr 0x088 9, .rd 0x088]).rdata = 9 ∧
    (setUp [.wr 0x08C 9]).esticky = 0x200 ∧ (setUp [.wr 0x03C 9]).esticky = 0x200 ∧
    (setUp [.wrb 0x100 0xA5, .rdb 0x100]).rdata = 0xA5 ∧ (setUp [.wrb 0x17F 0x5A, .rdb 0x17F]).rdata = 0x5A ∧
    (setUp [.wrb 0x0FF 1]).esticky = 0x200 ∧ (setUp [.wr 0x00C 0x1AB, .rd 0x00C]).rdata = 0xAB := by decide

/-! ## Witnesses: concrete values that meet the hypotheses of the statements -/

/-- Every command answers a next state, so `stateOf` names it. -/
theorem exec_next_stateOf (i : Instr) (s : State) : exec i s = .next (stateOf s (exec i s)) := by
  rw [exec_eq]
  cases commandResult i s <;> rfl

/-- A payload of two bytes and an identifier. -/
def loaded : State := setUp ([wr .id 0x7E0, wr .bs 1, wr .st 2, wr .dl 20] ++ loadPayload [0x3E, 0x00])
/-- A Single Frame packet built from it. -/
def packed : State := stateOf loaded (exec (.pktSf false 0 0x01) loaded)
/-- A received Flow Control frame, and the record PKT_LOAD makes of it. -/
def received : State := setUp ([wr .id 0x7E8] ++ loadFrame [0x30, 0xF9, 0xE0] ++ [wr .dir 1])
def recorded : State := stateOf received (exec (.pktLoad 0) received)

/-- One input of each of the five host actions, a word that decodes and one that does not, and no input. -/
theorem witness_StepRunsTheIssuedCommand :
    ([HostAction.wr 0x040 7, .rd 0x040, .wrb 0x100 0xA5, .rdb 0x100, .cmd 0x10000000].all fun a =>
      ({ packed with pending := [.host a] } : State).pending == .host a :: []) = true ∧
    (State.reset.withFetchWord 32 0x1000_0000).pending = .host (.cmd 0x10000000#32) :: [] ∧
    decode 0x10000000#32 = .ok .idIsstd ∧ decode 0x41000100#32 = .error .reservedBits ∧ State.reset.pending = [] := by
  decide

theorem witness_DecodeOfEncodeIsTheCommand : (Instr.pktFc true 7 0xEF).WellFormed := by decide

theorem witness_DecodingIsTotalAndUnambiguous :
    decode 0x530000E1#32 = .ok (.pktFc false 0 0xE1) ∧ decode 0x53000010#32 = .error .presenceBits := by decide

theorem witness_FailedCommandChangesOnlyStatus :
    ∃ t, runCommand 0x41000000#32 State.reset = .next t ∧ t.err ≠ 0 := ⟨_, rfl, by decide⟩

theorem witness_WarningOnlyFromReservedSeparationTime :
    (∃ t, exec .stminDec (setUp [wr .st 0x80]) = .next t ∧ t.warn = true ∧ t.err = 0) ∧
    (∃ t, exec .stminDec (setUp [wr .st 0x7F]) = .next t ∧ t.warn = false ∧ t.err = 0) ∧
    ∃ t, exec .dlcMin State.reset = .next t ∧ t.err = 0 :=
  ⟨⟨_, exec_next_stateOf _ _, by decide⟩, ⟨_, exec_next_stateOf _ _, by decide⟩, ⟨_, exec_next_stateOf _ _, by decide⟩⟩

theorem witness_CommandsEndOnlyWithTheirCodes :
    ∃ t, exec (.pktSetai 2 0x03) packed = .next t ∧ t.err = 4 := ⟨_, exec_next_stateOf _ _, by decide⟩

theorem witness_CommandsWriteOnlyWhatTheirRulesName :
    (∃ t, exec (.pktSf false 0 0x01) loaded = .next t ∧ t.err = 0) ∧
    (∃ t, exec (.sfDec 0) loaded = .next t ∧ t.err ≠ 0) ∧ .id ∈ mayWrite (.pktSf false 0 0x01) ∧
    .ta ∉ mayWrite (.pktSf false 0 0x01) :=
  ⟨⟨_, exec_next_stateOf _ _, by decide⟩, ⟨_, exec_next_stateOf _ _, by decide⟩, by decide⟩

theorem witness_AmbiguityIsExactlyTheGuard :
    (∃ t, exec (.pktSetai 2 0x03) packed = .next t ∧ t.err = 4) ∧ packed.pkt.valid = true ∧
    packed.pkt.isRecord = false ∧ addrBytes 2 ≠ addrBytes packed.pkt.fmt.number :=
  ⟨⟨_, exec_next_stateOf _ _, by decide⟩, by decide⟩

theorem witness_IllegalHasTwoCauses :
    (∃ t, runCommand 0x03000000#32 State.reset = .next t ∧ t.err = 6) ∧
    (∃ t, runCommand 0x56000000#32 State.reset = .next t ∧ t.err = 6) ∧
    (∃ t, runCommand 0x55000001#32 recorded = .next t ∧ t.err = 6) ∧
    ∃ t, runCommand 0x55000001#32 packed = .next t ∧ t.err = 0 :=
  ⟨⟨_, rfl, by decide⟩, ⟨_, rfl, by decide⟩, ⟨_, exec_next_stateOf (.pktSetai 0 0x01) recorded, by decide⟩,
   ⟨_, exec_next_stateOf (.pktSetai 0 0x01) packed, by decide⟩⟩

theorem witness_ResultPresenceMaskHasTwelveBits :
    (∃ t, exec .pktView packed = .next t ∧ t.err = 0) ∧ ∃ t, exec .pktClear packed = .next t ∧ t.err = 0 :=
  ⟨⟨_, exec_next_stateOf _ _, by decide⟩, ⟨_, exec_next_stateOf _ _, by decide⟩⟩

theorem witness_PacketChangesOnlyByPacketCommands :
    (∃ t, exec (.pktSetai 0 0x01) packed = .next t ∧ t.err = 0) ∧
    ∃ t, exec (.pktLoad 0) received = .next t ∧ t.err = 0 :=
  ⟨⟨_, exec_next_stateOf _ _, by decide⟩, ⟨_, exec_next_stateOf _ _, by decide⟩⟩

/-- The same two states with PKT_VIEW as the next command. -/
def packedViewed : State := packed.withFetchWord 32 0x5600_0000
def recordedViewed : State := recorded.withFetchWord 32 0x5600_0000

theorem storageOk_packed : StorageOk packedViewed :=
  ⟨by decide, by decide, by decide, by decide, by decide, by decide, by decide, by decide, by decide, by decide⟩
theorem storageOk_recorded : StorageOk recordedViewed :=
  ⟨by decide, by decide, by decide, by decide, by decide, by decide, by decide, by decide, by decide, by decide⟩

theorem packetOk_packed : PacketOk packedViewed where
  length := by decide
  identifier := by decide
  addressing := by decide
  address := by decide
  type := by decide
  written := by decide
  record := by intro h; exact absurd h (by decide)
  packet := by decide

theorem packetOk_recorded : PacketOk recordedViewed where
  length := by decide
  identifier := by decide
  addressing := by decide
  address := by decide
  type := by decide
  written := by decide
  record := by
    intro _
    exact List.forall_mem_cons.2 ⟨by decide, List.forall_mem_cons.2 ⟨by decide, List.forall_mem_cons.2
      ⟨by decide, List.forall_mem_cons.2 ⟨by decide, by intro c hc; cases hc⟩⟩⟩⟩
  packet := by decide

theorem witness_StepKeepsTheStorageInvariant :
    StorageOk packedViewed ∧ ∃ t, step packedViewed = .next t := ⟨storageOk_packed, _, rfl⟩

theorem witness_StepKeepsThePacketInvariant :
    (Inv packedViewed ∧ ∃ t, step packedViewed = .next t ∧ t.pkt.valid = true) ∧
    (Inv recordedViewed ∧ ∃ t, step recordedViewed = .next t ∧ t.pkt.valid = true) :=
  ⟨⟨⟨storageOk_packed, fun _ => packetOk_packed⟩, _, rfl, by decide⟩,
   ⟨⟨storageOk_recorded, fun _ => packetOk_recorded⟩, _, rfl, by decide⟩⟩

theorem witness_HardwareResetGivesTheResetValues :
    ({ packed with pending := [.hardReset] } : State).pending = .hardReset :: [] := rfl

theorem witness_IdentifierWindowsInvert :
    Config.defaultOffsets.Ok ∧ inWindow Config.defaultOffsets 0x18DA0000 .nf .phys = true ∧
    inWindow Config.defaultOffsets 0x18CDFFFF .m29 .func = true ∧ isExtended 0x18D9FFFF = true ∧
    inWindow Config.defaultOffsets 0x18D9FFFF .nf .phys = false ∧
    inWindow Config.defaultOffsets 0x18D9FFFF .nf .func = false := by decide

/-- R120 to R122 at the ends of their ranges. -/
theorem witness_DataLengthFunctions :
    dlcExact 12 = .ok 9 ∧ dlcExact 9 = .error .invalidValue ∧ dlcMin 65 = .error .invalidValue ∧ dlcMin 64 = .ok 15 ∧
    dlcMin 8 = .ok 8 ∧ dlcMin 9 = .ok 9 ∧ dlcMin 12 = .ok 9 ∧ dlcMin 13 = .ok 10 ∧ dlcMin 16 = .ok 10 ∧
    dlcMin 17 = .ok 11 ∧ dlcMin 20 = .ok 11 ∧ dlcMin 21 = .ok 12 ∧ dlcMin 24 = .ok 12 ∧ dlcMin 25 = .ok 13 ∧
    dlcMin 32 = .ok 13 ∧ dlcMin 33 = .ok 14 ∧ dlcMin 48 = .ok 14 ∧ dlcMin 49 = .ok 15 := by decide

/-- AI-36. -/
theorem witness_AddressingRoundTrip :
    Config.defaultOffsets.Ok ∧
    aiValidate Config.defaultOffsets ⟨.m29, .func, none, some 0x33, some 0xF1, some 0x7B⟩ =
      .ok ⟨0x18CD33F1, some 0x33, some 0xF1, some 0x7B⟩ := by decide

/-- SF-24 and SF-25: the largest Single Frames. -/
theorem witness_SingleFrameRoundTrip :
    1 ≤ (List.replicate 62 0x11#8).length ∧ 0 + (List.replicate 62 0x11#8).length ≤ 62 ∧
    1 + (List.replicate 61 0x11#8).length ≤ 62 ∧ 1 + (List.replicate 6 0x11#8).length = 7 ∧
    1 + (List.replicate 7 0x11#8).length = 8 := by decide

/-- FF-2 and FF-7. -/
theorem witness_FirstFrameRoundTrip :
    (1 + (if 4095 < (20#32).toNat then 6 else 2) + [0x01#8, 2, 3, 4, 5].length = dlcBytes 8 ∧
      sfCap 1 8 < (20#32).toNat ∧ 0 < (20#32).toNat) ∧
    (0 + (if 4095 < (0xFFFFFFFF#32).toNat then 6 else 2) + [0x01#8, 2, 3, 4, 5, 6].length = dlcBytes 9 ∧
      sfCap 0 9 < (0xFFFFFFFF#32).toNat ∧ 0 < (0xFFFFFFFF#32).toNat) := by decide

/-- CF-4. -/
theorem witness_ConsecutiveFrameRoundTrip :
    1 ≤ [0x01#8, 2, 3].length ∧ 1 + 1 + [0x01#8, 2, 3].length ≤ dlcBytes 8 := by decide

/-- FC-3: the smallest code with an addressing byte. -/
theorem witness_FlowControlRoundTrip : 1 + 3 ≤ dlcBytes 4 ∧ [0x5A#8].length = 1 ∧ FlowStatus.wait ≠ .cts := by decide

/-- R205, R206 at the ends of their ranges (the rows of S4). -/
theorem witness_SeparationTime :
    reservedRaw 0x7F = false ∧ reservedRaw 0x80 = true ∧ reservedRaw 0xF0 = true ∧ reservedRaw 0xF1 = false ∧
    reservedRaw 0xF9 = false ∧ reservedRaw 0xFA = true ∧ reservedRaw 0xFF = true ∧ stminRaw 1270 = .ok 0x7F#8 ∧
    stminRaw 9 = .ok 0xF9#8 ∧ stminRaw 10 = .ok 0x01#8 := by decide

theorem witness_PktLoad :
    hi (received.fb (addrBytes 0)) = PacketType.fc.number ∧ 3 < hi ((setUp (loadFrame [0x40, 0x00])).fb (addrBytes 0)) := by
  decide

theorem witness_PktView : 0 = addrBytes packed.pkt.fmt.number ∧ 3 = packed.pkt.len.toNat ∧ .sf = packed.pkt.ptype := by
  decide

/-- Each build command ends `ok` in valid mode somewhere. -/
theorem witness_BuildEqualsLeafSequence :
    (∃ t, exec (.pktSf false 0 0x01) loaded = .next t ∧ t.err = 0) ∧
    (∃ t, exec (.pktFf false 0 0x01) (setUp ([wr .id 0x7E0, wr .dl 20] ++ loadPayload [1, 2, 3, 4, 5, 6])) = .next t ∧
      t.err = 0) ∧
    (∃ t, exec (.pktCf false 0 0x01) loaded = .next t ∧ t.err = 0) ∧
    ∃ t, exec (.pktFc false 0 0xC1) loaded = .next t ∧ t.err = 0 :=
  ⟨⟨_, exec_next_stateOf _ _, by decide⟩, ⟨_, exec_next_stateOf _ _, by decide⟩, ⟨_, exec_next_stateOf _ _, by decide⟩,
   ⟨_, exec_next_stateOf _ _, by decide⟩⟩

/-- Operands for the four build commands: a Single Frame of format `M29` whose identifier is computed, a First Frame of
format `EXT` in the escape form, a Consecutive Frame of format `M11` with filler, a Flow Control of format `NF` whose
addresses come from the identifier. -/
def forSf : State := setUp ([wr .ta 0x10, wr .sa 0xF1, wr .ae 0x7B] ++ loadPayload [0x11, 0x22, 0x33, 0x44, 0x55, 0x66])
def forFf : State := setUp ([wr .id 0x6A0, wr .ta 0x5A, wr .dl 5000] ++ loadPayload [1, 2, 3, 4, 5])
def forCf : State := setUp ([wr .id 0x6A0, wr .ae 0x7B, wr .sn 3, wr .dlc 8] ++ loadPayload [1, 2, 3])
def forFc : State := setUp [wr .id 0x18DB33F1, wr .aty 1, wr .bs 1, wr .st 2]

/-- Each packet type is built in valid mode, and PKT_VIEW of it ends `ok`. -/
theorem witness_ValidPacketsViewWhatTheyWereBuiltFrom :
    [(Instr.pktSf false 4 0x0E, forSf), (.pktFf false 2 0x03, forFf), (.pktCf false 3 0x29, forCf),
      (.pktFc false 1 0xC1, forFc)].all (fun p =>
        let t := stateOf p.2 (exec p.1 p.2)
        t.err == 0 && t.pkt.valid && (stateOf t (exec .pktView t)).err == 0) = true := by decide

end Sys2Proof.Tests
end

/-! What one step can do, and the storage invariant (10_state.md R31 to R33, R38, R40). -/

namespace Sys2Proof.Proofs

open Sys2Proof.Machine Sys2Proof.Claims Sys2Proof.Laws

/-! ## What one step can do -/

/-- What one input from outside does to the state `s` it meets (20_memory.md R66 to R70,
70_reset_and_hazards.md R280). -/
inductive InputEffect (s : State) : State → Prop
  | command (i : Instr) {t : State} : exec i s = .next t → InputEffect s t
  | illegal (w : Word) : InputEffect s (s.endError .illegal w)
  | setReg (r : Reg) (v : Word) : InputEffect s (s.setReg r v)
  | setCfg (b : Byte) : InputEffect s { s with cfg := b.setWidth 32 }
  | storeByte (off : Nat) (b : Byte) : isBufferOffset off = true → InputEffect s (s.storeBytes off [b])
  | badAccess : InputEffect s s.badAccess
  | returned (v : Word) : InputEffect s (s.returned v)
  | badRead : InputEffect s (s.badAccess.returned 0#32)
  | hardReset : InputEffect s s.hardReset

variable {s t u : State}

theorem runCommand_effect {w : Word} (h : runCommand w s = .next t) : InputEffect s t := by
  unfold runCommand at h
  split at h
  · exact .command _ h
  · cases h
    exact .illegal w

theorem writeWord_effect {off : Nat} {v : Word} (h : writeWord off v s = .next t) : InputEffect s t := by
  unfold writeWord at h
  split at h
  case h_1 => exact runCommand_effect h
  case h_2 => cases h; exact .setCfg _
  case h_3 r _ => cases h; exact .setReg r v
  all_goals
    cases h
    exact .badAccess

theorem readWord_effect (off : Nat) (s : State) : InputEffect s (readWord off s) := by
  unfold readWord
  split
  · exact .returned _
  · exact .badRead

theorem writeByte_effect (off : Nat) (b : Byte) (s : State) : InputEffect s (writeByte off b s) := by
  unfold writeByte
  split
  · exact .storeByte off b ‹_›
  · exact .badAccess

theorem readByte_effect (off : Nat) (s : State) : InputEffect s (readByte off s) := by
  unfold readByte
  split
  · exact .returned _
  · exact .badRead

/-- Every input, host action or hardware reset, has one of these effects. -/
theorem perform_effect {i : Input} (h : perform i s = .next t) : InputEffect s t := by
  cases i with
  | hardReset => cases h; exact .hardReset
  | host a =>
    cases a with
    | wr off v => exact writeWord_effect h
    | rd off => cases h; exact readWord_effect off s
    | wrb off b => cases h; exact writeByte_effect off b s
    | rdb off => cases h; exact readByte_effect off s
    | cmd w => exact runCommand_effect h

/-- A step changes nothing, or takes one input and has its effect (R74; 60_exceptions.md R262). -/
theorem step_cases (h : step s = .next t) : t = s ∨ ∃ rest, InputEffect { s with pending := rest } t := by
  unfold step takeInput at h
  split at h
  · cases h; exact .inl rfl
  · exact .inr ⟨_, perform_effect h⟩

/-! ## The storage invariant (10_state.md R31 to R33, R38, R40) -/

/-- Reserved bits that both parts leave 0 stay 0. -/
theorem or_reserved {v w m : Word} (hv : v &&& m = 0#32) (hw : w &&& m = 0#32) : (v ||| w) &&& m = 0#32 := by
  rw [BitVec.and_comm, BitVec.and_or_distrib_left, BitVec.and_comm m v, BitVec.and_comm m w, hv, hw, BitVec.or_zero]

theorem stickyErr_reserved {w : Word} (h : w &&& 0xFFFFFC81#32 = 0#32) (e : Err) :
    stickyErr w e &&& 0xFFFFFC81#32 = 0#32 := or_reserved h (by cases e <;> decide)

theorem stickyWarn_reserved {w : Word} (h : w &&& 0xFFFFFC81#32 = 0#32) (warn : Bool) :
    stickyWarn w warn &&& 0xFFFFFC81#32 = 0#32 := or_reserved h (by cases warn <;> decide)

theorem byte_reserved (b : Byte) : b.setWidth 32 &&& 0xFFFFFF00#32 = 0#32 := by
  apply BitVec.eq_of_getLsbD_eq
  intro i hi
  rw [show 0xFFFFFF00#32 = 0xFFFFFF#32 <<< 8 from rfl, BitVec.getLsbD_and, BitVec.getLsbD_setWidth,
    BitVec.getLsbD_shiftLeft]
  by_cases h : i < 8
  · simp [h]
  · simp [BitVec.getLsbD_of_ge b i (by omega)]

theorem storageOk_pending (h : StorageOk s) (rest : List Input) : StorageOk { s with pending := rest } :=
  { h with }

theorem storageOk_endError (h : StorageOk s) (e : Err) (w : Word) : StorageOk (s.endError e w) :=
  { h with
    code := by rw [State.endError_err]; cases e <;> decide
    warn := fun hw => by rw [State.endError_warn] at hw; cases hw
    status := by rw [State.endError_status]; cases e <;> decide
    esticky := stickyErr_reserved h.esticky e }

/-- The end `ok` takes care of `STATUS` itself. -/
theorem storageOk_endOk (warn : Bool) (hs : u.esticky &&& 0xFFFFFC81#32 = 0#32) (hc : u.cfg &&& 0xFFFFFF00#32 = 0#32)
    (hm : u.mem.wf) (hb : CellsIn u.mem 0x100 0x180) (hd : u.pkt.data.wf) (hr : CellsIn u.pkt.data 0 64)
    (ho : u.offs.Ok) : StorageOk (u.endOk warn) :=
  { code := by rw [State.endOk_err]; decide
    warn := fun _ => State.endOk_err u warn
    status := by rw [State.endOk_status]; cases warn <;> decide
    esticky := stickyWarn_reserved hs warn
    cfg := hc, mem := hm, buffers := hb, data := hd, store := hr, offs := ho }

theorem reset_storageOk : StorageOk State.reset :=
  { code := by decide
    warn := by decide
    status := by decide
    esticky := by decide
    cfg := by decide
    mem := Memory.wf_reset.1
    buffers := by decide
    data := Memory.wf_reset.2
    store := by decide
    offs := by decide }

theorem mayStore_buffers {i : Instr} {k : Nat} (h : mayStore i k) : 0x100 ≤ k ∧ k < 0x180 := by
  rcases h with ⟨_, h1, h2⟩ | ⟨_, h1, h2⟩ <;> omega

theorem storageOk_exec {i : Instr} (h : StorageOk s) (he : exec i s = .next t) : StorageOk t := by
  rcases exec_next he with ⟨u, hu, rfl⟩ | ⟨e, _, rfl⟩
  · by_cases h1 : i = .sreset
    · subst h1; cases hu
      exact storageOk_endOk _ reset_storageOk.esticky reset_storageOk.cfg h.mem h.buffers h.data h.store h.offs
    by_cases h2 : i = .clrstk
    · subst h2; cases hu
      exact storageOk_endOk _ reset_storageOk.esticky h.cfg h.mem h.buffers h.data h.store h.offs
    have heff := commandResult_effect hu h1 h2
    have hpkt := commandResult_packet hu
    exact storageOk_endOk _ (heff.esticky ▸ h.esticky) (heff.cfg ▸ h.cfg) (heff.canonical h.mem)
      (heff.cells _ h.buffers fun _ => mayStore_buffers) (packet_canonical hpkt h.data) (packet_range hpkt h.store)
      (heff.offs ▸ h.offs)
  · exact storageOk_endError h e _

theorem storageOk_badAccess (h : StorageOk s) : StorageOk s.badAccess :=
  { h with esticky := or_reserved h.esticky (by decide) }

theorem storageOk_returned (h : StorageOk s) (v : Word) : StorageOk (s.returned v) := { h with }

theorem storageOk_storeByte (h : StorageOk s) {off : Nat} (b : Byte) (ho : isBufferOffset off = true) :
    StorageOk (s.storeBytes off [b]) :=
  { h with
    mem := Memory.wf_writeBytes [b] h.mem off
    buffers := Memory.range_writeBytes (P := fun k => 0x100 ≤ k ∧ k < 0x180) [b] h.buffers fun k h1 h2 => by
      simp only [isBufferOffset, decide_eq_true_eq] at ho
      simp only [List.length_singleton] at h2
      omega }

theorem storageOk_hardReset (h : StorageOk s) : StorageOk s.hardReset :=
  { reset_storageOk with offs := h.offs }

theorem storageOk_inputEffect (h : StorageOk s) (he : InputEffect s t) : StorageOk t := by
  cases he with
  | command i hx => exact storageOk_exec h hx
  | illegal w => exact storageOk_endError h .illegal w
  | setReg r v => exact { h with }
  | setCfg b => exact { h with cfg := byte_reserved b }
  | storeByte off b ho => exact storageOk_storeByte h b ho
  | badAccess => exact storageOk_badAccess h
  | returned v => exact storageOk_returned h v
  | badRead => exact storageOk_returned (storageOk_badAccess h) _
  | hardReset => exact storageOk_hardReset h

/-- Settles O15: each effect an input can have keeps the storage invariant. -/
theorem stepKeepsTheStorageInvariant : Obligations.StepKeepsTheStorageInvariant := by
  intro s t h hstep
  rcases step_cases hstep with rfl | ⟨rest, he⟩
  · exact h
  · exact storageOk_inputEffect (storageOk_pending h rest) he

end Sys2Proof.Proofs

/-! The packet invariant (10_state.md R41): each way a command leaves `PKT` keeps it. -/

namespace Sys2Proof.Proofs

open Sys2Proof.Machine Sys2Proof.Claims Sys2Proof.Laws

variable {s t : State}

/-! ## What the packet invariant reads -/

/-- The packet invariant depends on `PKT`, the offsets and the reset number alone. -/
theorem packetOk_congr (h : PacketOk s) (hp : t.pkt = s.pkt) (ho : t.offs = s.offs) (he : t.epoch = s.epoch) :
    PacketOk t := by
  have hb : t.packetByte = s.packetByte := by
    funext k
    simp [State.packetByte, hp, he]
  constructor
  all_goals rw [hp]
  · exact h.length
  · exact h.identifier
  · exact ho ▸ h.addressing
  · exact hb ▸ h.address
  · exact hb ▸ h.type
  · exact h.written
  · exact hb ▸ h.record
  · exact h.packet

/-- The addressing fields of `PKT` validate to themselves when the values they were set to do. -/
theorem setAddressing_validates {o : Offsets} {f : Format} {a : AddrType} {r : Normalised}
    (h : aiValidate o ⟨f, a, some r.id, r.ta?, r.sa?, r.ae?⟩ = .ok r) (p : Packet) :
    let q := p.setAddressing f a r.id r.ta? r.sa? r.ae?
    aiValidate o ⟨q.fmt, q.aty, some q.id, q.ta?, q.sa?, q.ae?⟩ = .ok ⟨q.id, q.ta?, q.sa?, q.ae?⟩ := by
  obtain ⟨ht, hs, he⟩ := setAddressing_opts p f a r.id r.ta? r.sa? r.ae?
  show aiValidate o ⟨f, a, some r.id, _, _, _⟩ = .ok ⟨r.id, _, _, _⟩
  rw [ht, hs, he]
  exact h

/-- The addressing byte is the target or the extension that goes into `PKT` (42_addressing.md R134). -/
theorem addressByte_of_encData {f : Format} {ta? ae? : Option Byte} {d : List Byte} (hd : aiEncData f ta? ae? = .ok d)
    (h1 : addrBytes f.number = 1) (p : Packet) (a : AddrType) (id : Word) (sa? : Option Byte) :
    d.getD 0 0#8 = if f = .ext then (p.setAddressing f a id ta? sa? ae?).ta
      else (p.setAddressing f a id ta? sa? ae?).ae := by
  cases f with
  | n11 => exact absurd h1 (by decide)
  | nf => exact absurd h1 (by decide)
  | ext =>
    cases ta? with
    | none => cases hd
    | some b => cases hd; rfl
  | m11 =>
    cases ae? with
    | none => cases hd
    | some b => cases hd; rfl
  | m29 =>
    cases ae? with
    | none => cases hd
    | some b => cases hd; rfl

theorem encData_length {f : Format} {ta? ae? : Option Byte} {d : List Byte} (hd : aiEncData f ta? ae? = .ok d) :
    d.length = addrBytes f.number := ((yields_aiEncData f ta? ae?).passed hd).1.1

theorem firstByte_eq_ok {data : List Byte} {b : Byte} (h : firstByte data = .ok b) : data.take 1 = [b] := by
  cases data with
  | nil => cases h
  | cons c cs => cases h; rfl

/-- The addressing recovered from a frame encodes to the frame's own addressing bytes (R134, R135). -/
theorem encData_of_decode {o : Offsets} {f : Format} {id : Word} {data : List Byte} {r : AiFields}
    (h : aiDecode o f id data = .ok r) : aiEncData f r.ta? r.ae? = .ok (data.take (addrBytes f.number)) := by
  cases f with
  | n11 => rfl
  | nf => rfl
  | ext =>
    obtain ⟨b, hb, h⟩ := bind_ok h
    cases h
    exact congrArg Except.ok (firstByte_eq_ok hb).symm
  | m11 =>
    obtain ⟨_, _, h⟩ := bind_ok h
    obtain ⟨b, hb, h⟩ := bind_ok h
    cases h
    exact congrArg Except.ok (firstByte_eq_ok hb).symm
  | m29 =>
    obtain ⟨_, _, h⟩ := bind_ok h
    obtain ⟨b, hb, h⟩ := bind_ok h
    cases h
    exact congrArg Except.ok (firstByte_eq_ok hb).symm

/-! ## A packet made of a whole frame (47_packet.md R216, R225) -/

/-- A frame and normalised addressing that belong together, as PKT_LOAD and the build commands put them into `PKT`. -/
structure FrameFits (o : Offsets) (f : Format) (a : AddrType) (r : Normalised) (type : PacketType) (c : Dlc)
    (frame : List Byte) : Prop where
  identifier : r.id.toNat ≤ 0x1FFFFFFF
  validates  : aiValidate o ⟨f, a, some r.id, r.ta?, r.sa?, r.ae?⟩ = .ok r
  address    : aiEncData f r.ta? r.ae? = .ok (frame.take (addrBytes f.number))
  length     : frame.length = frameBytes c.val
  atLeastTwo : 2 ≤ frame.length
  pci        : hi (frame.getD (addrBytes f.number) 0#8) = type.number

/-- `PKT` filled with a whole frame (R216, R225). -/
def framedPacket (p : Packet) (f : Format) (a : AddrType) (r : Normalised) (type : PacketType) (c : Dlc)
    (frame : List Byte) (isRecord : Bool) (dir : Direction) (ts : BitVec 64) : Packet :=
  { (p.setAddressing f a r.id r.ta? r.sa? r.ae?).setFrame type c frame with isRecord := isRecord, dir := dir, ts := ts }

variable {f : Format} {a : AddrType} {r : Normalised} {type : PacketType} {c : Dlc} {frame : List Byte}
  {isRecord : Bool} {dir : Direction} {ts : BitVec 64}

/-- Below the frame's length `PKT.DATA` is the frame. -/
theorem packetByte_framed (hp : t.pkt = framedPacket s.pkt f a r type c frame isRecord dir ts) (he : t.epoch = s.epoch)
    {k : Nat} (hk : k < frame.length) : t.packetByte k = frame.getD k 0#8 := by
  rw [packetByte_write s t frame he (by rw [hp]; rfl) k, if_pos hk]

/-- A frame and addressing that fit meet the packet invariant in `PKT`. -/
theorem packetOk_framed (h : FrameFits s.offs f a r type c frame)
    (hrec : isRecord = true →
      ∀ x ∈ decChecks type (fun k => frame.getD k 0#8) (addrBytes f.number) frame.length, ¬x.1)
    (hpk : isRecord = false → dir = .tx ∧ ts = 0#64)
    (hp : t.pkt = framedPacket s.pkt f a r type c frame isRecord dir ts) (ho : t.offs = s.offs)
    (he : t.epoch = s.epoch) : PacketOk t := by
  have ha := addrBytes_le f.number
  have h2 := h.atLeastTwo
  have h64 := frameBytes_le64 c.val
  have hb : ∀ k, k < frame.length → t.packetByte k = frame.getD k 0#8 := fun k hk => packetByte_framed hp he hk
  have hlen : t.pkt.len.toNat = frame.length := by
    rw [hp, h.length]
    show (BitVec.ofNat 7 (dlcBytes c)).toNat = _
    rw [dlcBytes_eq, BitVec.toNat_ofNat]
    omega
  have hdata : t.pkt.data = s.pkt.data.writeBytes 0 frame := by rw [hp]; rfl
  have hfmt : t.pkt.fmt = f := by rw [hp]; rfl
  have hdlc : t.pkt.dlc = c := by rw [hp]; rfl
  constructor
  case length => rw [hlen, hdlc, h.length]; have := h.length; omega
  case identifier => rw [hp]; exact h.identifier
  case addressing => rw [hp, ho]; exact setAddressing_validates h.validates s.pkt
  case address =>
    intro h1
    rw [hfmt] at h1
    rw [hfmt, hp, hb 0 (by omega)]
    refine Eq.trans ?_ (addressByte_of_encData h.address h1 s.pkt a r.id r.sa?)
    rw [h1, List.getD_eq_getElem?_getD, List.getD_eq_getElem?_getD, List.getElem?_take_of_lt (by decide)]
  case type => rw [hfmt, hb _ (by omega), h.pci, hp]; rfl
  case written =>
    intro k hk
    rw [hlen] at hk
    rw [hdata, Memory.read_writeBytes, if_pos (by omega)]
    rfl
  case record =>
    intro hr
    rw [hlen, hfmt, show t.pkt.ptype = type by rw [hp]; rfl]
    exact decChecks_congr ha hb (hrec (by rw [hp] at hr; exact hr))
  case packet =>
    intro hr
    rw [hp] at hr ⊢
    exact hpk hr

/-- A packet that a build command makes fits (R216). -/
theorem frameFits_build {fmt : BitVec 3} {pm : BitVec 8} {v : Addressing} {d : List Byte} {e : Encoded}
    {pci pay : List Byte} {fill : Byte} (hoffs : s.offs.Ok) (hv : AddressingIs fmt pm s v)
    (hr : aiValidate s.offs v = .ok r) (hd : aiEncData v.fmt r.ta? r.ae? = .ok d)
    (he : EncodedIs (addrBytes fmt) e.code.val pci pay fill e) (hpci : ∀ b, pci.head? = some b → hi b = type.number)
    (hne : pci ≠ []) (h2 : 2 ≤ dlcBytes e.code) :
    FrameFits s.offs v.fmt v.aty r type e.code (d ++ e.body) := by
  have hdl := encData_length hd
  have hlen := build_length hv.fmt hd he
  refine ⟨id_range hoffs hv hr, validate_self hoffs hr, ?_, hlen, by rw [hlen, ← dlcBytes_eq]; exact h2, ?_⟩
  · rw [← hdl, List.take_left]; exact hd
  · obtain ⟨b, bs, rfl⟩ := List.exists_cons_of_ne_nil hne
    rw [← hdl, List.getD_append_right _ _ _ _ (Nat.le_refl _), Nat.sub_self, he.body]
    exact hpci b rfl

theorem observedType_eq_ok {b : Byte} (h : observedType b = .ok type) : hi b = type.number := by
  unfold observedType at h
  split at h
  · cases h
    rw [← hi4_toNat]
    exact (packetTypeOf_eq _ _).1 ‹_›
  · cases h

theorem getD_frame (s : State) {n k : Nat} (hk : k < n) : (s.frame n).getD k 0#8 = s.fb k := by
  rw [State.frame, getD_bytesFrom _ _ _ _ _ hk, Nat.zero_add]

theorem length_frame (s : State) (n : Nat) : (s.frame n).length = n := length_bytesFrom _ _ _

/-- An observed frame that PKT_LOAD accepts fits (R225). -/
theorem frameFits_load {id : Word} {n : Nat} {q : AiFields} (hid : id.toNat ≤ 0x1FFFFFFF) (hc : dlcBytes c = n)
    (h2 : 2 ≤ n) (hq : aiDecode s.offs f id (s.frame n) = .ok q) (hat : addrTypeDiffers q.aty? a = false)
    (htype : observedType (s.fb (aiBytes f)) = .ok type) :
    FrameFits s.offs f a ⟨id, q.ta?, q.sa?, q.ae?⟩ type c (s.frame n) := by
  have ha := addrBytes_le f.number
  refine ⟨hid, load_validates hq hat, encData_of_decode hq, ?_, ?_, ?_⟩
  · rw [length_frame, ← hc, dlcBytes_eq]
  · rw [length_frame]; exact h2
  · rw [getD_frame s (by omega), ← aiBytes_eq]
    exact observedType_eq_ok htype

/-- An observed frame that PKT_LOAD accepts passes the strict decoder (R225). -/
theorem decChecks_load {n : Nat} {v : PacketView} (hv : viewFrame type (aiBytes f) (s.frame n) = .ok v) :
    ∀ x ∈ decChecks type (fun k => (s.frame n).getD k 0#8) (addrBytes f.number) (s.frame n).length, ¬x.1 := by
  rw [length_frame, ← aiBytes_eq]
  have ha : aiBytes f ≤ 1 := aiBytes_eq f ▸ addrBytes_le _
  exact decChecks_congr ha (fun k hk => getD_frame s hk) ((yields_viewFrame type s.fb ha n).passed hv).2

/-! ## A packet with its addressing changed (R228) -/

/-- PKT_SETAI keeps the invariant: only the addressing and the bytes before the PCI byte change. -/
theorem packetOk_setai {fmt : BitVec 3} {pm : BitVec 8} {v : Addressing} {d : List Byte} (h : PacketOk s)
    (hoffs : s.offs.Ok) (hrec : s.pkt.isRecord = false) (hv : AddressingIs fmt pm s v)
    (hn : aiBytes v.fmt = aiBytes s.pkt.fmt) (hr : aiValidate s.offs v = .ok r)
    (hd : aiEncData v.fmt r.ta? r.ae? = .ok d)
    (hp : t.pkt = { s.pkt.setAddressing v.fmt v.aty r.id r.ta? r.sa? r.ae? with data := s.pkt.data.writeBytes 0 d })
    (ho : t.offs = s.offs) (he : t.epoch = s.epoch) : PacketOk t := by
  have hdl := encData_length hd
  have hdata : t.pkt.data = s.pkt.data.writeBytes 0 d := by rw [hp]
  have hb := packetByte_write s t d he hdata
  have hfmt : t.pkt.fmt = v.fmt := by rw [hp]; rfl
  have hlen : t.pkt.len = s.pkt.len := by rw [hp]; rfl
  rw [aiBytes_eq, aiBytes_eq] at hn
  constructor
  case length => rw [hlen, show t.pkt.dlc = s.pkt.dlc by rw [hp]; rfl]; exact h.length
  case identifier => rw [hp]; exact id_range hoffs hv hr
  case addressing => rw [hp, ho]; exact setAddressing_validates (validate_self hoffs hr) s.pkt
  case address =>
    intro h1
    rw [hfmt] at h1
    rw [hb, if_pos (by omega), hfmt, hp]
    exact addressByte_of_encData hd h1 s.pkt v.aty r.id r.sa?
  case type =>
    rw [hfmt, hb, if_neg (by omega), hn, h.type, hp]
    rfl
  case written =>
    intro k hk
    rw [hdata, Memory.read_writeBytes]
    split
    · rfl
    · exact h.written k (hlen ▸ hk)
  case record =>
    intro hx
    rw [hp] at hx
    exact absurd (hrec.symm.trans hx) (by decide)
  case packet => intro _; rw [hp]; exact h.packet hrec

/-! ## Every step -/

/-- However a command leaves `PKT`, a packet in it meets the invariant. -/
theorem packetOk_packetStep {i : Instr} {p : Packet} (h : PacketStep i s p) (hinv : Inv s) (hp : t.pkt = p)
    (ho : t.offs = s.offs) (he : t.epoch = s.epoch) (hvalid : p.valid = true) : PacketOk t := by
  obtain ⟨hstore, hpkt⟩ := hinv
  cases h with
  | same => exact packetOk_congr (hpkt hvalid) hp ho he
  | softReset => cases hvalid
  | clear => cases hvalid
  | build fmt pm v r d type e pci pay fill _ hv hr hd hei hpci hne h2 =>
    exact packetOk_framed (isRecord := false) (frameFits_build hstore.offs hv hr hd hei hpci hne h2) nofun
      (fun _ => ⟨rfl, rfl⟩) hp ho he
  | load f a id n c q type dir ts v _ hid hc h2 hq hat htype hv =>
    exact packetOk_framed (isRecord := true) (frameFits_load hid hc h2 hq hat htype) (fun _ => decChecks_load hv)
      nofun hp ho he
  | setai fmt pm v r d _ hval hrec hv hn hr hd =>
    exact packetOk_setai (hpkt hval) hstore.offs hrec hv hn hr hd hp ho he

/-- No command changes the offsets or the reset number (log entries 1 and 2). -/
theorem commandResult_offs_epoch {i : Instr} {u : State} (h : commandResult i s = .ok u) :
    u.offs = s.offs ∧ u.epoch = s.epoch := by
  by_cases h1 : i = .sreset
  · subst h1; cases h; exact ⟨rfl, rfl⟩
  by_cases h2 : i = .clrstk
  · subst h2; cases h; exact ⟨rfl, rfl⟩
  · have heff := commandResult_effect h h1 h2
    exact ⟨heff.offs, heff.epoch⟩

theorem packetOk_exec {i : Instr} (hinv : Inv s) (h : exec i s = .next t) (hvalid : t.pkt.valid = true) :
    PacketOk t := by
  rcases exec_next h with ⟨u, hu, rfl⟩ | ⟨e, _, rfl⟩
  · obtain ⟨ho, he⟩ := commandResult_offs_epoch hu
    exact packetOk_packetStep (commandResult_packet hu) hinv rfl ho he hvalid
  · exact packetOk_congr (hinv.2 hvalid) rfl rfl rfl

theorem packetOk_inputEffect (hinv : Inv s) (h : InputEffect s t) (hvalid : t.pkt.valid = true) : PacketOk t := by
  cases h with
  | command i hx => exact packetOk_exec hinv hx hvalid
  | hardReset => cases hvalid
  | illegal | setReg | setCfg | storeByte | badAccess | returned | badRead =>
    exact packetOk_congr (hinv.2 hvalid) rfl rfl rfl

/-- Settles O16: each effect an input can have keeps the packet invariant. -/
theorem stepKeepsThePacketInvariant : Obligations.StepKeepsThePacketInvariant := by
  intro s t hinv hstep hvalid
  rcases step_cases hstep with rfl | ⟨rest, he⟩
  · exact hinv.2 hvalid
  · refine packetOk_inputEffect ⟨storageOk_pending hinv.1 rest, fun hv => ?_⟩ he hvalid
    exact packetOk_congr (hinv.2 hv) rfl rfl rfl

end Sys2Proof.Proofs

/-! What every command writes and leaves alone (10_state.md R22, R24, R38). -/

namespace Sys2Proof.Proofs

open Sys2Proof.Machine Sys2Proof.Claims Sys2Proof.Laws

variable {i : Instr} {s t u : State}

/-! ## The frame -/

theorem mem_allRegs (r : Reg) : r ∈ allRegs := by cases r <;> decide

/-- Settles O12: the effect of each command stays within its rows of the tables, SRESET and CLRSTK by themselves, and an
error changes the status registers alone. -/
theorem commandsWriteOnlyWhatTheirRulesName : Obligations.CommandsWriteOnlyWhatTheirRulesName := by
  intro i s t h
  rcases exec_next h with ⟨u, hu, rfl⟩ | ⟨e, _, rfl⟩
  · by_cases h1 : i = .sreset
    · subst h1; cases hu
      exact ⟨fun r hr => absurd (mem_allRegs r) hr, fun _ _ _ => rfl, fun h => absurd rfl h, rfl, rfl, rfl, rfl⟩
    by_cases h2 : i = .clrstk
    · subst h2; cases hu
      exact ⟨fun _ _ => rfl, fun _ _ _ => rfl, fun _ => rfl, rfl, rfl, rfl, rfl⟩
    have heff := commandResult_effect hu h1 h2
    exact ⟨heff.regs, fun k hf hp => heff.bytes k (not_or.2 ⟨hf, hp⟩), fun _ => heff.cfg, heff.offs, heff.epoch,
      heff.pending, heff.rdata⟩
  · exact ⟨fun _ _ => rfl, fun _ _ _ => rfl, fun _ => rfl, rfl, rfl, rfl, rfl⟩

/-! ## The result presence mask -/

/-- Registers that have a bit in `x[RP]` (R24). -/
abbrev Marked (rs : List Reg) : Prop := ∀ r ∈ rs, r.index.val < 12

theorem marked_append {rs qs : List Reg} (hr : Marked rs) (hq : Marked qs) : Marked (rs ++ qs) :=
  List.forall_mem_append.2 ⟨hr, hq⟩

/-- An optional result marks its own register only. -/
theorem marked_presentReg {α : Type} {r : Reg} (hr : r.index.val < 12) (o : Option α) : Marked (presentReg r o) := by
  cases o with
  | none => exact fun _ hq => nomatch hq
  | some v => exact fun _ hq => List.mem_singleton.1 hq ▸ hr

/-- A mask of such registers has no bit above them. -/
theorem presenceMask_lt : ∀ {rs : List Reg}, Marked rs → (presenceMask rs).toNat < 2 ^ 12
  | [], _ => by decide
  | r :: rs, h => by
    have hr : r.index.val < 12 := h r List.mem_cons_self
    have hbit : (1#32 <<< r.index.val).toNat < 2 ^ 12 := by
      rw [BitVec.toNat_shiftLeft, Nat.shiftLeft_eq, BitVec.toNat_ofNat]
      have := Nat.pow_lt_pow_right (a := 2) (by decide) hr
      exact Nat.lt_of_le_of_lt (Nat.mod_le _ _) (by omega)
    rw [presenceMask, BitVec.toNat_or]
    exact Nat.or_lt_two_pow hbit (presenceMask_lt fun q hq => h q (List.mem_cons_of_mem _ hq))

/-- The command's last write is a result presence mask. -/
def MarksResults (u : State) : Prop := ∃ v rs, u = State.setPresence v rs ∧ Marked rs

theorem MarksResults.lt (h : MarksResults u) : num u .rp < 2 ^ 12 := by
  obtain ⟨v, rs, rfl, hrs⟩ := h
  rw [num, State.setPresence_eq, State.reg_setReg_self]
  exact presenceMask_lt hrs

/-- Every command that ends `ok` writes a result presence mask last, but for the four named here. -/
theorem commandResult_marks (h : commandResult i s = .ok u) (h1 : i ≠ .nop) (h2 : i ≠ .sreset) (h3 : i ≠ .clrstk)
    (h4 : i ≠ .pktClear) : MarksResults u := by
  cases i
  case nop => exact absurd rfl h1
  case sreset => exact absurd rfl h2
  case clrstk => exact absurd rfl h3
  case pktClear => exact absurd rfl h4
  case idIsstd => cases h; exact ⟨_, [], rfl, by decide⟩
  case idIsext => cases h; exact ⟨_, [], rfl, by decide⟩
  case ptGet fmt =>
    obtain ⟨_, _, h⟩ := bind_ok h
    obtain ⟨_, _, h⟩ := bind_ok h
    obtain ⟨_, _, h⟩ := bind_ok h
    split at h
    · cases h; exact ⟨_, [], rfl, by decide⟩
    · cases h
  case aiDecode fmt =>
    obtain ⟨_, _, h⟩ := bind_ok h
    obtain ⟨_, _, h⟩ := bind_ok h
    obtain ⟨_, _, h⟩ := bind_ok h
    obtain ⟨_, _, h⟩ := bind_ok h
    cases h
    refine ⟨_, _, rfl, ?_⟩
    repeat refine marked_append ?_ (marked_presentReg (by decide) _)
    exact marked_presentReg (by decide) _
  case aiValidate | fcDec | pktView =>
    obtain ⟨_, _, h⟩ := bind_ok h
    obtain ⟨_, _, h⟩ := bind_ok h
    cases h
    refine ⟨_, _, rfl, ?_⟩
    repeat refine marked_append ?_ (marked_presentReg (by decide) _)
    decide
  -- The other commands mark a fixed set of results, whatever they compute.
  all_goals
    repeat obtain ⟨_, _, h⟩ := bind_ok h
    cases h
    exact ⟨_, _, rfl, by decide⟩

/-- A command that ends with code 0 has passed its checks. -/
theorem exec_ok (h : exec i s = .next t) (herr : t.err = 0) :
    ∃ u, commandResult i s = .ok u ∧ t = u.endOk (warns i s) := by
  rcases exec_next h with hok | ⟨e, _, rfl⟩
  · exact hok
  · rw [State.endError_err] at herr
    cases e
    all_goals exact absurd herr (by decide)

/-- Settles O11: such a mask has twelve bits, SRESET clears `x[RP]`, and the other three do not write it. -/
theorem resultPresenceMaskHasTwelveBits : Obligations.ResultPresenceMaskHasTwelveBits := by
  intro i s t h herr
  obtain ⟨u, hu, rfl⟩ := exec_ok h herr
  by_cases hn : i = .nop ∨ i = .clrstk ∨ i = .pktClear
  · rw [if_pos hn]
    rcases hn with rfl | rfl | rfl
    all_goals
      cases hu
      rfl
  · rw [if_neg hn]
    simp only [not_or] at hn
    obtain ⟨h1, h2, h3⟩ := hn
    by_cases h4 : i = .sreset
    · subst h4; cases hu
      exact (by decide : num State.reset .rp < 2 ^ 12)
    · exact (commandResult_marks hu h1 h4 h2 h3).lt

end Sys2Proof.Proofs

/-! What PKT_VIEW leaves in the registers and buffers (47_packet.md R232). -/

namespace Sys2Proof.Proofs

open Sys2Proof.Machine Sys2Proof.Claims Sys2Proof.Laws

variable {s u : State}

/-! ## Optional results -/

theorem reg_setRegByte?_self (s : State) (r : Reg) (b? : Option Byte) :
    (s.setRegByte? r b?).reg r = (b?.map (BitVec.setWidth 32)).getD (s.reg r) := by
  cases b? with
  | none => rfl
  | some b => exact State.reg_setReg_self s r _

theorem reg_setRegNat?_self (s : State) (r : Reg) (n? : Option Nat) :
    (s.setRegNat? r n?).reg r = (n?.map w32).getD (s.reg r) := by
  cases n? with
  | none => rfl
  | some n => exact State.reg_setReg_self s r _

theorem reg_deliverPayload?_self (s : State) (pay? : Option (List Byte)) :
    (s.deliverPayload? pay?).reg .plen = (pay?.map fun pay => w32 pay.length).getD (s.reg .plen) := by
  cases pay? with
  | none => rfl
  | some pay => exact State.reg_setReg_self _ _ _

theorem reg_deliverPayload?_ne (s : State) {r : Reg} (h : r ≠ .plen) (pay? : Option (List Byte)) :
    (s.deliverPayload? pay?).reg r = s.reg r := by
  cases pay? with
  | none => rfl
  | some pay => exact State.reg_setReg_ne _ h _

theorem byteAt_setRegByte? (s : State) (r : Reg) (b? : Option Byte) (k : Nat) :
    (s.setRegByte? r b?).byteAt k = s.byteAt k := by
  cases b? with
  | none => rfl
  | some b => rfl

theorem byteAt_setRegNat? (s : State) (r : Reg) (n? : Option Nat) (k : Nat) :
    (s.setRegNat? r n?).byteAt k = s.byteAt k := by
  cases n? with
  | none => rfl
  | some b => rfl

/-! ## The view -/

/-- The state that PKT_VIEW makes of `s` from the decoded view `v`, before `STATUS` is written (R232). -/
def viewed (s : State) (v : PacketView) : State :=
  ((((((s.deliverAddressing s.pkt).storeFb 0 (s.packetFrame s.pkt.len.toNat)).setRegNat .flen
    s.pkt.len.toNat).deliverRecord s.pkt).deliverView v).setReg .res s.pkt.viewResult).setPresence
      (viewPresence s.pkt v)

/-- PKT_VIEW of a packet whose frame its strict decoder accepts. -/
theorem exec_pktView (hvalid : s.pkt.valid = true)
    (h : ∀ c ∈ decChecks s.pkt.ptype s.packetByte (addrBytes s.pkt.fmt.number) s.pkt.len.toNat, ¬c.1) :
    ∃ v, exec .pktView s = .next ((viewed s v).endOk false) ∧
      ViewIs s.pkt.ptype s.packetByte (addrBytes s.pkt.fmt.number) s.pkt.len.toNat v := by
  obtain ⟨v, hv, hview⟩ := (yields_viewFrame s.pkt.ptype s.packetByte (addrBytes_le _) s.pkt.len.toNat).all h
  refine ⟨v, ?_, hview⟩
  have hr : pktViewResult s = .ok (viewed s v) := by
    unfold pktViewResult
    rw [raiseIf_not (by simp [hvalid]), ok_bind, State.packetFrame, aiBytes_eq]
    exact bind_eq_ok.2 ⟨v, hv, rfl⟩
  show conclude _ s (pktViewResult s) = _
  rw [hr]
  rfl

/-- The registers after PKT_VIEW (R232). -/
structure ViewRegisters (s u : State) (v : PacketView) : Prop where
  id   : u.reg .id = s.pkt.id
  aty  : u.reg .aty = w32 s.pkt.aty.number
  dlc  : u.reg .dlc = w32 s.pkt.dlc.val
  ta   : u.reg .ta = (s.pkt.ta?.map (BitVec.setWidth 32)).getD (s.reg .ta)
  sa   : u.reg .sa = (s.pkt.sa?.map (BitVec.setWidth 32)).getD (s.reg .sa)
  ae   : u.reg .ae = (s.pkt.ae?.map (BitVec.setWidth 32)).getD (s.reg .ae)
  flen : u.reg .flen = w32 s.pkt.len.toNat
  dir  : u.reg .dir = w32 s.pkt.dir.number
  tsl  : u.reg .tsl = s.pkt.ts.extractLsb' 0 32
  tsh  : u.reg .tsh = s.pkt.ts.extractLsb' 32 32
  plen : u.reg .plen = (v.pay?.map fun pay => w32 pay.length).getD (s.reg .plen)
  dl   : u.reg .dl = (v.dl?.map w32).getD (s.reg .dl)
  sn   : u.reg .sn = (v.sn?.map fun n => w32 n.toNat).getD (s.reg .sn)
  fs   : u.reg .fs = (v.fs?.map fun f => w32 f.number.toNat).getD (s.reg .fs)
  bs   : u.reg .bs = (v.bs?.map (BitVec.setWidth 32)).getD (s.reg .bs)
  st   : u.reg .st = (v.st?.map (BitVec.setWidth 32)).getD (s.reg .st)
  res  : u.reg .res = s.pkt.viewResult
  rp   : u.reg .rp = presenceMask (viewPresence s.pkt v)

theorem viewRegisters_viewed (s : State) (v : PacketView) : ViewRegisters s (viewed s v) v := by
  constructor
  all_goals
    simp [viewed, State.deliverAddressing, State.deliverRecord, State.deliverView, reg_setRegByte?_self,
      reg_setRegNat?_self, reg_deliverPayload?_self, reg_setRegByte?_ne, reg_setRegNat?_ne, reg_deliverPayload?_ne, w32,
      Function.comp_def]

/-- The bytes a payload view leaves. -/
theorem byteAt_deliverPayload? (s : State) (pay? : Option (List Byte)) (k : Nat) :
    (s.deliverPayload? pay?).byteAt k =
      (pay?.map fun pay => (s.storePb 0 pay).byteAt k).getD (s.byteAt k) := by
  cases pay? with
  | none => rfl
  | some pay => rfl

/-- The bytes of the buffers after PKT_VIEW: the frame is stored, then the payload. -/
theorem byteAt_viewed (s : State) (v : PacketView) (k : Nat) :
    ∃ u : State, (viewed s v).byteAt k = (u.deliverPayload? v.pay?).byteAt k ∧
      ∀ j, j < s.pkt.len.toNat → u.fb j = s.packetByte j := by
  refine ⟨(((s.deliverAddressing s.pkt).storeFb 0 (s.packetFrame s.pkt.len.toNat)).setRegNat .flen
    s.pkt.len.toNat).deliverRecord s.pkt, ?_, fun j hj => ?_⟩
  · simp only [viewed, State.deliverView, State.setPresence_eq, State.byteAt_setReg, byteAt_setRegByte?,
      byteAt_setRegNat?]
  · refine (fb_storeFb _ 0 (s.packetFrame s.pkt.len.toNat) j).trans ?_
    rw [State.packetFrame, length_bytesFrom, if_pos (by omega), getD_bytesFrom _ _ _ _ _ (by omega)]
    simp

theorem fb_viewed (s : State) (v : PacketView) {k : Nat} (hk : k < s.pkt.len.toNat) (h64 : s.pkt.len.toNat ≤ 64) :
    (viewed s v).fb k = s.packetByte k := by
  obtain ⟨u, hu, hfb⟩ := byteAt_viewed s v (fbBase + k)
  refine (hu.trans (byteAt_deliverPayload? _ _ _)).trans ?_
  cases v.pay? with
  | none => exact hfb k hk
  | some pay => exact (fb_storePb u pay (by omega)).trans (hfb k hk)

theorem pb_viewed (s : State) {v : PacketView} {pay : List Byte} (hv : v.pay? = some pay) {k : Nat}
    (hk : k < pay.length) : (viewed s v).pb k = pay.getD k 0#8 := by
  obtain ⟨u, hu, _⟩ := byteAt_viewed s v (pbBase + k)
  rw [hv] at hu
  exact hu.trans ((pb_storePb u pay k).trans (if_pos hk))

end Sys2Proof.Proofs

/-! A packet built in valid mode passes the strict decoder of its type, which reads its own values back (47_packet.md
R216; 43_single_frame.md R158, 44_first_frame.md R174, 45_consecutive_frame.md R187, 46_flow_control.md R199). -/

namespace Sys2Proof.Proofs

open Sys2Proof.Machine Sys2Proof.Claims Sys2Proof.Laws

variable {s u : State} {fmt : BitVec 3} {pm : BitVec 8}

/-! ## What a build command leaves -/

/-- What a build command that passed its checks leaves (R216), with the optional addresses of `PKT` by number. -/
structure BuiltPacket (s u : State) (fmt : BitVec 3) (pm : BitVec 8) (type : PacketType) (c : Nat) (pci : List Byte)
    (len : Nat) : Prop where
  built     : Built s (u.endOk false) fmt pm type c pci len
  target    : OptIs (hasTarget fmt = true) (fun b => b.toNat = normTa fmt pm s) u.pkt.ta?
  source    : OptIs (structured fmt = true) (fun b => b.toNat = normSa pm s) u.pkt.sa?
  extension : OptIs (hasExtension fmt = true) (fun b => b.toNat = num s .ae) u.pkt.ae?
  fits      : addrBytes fmt + pci.length + len ≤ frameBytes c

theorem pktBuild_builds {v : Addressing} {type : PacketType} {enc : Nat → Except Err Encoded} {own : List Check}
    {c : Nat} {pci : List Byte} {len : Nat} (hv : AddressingIs fmt pm s v)
    (henc : Yields (enc (addrBytes fmt)) own (EncodedIs (addrBytes fmt) c pci (s.payload len) s.fill))
    (h : pktBuild v type enc s = .ok u) : BuiltPacket s u fmt pm type c pci len ∧ ∀ c ∈ own, ¬c.1 := by
  have hbuild := yields_pktBuild (type := type) hv (henc.mono fun _ he => fill_eq s ▸ he)
  obtain ⟨⟨hb, _, frame, r, _, hr, hp⟩, _⟩ := hbuild.passed h
  have hn := ((yields_aiValidate s.offs hv).passed hr).1
  obtain ⟨ht, hs, he⟩ := setAddressing_opts s.pkt v.fmt v.aty r.id r.ta? r.sa? r.ae?
  have hta : u.pkt.ta? = r.ta? := by rw [hp]; exact ht
  have hsa : u.pkt.sa? = r.sa? := by rw [hp]; exact hs
  have hae : u.pkt.ae? = r.ae? := by rw [hp]; exact he
  obtain ⟨_, _, h⟩ := bind_ok h
  obtain ⟨_, _, h⟩ := bind_ok h
  obtain ⟨e, henc', _⟩ := bind_ok h
  rw [aiBytes_eq, hv.fmt] at henc'
  obtain ⟨hei, hown⟩ := henc.passed henc'
  have hfits := hei.fits
  rw [State.payload, length_bytesFrom] at hfits
  exact ⟨⟨hb, hta ▸ hn.ta, hsa ▸ hn.sa, hae ▸ hn.ae, hfits⟩, hown⟩

theorem pktSf_builds {any : Bool} (h : commandResult (.pktSf any fmt pm) s = .ok u) :
    BuiltPacket s u fmt pm .sf (sfFrameCode pm (addrBytes fmt) s) (sfPci any pm (addrBytes fmt) s) (num s .plen) ∧
      ∀ c ∈ sfOwn any pm (addrBytes fmt) s, ¬c.1 := by
  obtain ⟨v, hv, h⟩ := bind_ok h
  obtain ⟨c?, hc, h⟩ := bind_ok h
  obtain ⟨n, hn, h⟩ := bind_ok h
  obtain ⟨rfl, _⟩ := ((yields_length _).passed hn).1
  exact pktBuild_builds ((yields_addressing fmt pm s).passed hv).1
    (yields_sfEncode (payload_length s) ((yields_dlcOptional pm s).passed hc).1 s.fill) h

theorem pktFf_builds {any : Bool} (h : commandResult (.pktFf any fmt pm) s = .ok u) :
    BuiltPacket s u fmt pm .ff (ffFrameCode pm (addrBytes fmt) s) (ffPciList s) (num s .plen) ∧
      ∀ c ∈ ffOwn any pm (addrBytes fmt) s, ¬c.1 := by
  obtain ⟨v, hv, h⟩ := bind_ok h
  obtain ⟨c?, hc, h⟩ := bind_ok h
  obtain ⟨n, hn, h⟩ := bind_ok h
  obtain ⟨rfl, _⟩ := ((yields_length _).passed hn).1
  exact pktBuild_builds ((yields_addressing fmt pm s).passed hv).1
    (yields_ffEncode (payload_length s) ((yields_dlcOptional pm s).passed hc).1 s.fill) h

theorem pktCf_builds {any : Bool} (h : commandResult (.pktCf any fmt pm) s = .ok u) :
    (BuiltPacket s u fmt pm .cf (cfFrameCode pm (addrBytes fmt) s) (cfPci s) (num s .plen) ∧
      ∀ c ∈ cfOwn any pm (addrBytes fmt) s, ¬c.1) ∧ num s .sn ≤ 15 := by
  obtain ⟨v, hv, h⟩ := bind_ok h
  obtain ⟨c?, hc, h⟩ := bind_ok h
  obtain ⟨sn, hsn, h⟩ := bind_ok h
  obtain ⟨n, hn, h⟩ := bind_ok h
  obtain ⟨rfl, _⟩ := ((yields_length _).passed hn).1
  obtain ⟨hsn, h15⟩ := (yields_nibble _).passed hsn
  exact ⟨pktBuild_builds ((yields_addressing fmt pm s).passed hv).1
    (yields_cfEncode (payload_length s) ((yields_dlcOptional pm s).passed hc).1 hsn s.fill) h,
    Nat.le_of_not_lt (h15 _ (List.mem_singleton.2 rfl))⟩

theorem pktFc_builds {any : Bool} (h : commandResult (.pktFc any fmt pm) s = .ok u) :
    (BuiltPacket s u fmt pm .fc (fcFrameCode any pm (addrBytes fmt) s) (fcPci any pm s) 0 ∧
      ∀ c ∈ fcOwn any pm (addrBytes fmt) s, ¬c.1) ∧ ∀ c ∈ fcRange pm s, ¬c.1 := by
  obtain ⟨v, hv, h⟩ := bind_ok h
  obtain ⟨o, ho, h⟩ := bind_ok h
  obtain ⟨hfo, hrange⟩ := (yields_flowOperands pm s).passed ho
  exact ⟨pktBuild_builds ((yields_addressing fmt pm s).passed hv).1
    (yields_fcEncode (addrBytes_le _) hfo.dlc hfo.bs hfo.st hfo.fs (fill_eq s)) h, hrange⟩

/-! ## The strict decoders on such frames -/

/-- A list of checks is passed check by check. -/
theorem passed_cons {p : Prop} {e : Err} {cs : List Check} :
    (∀ x ∈ (p, e) :: cs, ¬x.1) ↔ ¬p ∧ ∀ x ∈ cs, ¬x.1 := List.forall_mem_cons
theorem passed_nil : (∀ x ∈ ([] : List Check), ¬x.1) ↔ True := iff_true_intro nofun

theorem byte_toNat (n : Nat) : (byte n).toNat = n % 256 := BitVec.toNat_ofNat n 8
theorem hi_byte (n : Nat) : hi (byte n) = n % 256 / 16 := by rw [hi, byte_toNat]
theorem lo_byte (n : Nat) : lo (byte n) = n % 16 := by rw [lo, byte_toNat]; omega

variable {b pay : Nat → Byte} {a : Nat} {fill : Byte}

/-- A PCI byte in the body of a frame. -/
theorem body_pci {start n len : Nat} {pci : List Byte} (h : Body b start n pci pay len fill) {j : Nat} {x : Byte}
    (hj : pci[j]? = some x) : b (start + j) = x := by
  obtain ⟨hlt, hx⟩ := List.getElem?_eq_some_iff.1 hj
  rw [h.pciAt j hlt, List.getD_eq_getElem?_getD, hj]
  rfl

/-- Single Frame (R157, R158). -/
theorem sfDecChecks_of_built (hc : sfFrameCode pm a s < 16) (hown : ∀ c ∈ sfOwn false pm a s, ¬c.1)
    (hb : Body b a (frameBytes (sfFrameCode pm a s)) (sfPci false pm a s) pay (num s .plen) fill) :
    (∀ c ∈ sfDecChecks b a (frameBytes (sfFrameCode pm a s)), ¬c.1) ∧
      sfDecLength b a (frameBytes (sfFrameCode pm a s)) = num s .plen ∧
      sfDecStart a (frameBytes (sfFrameCode pm a s)) = a + (sfPci false pm a s).length := by
  have hcode : codeOf (frameBytes (sfFrameCode pm a s)) = sfFrameCode pm a s := codeOf_frameBytes ⟨_, hc⟩
  have hlegal : frameBytes (sfFrameCode pm a s) ∈ legalLengths := frameBytes_mem ⟨_, hc⟩
  simp only [sfOwn, sfLength, passed_cons, passed_nil, true_and, and_true, Bool.false_eq_true, if_false] at hown
  obtain ⟨h1, h2, h3, h4, h5, h6, h7⟩ := hown
  simp only [sfDecChecks, sfDecLength, sfDecStart, passed_cons, passed_nil, and_true, hcode, hlegal, not_true_eq_false,
    not_false_eq_true, true_and]
  by_cases h8 : sfFrameCode pm a s ≤ 8
  · have hpci : sfPci false pm a s = [byte (num s .plen)] := by rw [sfPci, if_pos h8]; rfl
    rw [hpci] at hb ⊢
    have e0 : b a = byte (num s .plen) := body_pci hb (j := 0) rfl
    rw [e0, hi_byte, lo_byte, if_pos h8, if_pos h8]
    simp only [List.length_singleton]
    refine ⟨⟨?_, ?_, ?_, ?_, ?_, ?_, ?_⟩, ?_, trivial⟩
    all_goals omega
  · have hpci : sfPci false pm a s = [0x00#8, byte (num s .plen)] := by rw [sfPci, if_neg h8]; rfl
    rw [hpci] at hb ⊢
    have e0 : b a = 0x00#8 := body_pci hb (j := 0) rfl
    have e1 : b (a + 1) = byte (num s .plen) := body_pci hb (j := 1) rfl
    rw [e0, e1, byte_toNat, show hi 0x00#8 = 0 from rfl, show lo 0x00#8 = 0 from rfl, if_neg h8, if_neg h8]
    simp only [List.length_cons, List.length_nil]
    refine ⟨⟨?_, ?_, ?_, ?_, ?_, ?_, ?_⟩, ?_, trivial⟩
    all_goals omega

/-- The length field of a First Frame's own PCI bytes is FF_DL, in the form that its size asks for (R170, R172). -/
theorem ffDecLength_of_built {n len : Nat} (hdl : num s .dl ≠ 0) (hb : Body b a n (ffPciList s) pay len fill) :
    hi (b a) = 1 ∧ ffDecLength b a = num s .dl ∧ ffDecPci b a = ffPciCount s ∧
      (ffField b a = 0 → 4095 < num s .dl ∧ ffEscape b a = num s .dl) := by
  have hlt : num s .dl < 2 ^ 32 := (s.reg .dl).isLt
  by_cases h : 4095 < num s .dl
  · rw [ffPciList, if_pos h] at hb
    have e0 : b a = 0x10#8 := body_pci hb (j := 0) rfl
    have e1 : b (a + 1) = 0x00#8 := body_pci hb (j := 1) rfl
    have hfield : ffField b a = 0 := by rw [ffField, e0, e1]; rfl
    have hescape : ffEscape b a = num s .dl := by
      rw [ffEscape, body_pci hb (j := 2) rfl, body_pci hb (j := 3) rfl, body_pci hb (j := 4) rfl,
        body_pci hb (j := 5) rfl]
      simp only [byte_toNat]
      omega
    exact ⟨by rw [e0]; rfl, by rw [ffDecLength, if_pos hfield, hescape],
      by rw [ffDecPci, ffPciCount, if_pos hfield, if_pos h], fun _ => ⟨h, hescape⟩⟩
  · rw [ffPciList, if_neg h] at hb
    have e0 : b a = byte (0x10 + num s .dl / 256) := body_pci hb (j := 0) rfl
    have e1 : b (a + 1) = byte (num s .dl % 256) := body_pci hb (j := 1) rfl
    have hfield : ffField b a = num s .dl := by
      rw [ffField, e0, e1, lo_byte, byte_toNat]
      omega
    have hne : ffField b a ≠ 0 := hfield ▸ hdl
    exact ⟨by rw [e0, hi_byte]; omega, by rw [ffDecLength, if_neg hne, hfield],
      by rw [ffDecPci, ffPciCount, if_neg hne, if_neg h], fun h0 => absurd h0 hne⟩

/-- First Frame, in either form (R173, R174). -/
theorem ffDecChecks_of_built (hc : ffFrameCode pm a s < 16) (hown : ∀ c ∈ ffOwn false pm a s, ¬c.1)
    (hb : Body b a (frameBytes (ffFrameCode pm a s)) (ffPciList s) pay (num s .plen) fill) :
    (∀ c ∈ ffDecChecks b a (frameBytes (ffFrameCode pm a s)), ¬c.1) ∧ ffDecLength b a = num s .dl ∧
      ffDecPci b a = ffPciCount s ∧ frameBytes (ffFrameCode pm a s) = a + ffPciCount s + num s .plen := by
  have hcode : codeOf (frameBytes (ffFrameCode pm a s)) = ffFrameCode pm a s := codeOf_frameBytes ⟨_, hc⟩
  have hlegal : frameBytes (ffFrameCode pm a s) ∈ legalLengths := frameBytes_mem ⟨_, hc⟩
  have hcount : 2 ≤ ffPciCount s ∧ (4095 < num s .dl → ffPciCount s = 6) :=
    ⟨by unfold ffPciCount; split <;> decide, fun h => if_pos h⟩
  simp only [ffOwn, passed_cons, passed_nil, true_and, and_true, not_not] at hown
  obtain ⟨h1, _, h3, h4⟩ := hown
  have hdl : num s .dl ≠ 0 := fun h0 => h4 (by rw [h0]; unfold FitsSingle; split <;> omega)
  obtain ⟨hhi, hlen, hpci, hesc⟩ := ffDecLength_of_built hdl hb
  refine ⟨?_, hlen, hpci, h3.symm⟩
  simp only [ffDecChecks, passed_cons, passed_nil, and_true, hcode, hlegal,
    hhi, hlen, hpci, not_true_eq_false, not_false_eq_true, true_and]
  exact ⟨by omega, by simp, fun h => by have := hesc h.1; omega, fun h => by have := hesc h.1; omega, by omega, h4⟩

/-- Consecutive Frame (R186, R187). -/
theorem cfDecChecks_of_built (hc : cfFrameCode pm a s < 16) (hsn : num s .sn ≤ 15)
    (hown : ∀ c ∈ cfOwn false pm a s, ¬c.1)
    (hb : Body b a (frameBytes (cfFrameCode pm a s)) (cfPci s) pay (num s .plen) fill) :
    (∀ c ∈ cfDecChecks b a (frameBytes (cfFrameCode pm a s)), ¬c.1) ∧ lo (b a) = num s .sn := by
  have hlegal : frameBytes (cfFrameCode pm a s) ∈ legalLengths := frameBytes_mem ⟨_, hc⟩
  have e0 : b a = byte (0x20 + num s .sn) := body_pci hb (j := 0) rfl
  simp only [cfOwn, passed_cons, passed_nil, true_and, and_true] at hown
  obtain ⟨h1, _, h3⟩ := hown
  simp only [cfDecChecks, passed_cons, passed_nil, and_true, hlegal, e0,
    hi_byte, lo_byte, not_true_eq_false, not_false_eq_true, true_and]
  exact ⟨⟨by omega, by omega⟩, by omega⟩

/-- Flow Control (R196, R199). -/
theorem fcDecChecks_of_built (hc : fcFrameCode false pm a s < 16) (hrange : ∀ c ∈ fcRange pm s, ¬c.1)
    (hown : ∀ c ∈ fcOwn false pm a s, ¬c.1)
    (hb : Body b a (frameBytes (fcFrameCode false pm a s)) (fcPci false pm s) pay 0 fill) :
    (∀ c ∈ fcDecChecks b a (frameBytes (fcFrameCode false pm a s)), ¬c.1) ∧ lo (b a) = num s .fs ∧
      (num s .fs = 0 → (b (a + 1)).toNat = num s .bs ∧ (b (a + 2)).toNat = num s .st) := by
  have hlegal : frameBytes (fcFrameCode false pm a s) ∈ legalLengths := frameBytes_mem ⟨_, hc⟩
  have e0 : b a = byte (0x30 + num s .fs) := body_pci hb (j := 0) rfl
  have hlen : (fcPci false pm s).length = 3 := by
    rw [fcPci, if_neg Bool.false_ne_true]
    split <;> rfl
  simp only [fcOwn, passed_cons, passed_nil, true_and, and_true, hlen] at hown
  simp only [fcRange, passed_cons, passed_nil, and_true] at hrange
  obtain ⟨h1, h2, _, _, h5⟩ := hown
  obtain ⟨_, hbs, hst, _⟩ := hrange
  simp only [fcDecChecks, passed_cons, passed_nil, and_true, hlegal, e0,
    hi_byte, lo_byte, not_true_eq_false, not_false_eq_true, true_and]
  refine ⟨⟨by omega, by omega, by omega⟩, by omega, fun h0 => ?_⟩
  have hpci : fcPci false pm s = [byte (0x30 + num s .fs), byte (num s .bs), byte (num s .st)] := by simp [fcPci, h0]
  rw [hpci] at hb
  rw [body_pci hb (j := 1) rfl, body_pci hb (j := 2) rfl, byte_toNat, byte_toNat]
  have hg : Given pm 6 ∧ Given pm 7 := by_contra fun hg => h2 ⟨h0, not_and_or.1 hg⟩
  have hbs' := not_and.1 hbs hg.1
  have hst' := not_and.1 hst hg.2
  exact ⟨Nat.mod_eq_of_lt (by omega), Nat.mod_eq_of_lt (by omega)⟩

end Sys2Proof.Proofs

/-! PKT_VIEW of a packet built in valid mode gives back what it was built from (10_state.md R41; 47_packet.md
R216, R232). -/

namespace Sys2Proof.Proofs

open Sys2Proof.Machine Sys2Proof.Claims Sys2Proof.Laws

variable {s t u : State} {fmt : BitVec 3} {pm : BitVec 8} {type : PacketType} {c len : Nat} {pci : List Byte}
  {v : PacketView}

/-! ## The parts of a view -/

/-- A register that takes a result which is present. -/
theorem optIs_getD_map {α : Type} {p : Prop} {P : α → Prop} {o : Option α} {f : α → Word} {w old : Word}
    (h : OptIs p P o) (hp : p) (hf : ∀ x, P x → f x = w) : (o.map f).getD old = w := by
  obtain ⟨x, rfl, hx⟩ := h.some hp
  exact hf x hx

/-- The summary in `x[RES]` of a packet that is no record (R232). -/
theorem viewResult_packet {p : Packet} (hrec : p.isRecord = false) (hdir : p.dir = .tx) :
    p.viewResult = w32 (p.ptype.number + p.fmt.number.toNat * 2 ^ 4) := by
  unfold Packet.viewResult
  rw [hrec, hdir]
  cases p.ptype
  all_goals
    cases p.fmt
    all_goals rfl

/-- The payload view in `PB` and `x[PLEN]` (R232). -/
theorem payload_viewed {b : Nat → Byte} {a n : Nat} (hv : ViewIs type b a n v) (ht : type ≠ .fc) (t : State) :
    (viewed t v).reg .plen = w32 (viewBytes type b a n) ∧
      ∀ j, j < viewBytes type b a n → (viewed t v).pb j = b (viewStart type b a n + j) := by
  obtain ⟨pay, hpay, rfl⟩ := hv.pay.some ht
  refine ⟨?_, fun j hj => ?_⟩
  · rw [(viewRegisters_viewed t v).plen, hpay]
    simp
  · rw [pb_viewed t hpay (by rw [length_bytesFrom]; exact hj), getD_bytesFrom _ _ _ _ _ hj]

/-! ## What every packet gives back -/

theorem BuiltPacket.code_lt (h : BuiltPacket s u fmt pm type c pci len) : c < 16 :=
  h.built.pdlc ▸ u.pkt.dlc.isLt

/-- `PKT.DATA` holds the same body as `FB` (R216). -/
theorem BuiltPacket.body (h : BuiltPacket s u fmt pm type c pci len) :
    Body u.packetByte (addrBytes fmt) (frameBytes c) pci s.pb len (filler s) := by
  have hfits := h.fits
  have hdata : ∀ k, k < frameBytes c → u.packetByte k = (u.endOk false).fb k := fun k hk =>
    (h.built.data k).trans (if_pos hk)
  obtain ⟨hpci, hpay, hfill⟩ := h.built.body
  exact ⟨fun j hj => (hdata _ (by omega)).trans (hpci j hj), fun j hj => (hdata _ (by omega)).trans (hpay j hj),
    fun k h1 h2 => (hdata k h2).trans (hfill k h1 h2)⟩

/-- The view of a built packet, once its frame passes the strict decoder of its type. -/
theorem BuiltPacket.view (h : BuiltPacket s u fmt pm type c pci len) (hgiven : Given pm 5 → c = num s .dlc)
    (hdec : ∀ x ∈ decChecks type u.packetByte (addrBytes fmt) (frameBytes c), ¬x.1) :
    ∃ v, exec .pktView (u.endOk false) = .next ((viewed (u.endOk false) v).endOk false) ∧
      ViewIs type u.packetByte (addrBytes fmt) (frameBytes c) v ∧
      ViewGivesBack s (u.endOk false) ((viewed (u.endOk false) v).endOk false) fmt pm type := by
  obtain ⟨hb, hta, hsa, hae, _⟩ := h
  have hfmt : u.pkt.fmt.number = fmt := hb.addressing.format
  have hlen : u.pkt.len.toNat = frameBytes c := hb.plen
  have htype : u.pkt.ptype = type := hb.ptype
  have hexec := exec_pktView (s := u.endOk false) hb.valid
  simp only [State.endOk_pkt, hfmt, hlen, htype] at hexec
  obtain ⟨v, hv, hview⟩ := hexec hdec
  refine ⟨v, hv, hview, ?_⟩
  have hr := viewRegisters_viewed (u.endOk false) v
  have hcode : (viewed (u.endOk false) v).reg .dlc = w32 c := by rw [hr.dlc, hb.pdlc]
  have hid : (viewed (u.endOk false) v).reg .id = w32 (normId s.offs fmt pm s) := by
    rw [hr.id, hb.addressing.identifier]
  have hle := frameBytes_le64 c
  constructor
  case packet => simp [viewed, State.deliverAddressing, State.deliverRecord, State.deliverView]
  case frame =>
    intro k hk
    rw [num, hb.flen, w32, BitVec.toNat_ofNat, Nat.mod_eq_of_lt (by omega)] at hk
    exact (fb_viewed (u.endOk false) v (hb.plen ▸ hk) (by rw [hb.plen]; exact hle)).trans
      ((hb.data k).trans (if_pos hk))
  case flen => rw [hb.flen]; exact hr.flen.trans (by rw [hb.plen])
  case code => rw [hb.dlc]; exact hcode
  case givenCode =>
    intro hg
    exact hcode.trans (by rw [hgiven hg, w32_num])
  case identifier => exact hid
  case givenId =>
    intro hg
    exact hid.trans (by rw [normId, if_neg (by simp [hg]), w32_num])
  case addrType => exact hr.aty.trans (by rw [hb.addressing.type, w32_num])
  case target => exact fun hp => hr.ta.trans (optIs_getD_map hta hp fun _ => byte_setWidth)
  case source => exact fun hp => hr.sa.trans (optIs_getD_map hsa hp fun _ => byte_setWidth)
  case extension =>
    exact fun hp => hr.ae.trans (optIs_getD_map hae hp fun _ hx => (byte_setWidth hx).trans (w32_num s .ae))
  case summary =>
    exact hr.res.trans (by rw [viewResult_packet hb.isRecord hb.dir, hb.ptype, hb.addressing.format])
  case direction => exact hr.dir.trans (by rw [hb.dir]; rfl)
  case timestamp => exact ⟨hr.tsl.trans (by rw [hb.ts]; rfl), hr.tsh.trans (by rw [hb.ts]; rfl)⟩

/-! ## The four packet types -/

/-- A build command never warns, so its end is the plain `ok`; what is left is the view of the state its checks give. -/
theorem builtThenViewed_of {build : Instr} {P : State → State → Prop} (hw : warns build s = false)
    (h : ∀ u, commandResult build s = .ok u → ∃ x : State, exec .pktView (u.endOk false) = .next (x.endOk false) ∧
      ViewGivesBack s (u.endOk false) (x.endOk false) fmt pm type ∧ P (u.endOk false) (x.endOk false)) :
    BuiltThenViewed build s fmt pm type P := by
  intro t ht herr
  obtain ⟨u, hu, rfl⟩ := exec_ok ht herr
  rw [hw]
  obtain ⟨x, hx, hback, hP⟩ := h u hu
  exact ⟨_, hx, State.endOk_err x false, hback, hP⟩

theorem pktSf_builtThenViewed (fmt : BitVec 3) (pm : BitVec 8) (s : State) :
    BuiltThenViewed (.pktSf false fmt pm) s fmt pm .sf (fun _ u =>
      u.reg .dl = s.reg .plen ∧ u.reg .plen = s.reg .plen ∧ ∀ j, j < num s .plen → u.pb j = s.pb j) := by
  refine builtThenViewed_of (by simp [warns]) fun u hu => ?_
  obtain ⟨hb, hown⟩ := pktSf_builds hu
  obtain ⟨hdec, hlen, hstart⟩ := sfDecChecks_of_built hb.code_lt hown hb.body
  obtain ⟨v, hv, hview, hback⟩ := hb.view (fun hg => if_pos hg) hdec
  obtain ⟨hplen, hpb⟩ := payload_viewed hview (by decide) (u.endOk false)
  simp only [viewBytes, viewStart, hlen, hstart] at hplen hpb
  refine ⟨_, hv, hback, ?_, hplen.trans (w32_num s .plen), fun j hj => (hpb j hj).trans (hb.body.payAt j hj)⟩
  refine (viewRegisters_viewed _ v).dl.trans (optIs_getD_map hview.dl (.inl rfl) fun d hd => ?_)
  rw [hd, if_pos rfl, hlen, w32_num]

theorem pktFf_builtThenViewed (fmt : BitVec 3) (pm : BitVec 8) (s : State) :
    BuiltThenViewed (.pktFf false fmt pm) s fmt pm .ff (fun _ u =>
      u.reg .dl = s.reg .dl ∧ u.reg .plen = s.reg .plen ∧ ∀ j, j < num s .plen → u.pb j = s.pb j) := by
  refine builtThenViewed_of (by simp [warns]) fun u hu => ?_
  obtain ⟨hb, hown⟩ := pktFf_builds hu
  obtain ⟨hdec, hlen, hpci, hn⟩ := ffDecChecks_of_built hb.code_lt hown hb.body
  obtain ⟨v, hv, hview, hback⟩ := hb.view (fun hg => if_pos hg) hdec
  obtain ⟨hplen, hpb⟩ := payload_viewed hview (by decide) (u.endOk false)
  simp only [viewBytes, viewStart, hpci, hn, Nat.add_sub_cancel_left] at hplen hpb
  refine ⟨_, hv, hback, ?_, hplen.trans (w32_num s .plen), fun j hj => (hpb j hj).trans ?_⟩
  · refine (viewRegisters_viewed _ v).dl.trans (optIs_getD_map hview.dl (.inr rfl) fun d hd => ?_)
    rw [hd, if_neg (by decide), hlen, w32_num]
  · rw [← ffPci_length]
    exact hb.body.payAt j hj

theorem pktCf_builtThenViewed (fmt : BitVec 3) (pm : BitVec 8) (s : State) :
    BuiltThenViewed (.pktCf false fmt pm) s fmt pm .cf (fun t u =>
      u.reg .sn = s.reg .sn ∧ num u .plen = num t .flen - (addrBytes fmt + 1) ∧
      (∀ j, j < num s .plen → u.pb j = s.pb j) ∧ ∀ j, num s .plen ≤ j → j < num u .plen → u.pb j = filler s) := by
  refine builtThenViewed_of (by simp [warns]) fun u hu => ?_
  obtain ⟨⟨hb, hown⟩, hsn⟩ := pktCf_builds hu
  obtain ⟨hdec, hlo⟩ := cfDecChecks_of_built hb.code_lt hsn hown hb.body
  obtain ⟨v, hv, hview, hback⟩ := hb.view (fun hg => if_pos hg) hdec
  obtain ⟨hplen, hpb⟩ := payload_viewed hview (by decide) (u.endOk false)
  simp only [viewBytes, viewStart] at hplen hpb
  have hle := frameBytes_le64 (cfFrameCode pm (addrBytes fmt) s)
  have hfits : addrBytes fmt + 1 + num s .plen ≤ _ := hb.fits
  have hflen : num (u.endOk false) .flen = frameBytes (cfFrameCode pm (addrBytes fmt) s) := by
    rw [num, hb.built.flen, w32, BitVec.toNat_ofNat, Nat.mod_eq_of_lt (by omega)]
  have hnum : num ((viewed (u.endOk false) v).endOk false) .plen = num (u.endOk false) .flen - (addrBytes fmt + 1) := by
    rw [num, State.endOk_reg, hplen, hflen, w32, BitVec.toNat_ofNat, Nat.mod_eq_of_lt (by omega)]
  refine ⟨_, hv, hback, ?_, hnum, fun j hj => (hpb j (by omega)).trans (hb.body.payAt j hj), fun j h1 h2 => ?_⟩
  · refine (viewRegisters_viewed _ v).sn.trans (optIs_getD_map hview.sn rfl fun n hn => ?_)
    rw [hn, hlo, w32_num]
  · rw [hnum, hflen] at h2
    exact (hpb j h2).trans (hb.body.fillAt _ (by show addrBytes fmt + 1 + _ ≤ _; omega) (by omega))

theorem pktFc_builtThenViewed (fmt : BitVec 3) (pm : BitVec 8) (s : State) :
    BuiltThenViewed (.pktFc false fmt pm) s fmt pm .fc (fun _ u =>
      u.reg .fs = s.reg .fs ∧ (num s .fs = 0 → u.reg .bs = s.reg .bs ∧ u.reg .st = s.reg .st)) := by
  refine builtThenViewed_of (by simp [warns]) fun u hu => ?_
  obtain ⟨⟨hb, hown⟩, hrange⟩ := pktFc_builds hu
  obtain ⟨hdec, hlo, htail⟩ := fcDecChecks_of_built hb.code_lt hrange hown hb.body
  obtain ⟨v, hv, hview, hback⟩ := hb.view (fun hg => if_pos hg) hdec
  have hr := viewRegisters_viewed (u.endOk false) v
  refine ⟨_, hv, hback, ?_, fun h0 => ?_⟩
  · refine hr.fs.trans (optIs_getD_map hview.fs rfl fun f hf => ?_)
    rw [hf, hlo, w32_num]
  · obtain ⟨hbs, hst⟩ := htail h0
    rw [← hlo] at h0
    refine ⟨hr.bs.trans (optIs_getD_map hview.bs ⟨rfl, h0⟩ fun x hx => ?_),
      hr.st.trans (optIs_getD_map hview.st ⟨rfl, h0⟩ fun x hx => ?_)⟩
    · rw [byte_setWidth (hx ▸ hbs), w32_num]
    · rw [byte_setWidth (hx ▸ hst), w32_num]

/-- Settles O57: each packet type's frame passes its strict decoder, so PKT_VIEW reads the operands back from it. -/
theorem validPacketsViewWhatTheyWereBuiltFrom : Obligations.ValidPacketsViewWhatTheyWereBuiltFrom := fun fmt pm s =>
  ⟨pktSf_builtThenViewed fmt pm s, pktFf_builtThenViewed fmt pm s, pktCf_builtThenViewed fmt pm s,
    pktFc_builtThenViewed fmt pm s⟩

end Sys2Proof.Proofs

/-! The host's words and bytes: the address map, the view `PKTST`, and what each access does (10_state.md R35;
20_memory.md R61, R67 to R70). -/

namespace Sys2Proof.Proofs

open Sys2Proof.Machine Sys2Proof.Claims Sys2Proof.Laws

variable {s : State} {off : Nat} {v : Word} {b : Byte}

/-! ## The address map (R61) -/

/-- The offset at which a register of the block stands. -/
def locationOffset : WordLocation → Nat
  | .cmd => 0x000
  | .status => 0x004
  | .esticky => 0x008
  | .cfg => 0x00C
  | .ecmd => 0x010
  | .pktst => 0x014
  | .x r => 0x040 + 4 * r.index.val

theorem regAt_eq_some {r : Reg} (h : regAt off = some r) : off = locationOffset (.x r) := by
  have hr := List.find?_some h
  exact (beq_iff_eq.1 hr).symm

theorem wordLocation_locationOffset (l : WordLocation) : wordLocation (locationOffset l) = some l := by
  cases l with
  | x r =>
    cases r
    all_goals rfl
  | _ => rfl

/-- The map names a register at its own offset and nowhere else. -/
theorem wordLocation_eq_some {l : WordLocation} : wordLocation off = some l ↔ off = locationOffset l := by
  constructor
  · intro h
    unfold wordLocation at h
    split at h
    case h_7 =>
      obtain ⟨r, hr, rfl⟩ := Option.map_eq_some_iff.1 h
      exact regAt_eq_some hr
    all_goals
      cases h
      rfl
  · rintro rfl
    exact wordLocation_locationOffset l

theorem wordLocation_eq_none (h : ∀ l, off ≠ locationOffset l) : wordLocation off = none :=
  Option.eq_none_iff_forall_ne_some.2 fun l hl => h l (wordLocation_eq_some.1 hl)

/-- Where the words of the map lie: at multiples of 4, in `0x000` to `0x014` and in `0x040` to `0x088`. -/
theorem locationOffset_range (l : WordLocation) : locationOffset l % 4 = 0 ∧
    (locationOffset l ≤ 0x014 ∨ 0x040 ≤ locationOffset l ∧ locationOffset l ≤ 0x088) := by
  cases l with
  | x r =>
    have hr := r.index.isLt
    simp only [locationOffset]
    omega
  | _ => decide

theorem mem_registerOffsets {p : Nat × Reg} : p ∈ registerOffsets ↔ p.1 = locationOffset (.x p.2) := by
  have hmap : registerOffsets = allRegs.map fun r => (locationOffset (.x r), r) := rfl
  rw [hmap, List.mem_map]
  constructor
  · rintro ⟨r, -, rfl⟩
    rfl
  · exact fun h => ⟨p.2, mem_allRegs p.2, Prod.ext h.symm rfl⟩

/-- An offset at which the table of R61 has no operand/result register. -/
theorem ne_registerOffset (h : ∀ p ∈ registerOffsets, off ≠ p.1) (r : Reg) : off ≠ locationOffset (.x r) :=
  h (locationOffset (.x r), r) (mem_registerOffsets.2 rfl)

/-! ## What a word access does (R67, R68, R70) -/

theorem readWord_location (l : WordLocation) (s : State) :
    readWord (locationOffset l) s = s.returned (s.locationValue l) := by
  rw [readWord, wordLocation_locationOffset]

theorem readWord_bad (h : ∀ l, off ≠ locationOffset l) : readWord off s = s.badAccess.returned 0#32 := by
  rw [readWord, wordLocation_eq_none h]

theorem writeWord_register (r : Reg) (v : Word) (s : State) :
    writeWord (locationOffset (.x r)) v s = .next (s.setReg r v) := by
  rw [writeWord, wordLocation_locationOffset]

/-- A write takes effect at `CMD`, at `CFG` and at the operand/result registers alone. -/
theorem writeWord_bad (hcmd : off ≠ locationOffset .cmd) (hcfg : off ≠ locationOffset .cfg)
    (hreg : ∀ r, off ≠ locationOffset (.x r)) : writeWord off v s = .next s.badAccess := by
  unfold writeWord
  split
  case h_1 hl => exact absurd (wordLocation_eq_some.1 hl) hcmd
  case h_2 hl => exact absurd (wordLocation_eq_some.1 hl) hcfg
  case h_3 r hl => exact absurd (wordLocation_eq_some.1 hl) (hreg r)
  all_goals rfl

/-- `CFG` keeps bits 7:0 of the word written (R67). -/
theorem lowByte_eq (v : Word) : (v.setWidth 8).setWidth 32 = w32 (v.toNat % 2 ^ 8) := by
  rw [w32, ← BitVec.toNat_setWidth, BitVec.ofNat_toNat]

/-- Settles O18: the map has a register at each offset of the table, and a write elsewhere than there, at `CFG` and at
`CMD` is a bad access. -/
theorem hostWordWrite : Obligations.HostWordWrite := by
  intro s v
  refine ⟨fun p hp => ?_, ?_, rfl, fun off hcfg hcmd hreg => writeWord_bad hcmd hcfg (ne_registerOffset hreg)⟩
  · rw [mem_registerOffsets.1 hp]
    exact ⟨_, writeWord_register p.2 v s, State.reg_setReg_self s p.2 v, fun r hr => State.reg_setReg_ne s hr v, rfl⟩
  · rw [← lowByte_eq]
    rfl

/-! ## The view `PKTST` (10_state.md R35) -/

/-- A field placed above the bits already there adds its number at its place. -/
theorem ofNat_or_shift {y k : Nat} (h : y < 2 ^ k) (x : Nat) :
    BitVec.ofNat 32 y ||| BitVec.ofNat 32 x <<< k = BitVec.ofNat 32 (y + x * 2 ^ k) := by
  have hshift : BitVec.ofNat 32 x <<< k = BitVec.ofNat 32 (x <<< k) :=
    BitVec.eq_of_toNat_eq (by simp [Nat.shiftLeft_eq])
  rw [hshift, ← BitVec.ofNat_or, Nat.or_comm, shift_or x h, Nat.add_comm]

theorem bitAt_eq (b : Bool) (n : Nat) : bitAt b n = BitVec.ofNat 32 b.toNat <<< n := by
  cases b with
  | false => exact (BitVec.zero_shiftLeft n).symm
  | true => rfl

theorem packetType_number_lt (t : PacketType) : t.number < 4 := by cases t <;> decide

theorem addrType_number_lt (t : AddrType) : t.number < 2 := by cases t <;> decide

/-- The bits of the view, each field below the next. -/
theorem summary_eq (p : Packet) : p.summary = packetStatus p := by
  have hvalid := p.valid.toNat_lt
  have hrecord := p.isRecord.toNat_lt
  have hfmt := p.fmt.number.isLt
  have hptype := packetType_number_lt p.ptype
  have hdlc := p.dlc.isLt
  have hlen := p.len.isLt
  have haty := addrType_number_lt p.aty
  simp only [Packet.summary, packetStatus, w32, bitAt_eq, ← BitVec.ofNat_toNat, BitVec.shiftLeft_zero]
  rw [ofNat_or_shift (by omega), ofNat_or_shift (by omega), ofNat_or_shift (by omega), ofNat_or_shift (by omega),
    ofNat_or_shift (by omega), ofNat_or_shift (by omega), ofNat_or_shift (by omega)]
  cases p.valid <;> cases p.isRecord <;> rfl

/-- Settles O19: a read returns what stands at the offset, `PKTST` by its bits; no other offset is in the map. -/
theorem hostWordRead : Obligations.HostWordRead := by
  intro s
  refine ⟨fun p hp => ?_, rfl, rfl, rfl, rfl, rfl, ?_, fun off hsys hreg => ?_⟩
  · rw [mem_registerOffsets.1 hp]
    exact congrArg _ (readWord_location (.x p.2) s)
  · rw [← summary_eq]
    rfl
  · refine congrArg _ (readWord_bad fun l => ?_)
    cases l with
    | x r => exact ne_registerOffset hreg r
    | _ => exact fun h => hsys (h ▸ by decide)

/-! ## What a byte access does (R69, R70) -/

theorem isBufferOffset_iff : isBufferOffset off = true ↔ 0x100 ≤ off ∧ off ≤ 0x17F := decide_eq_true_iff

theorem isBufferOffset_bad (h : off < 0x100 ∨ 0x17F < off) : ¬isBufferOffset off = true := by
  rw [isBufferOffset_iff]
  omega

theorem writeByte_bad (h : off < 0x100 ∨ 0x17F < off) : writeByte off b s = s.badAccess :=
  if_neg (isBufferOffset_bad h)

theorem readByte_bad (h : off < 0x100 ∨ 0x17F < off) : readByte off s = s.badAccess.returned 0#32 :=
  if_neg (isBufferOffset_bad h)

theorem byteAccess_bad (h : off < 0x100 ∨ 0x17F < off) : hostAction (.wrb off b) s = .next (bus s) ∧
    hostAction (.rdb off) s = .next { bus s with rdata := 0#32 } :=
  ⟨congrArg _ (writeByte_bad h), congrArg _ (readByte_bad h)⟩

/-- Storing one byte changes that byte alone. -/
theorem byteAt_storeByte (s : State) (off : Nat) (b : Byte) (k : Nat) :
    (s.storeBytes off [b]).byteAt k = if k = off then b else s.byteAt k := by
  rw [State.byteAt_storeBytes, List.length_singleton]
  by_cases hk : k = off
  · subst hk
    simp
  · rw [if_neg hk, if_neg (by omega)]

/-- Settles O20: within the buffers a byte access is a store or a load of that byte, outside them it is bad. -/
theorem hostByteAccess : Obligations.HostByteAccess := by
  refine fun s off b => ⟨fun h => ?_, byteAccess_bad⟩
  have hbuf := isBufferOffset_iff.2 h
  refine ⟨⟨s.storeBytes off [b], congrArg _ (if_pos hbuf), ?_, fun k hk => ?_, rfl⟩, ?_⟩
  · rw [byteAt_storeByte, if_pos rfl]
  · rw [byteAt_storeByte, if_neg hk]
  · rw [w32, BitVec.ofNat_toNat]
    exact congrArg _ (if_pos hbuf)

/-! ## Bad accesses (R70) -/

/-- The word offsets R70 lists hold no register of the map. -/
theorem ne_locationOffset (h : off % 4 ≠ 0 ∨ (0x100 ≤ off ∧ off ≤ 0x17F) ∨ (0x018 ≤ off ∧ off ≤ 0x03F) ∨
    (0x08C ≤ off ∧ off ≤ 0x0FF) ∨ 0x17F < off) (l : WordLocation) : off ≠ locationOffset l := by
  have hl := locationOffset_range l
  omega

/-- `STATUS`, `ESTICKY`, `ECMD` and `PKTST` are read-only. -/
theorem writeWord_readOnly (h : off ∈ [0x004, 0x008, 0x010, 0x014]) : writeWord off v s = .next s.badAccess := by
  simp only [List.mem_cons, List.not_mem_nil, or_false] at h
  obtain rfl | rfl | rfl | rfl := h
  all_goals rfl

/-- Settles O21: no word of the map lies at a listed offset, no byte outside the buffers, and the four status registers
take no write. -/
theorem badAccessSetsOnlyTheBusBit : Obligations.BadAccessSetsOnlyTheBusBit := by
  refine fun s off v b => ⟨fun h => ?_, byteAccess_bad, writeWord_readOnly⟩
  have hne := ne_locationOffset h
  exact ⟨writeWord_bad (hne .cmd) (hne .cfg) fun r => hne (.x r), congrArg _ (readWord_bad hne)⟩

end Sys2Proof.Proofs

/-! Command words: each command's word decodes to it, and the decoder accepts exactly the words of the printed match and
mask columns (30_encoding.md R81 to R87); what a step does with the command it takes (20_memory.md R66, R74). -/

namespace Sys2Proof.Proofs

open Sys2Proof.Machine Sys2Proof.Claims Sys2Proof.Laws

variable {opc : BitVec 8} {any : Bool} {fmt : BitVec 3} {pm : BitVec 8} {w : Word} {s : State}

/-! ## Every command's word selects the command's row (R85) -/

open EncodeFields in
theorem encodeFields_statement : ∀ i : Instr, EncodeFields.Statement i
  | .nop => nop | .sreset => sreset | .clrstk => clrstk
  | .idIsstd => idIsstd | .idIsext => idIsext | .idClassify f p => idClassify f p
  | .idEncode f => idEncode f | .idDecode f => idDecode f
  | .dlcDecode => dlcDecode | .dlcEncode => dlcEncode | .dlcMin => dlcMin
  | .aiNbytes f => aiNbytes f | .aiEncdata f p => aiEncdata f p | .aiDecode f => aiDecode f
  | .aiValidate f p => aiValidate f p
  | .ptGet f => ptGet f | .sfEnc a f p => sfEnc a f p | .sfDec f => sfDec f | .ffEnc a f p => ffEnc a f p
  | .ffDec f => ffDec f | .cfEnc a f p => cfEnc a f p | .cfDec f => cfDec f | .fcEnc a f p => fcEnc a f p
  | .fcDec f => fcDec f | .stminDec => stminDec | .stminEnc => stminEnc
  | .pktSf a f p => pktSf a f p | .pktFf a f p => pktFf a f p | .pktCf a f p => pktCf a f p
  | .pktFc a f p => pktFc a f p | .pktLoad f => pktLoad f | .pktSetai f p => pktSetai f p
  | .pktView => pktView | .pktClear => pktClear

/-- Settles O3: the word of a command selects the row that makes the command of the word's fields, and a well-formed
command's presence mask passes that row's check. -/
theorem decodeOfEncodeIsTheCommand : Obligations.DecodeOfEncodeIsTheCommand := by
  intro i hwf
  obtain ⟨hres, hpm, r, hr, hopc, hallowed, hmake, hany, hfmt⟩ := encodeFields_statement i
  have hmask : pmOf (encode i) &&& ~~~r.pmAllowed = 0#8 := by rw [hpm, hallowed]; exact hwf
  exact decode_eq_ok.2 ⟨r, hr, hopc, Row.read_eq_ok.2 ⟨hres, hany, hfmt, hmask, hmake.symm⟩⟩

/-! ## Every row makes commands whose word is the row's (R85) -/

/-- The columns FMT, ANY and PM of a row admit these fields (R83). -/
structure Admits (r : Row) (any : Bool) (fmt : BitVec 3) (pm : BitVec 8) : Prop where
  mode     : r.takesAny = false → any = false
  format   : r.takesFmt = false → fmt = 0#3
  presence : pm &&& ~~~r.pmAllowed = 0#8

theorem read_eq_ok_iff_admits {r : Row} {i : Instr} : r.read w = .ok i ↔
    reservedOf w = 0#12 ∧ Admits r (anyOf w) (fmtOf w) (pmOf w) ∧ i = r.make (anyOf w) (fmtOf w) (pmOf w) :=
  Row.read_eq_ok.trans ⟨fun ⟨hres, hany, hfmt, hpm, hi⟩ => ⟨hres, ⟨hany, hfmt, hpm⟩, hi⟩,
    fun ⟨hres, ⟨hany, hfmt, hpm⟩, hi⟩ => ⟨hres, hany, hfmt, hpm, hi⟩⟩

/-- What the row's columns say of a command that the row makes of these fields. -/
structure IsOfRow (r : Row) (any : Bool) (fmt : BitVec 3) (pm : BitVec 8) (i : Instr) : Prop where
  word     : encode i = commandWord r.opc any fmt pm
  presence : i.presence = pm
  allowed  : i.presenceAllowed = r.pmAllowed

/-- Of the fields that a row admits it makes a command that its columns describe. -/
def MakesItsCommands (r : Row) : Prop :=
  ∀ any fmt pm, Admits r any fmt pm → IsOfRow r any fmt pm (r.make any fmt pm)

theorem and_not_zero {n : Nat} (x : BitVec n) : x &&& ~~~0#n = x := by rw [BitVec.not_zero, BitVec.and_allOnes]

theorem plainRow_makes {i : Instr} (h : IsOfRow (plainRow opc i) false 0 0 i) : MakesItsCommands (plainRow opc i) := by
  intro any fmt pm ha
  obtain rfl := ha.mode rfl
  obtain rfl := ha.format rfl
  obtain rfl := (and_not_zero pm).symm.trans ha.presence
  exact h

theorem formatRow_makes {mk : BitVec 3 → Instr} (h : ∀ fmt, IsOfRow (formatRow opc mk) false fmt 0 (mk fmt)) :
    MakesItsCommands (formatRow opc mk) := by
  intro any fmt pm ha
  obtain rfl := ha.mode rfl
  obtain rfl := (and_not_zero pm).symm.trans ha.presence
  exact h fmt

theorem presenceRow_makes {allowed : BitVec 8} {mk : BitVec 3 → BitVec 8 → Instr}
    (h : ∀ fmt pm, IsOfRow (presenceRow opc allowed mk) false fmt pm (mk fmt pm)) :
    MakesItsCommands (presenceRow opc allowed mk) := by
  intro any fmt pm ha
  obtain rfl := ha.mode rfl
  exact h fmt pm

theorem encoderRow_makes {allowed : BitVec 8} {mk : Bool → BitVec 3 → BitVec 8 → Instr}
    (h : ∀ any fmt pm, IsOfRow (encoderRow opc allowed mk) any fmt pm (mk any fmt pm)) :
    MakesItsCommands (encoderRow opc allowed mk) :=
  fun any fmt pm _ => h any fmt pm

theorem codecRows_make : ∀ r ∈ codecRows, MakesItsCommands r := by
  simp only [codecRows, List.forall_mem_cons, List.not_mem_nil, false_imp_iff, implies_true, and_true]
  exact ⟨plainRow_makes ⟨rfl, rfl, rfl⟩, plainRow_makes ⟨rfl, rfl, rfl⟩, plainRow_makes ⟨rfl, rfl, rfl⟩,
    plainRow_makes ⟨rfl, rfl, rfl⟩, plainRow_makes ⟨rfl, rfl, rfl⟩, presenceRow_makes fun _ _ => ⟨rfl, rfl, rfl⟩,
    formatRow_makes fun _ => ⟨rfl, rfl, rfl⟩, formatRow_makes fun _ => ⟨rfl, rfl, rfl⟩,
    plainRow_makes ⟨rfl, rfl, rfl⟩, plainRow_makes ⟨rfl, rfl, rfl⟩, plainRow_makes ⟨rfl, rfl, rfl⟩⟩

theorem frameRows_make : ∀ r ∈ frameRows, MakesItsCommands r := by
  simp only [frameRows, List.forall_mem_cons, List.not_mem_nil, false_imp_iff, implies_true, and_true]
  exact ⟨formatRow_makes fun _ => ⟨rfl, rfl, rfl⟩, presenceRow_makes fun _ _ => ⟨rfl, rfl, rfl⟩,
    formatRow_makes fun _ => ⟨rfl, rfl, rfl⟩, presenceRow_makes fun _ _ => ⟨rfl, rfl, rfl⟩,
    formatRow_makes fun _ => ⟨rfl, rfl, rfl⟩, encoderRow_makes fun _ _ _ => ⟨rfl, rfl, rfl⟩,
    formatRow_makes fun _ => ⟨rfl, rfl, rfl⟩, encoderRow_makes fun _ _ _ => ⟨rfl, rfl, rfl⟩,
    formatRow_makes fun _ => ⟨rfl, rfl, rfl⟩, encoderRow_makes fun _ _ _ => ⟨rfl, rfl, rfl⟩,
    formatRow_makes fun _ => ⟨rfl, rfl, rfl⟩, encoderRow_makes fun _ _ _ => ⟨rfl, rfl, rfl⟩,
    formatRow_makes fun _ => ⟨rfl, rfl, rfl⟩, plainRow_makes ⟨rfl, rfl, rfl⟩, plainRow_makes ⟨rfl, rfl, rfl⟩⟩

theorem packetRows_make : ∀ r ∈ packetRows, MakesItsCommands r := by
  simp only [packetRows, List.forall_mem_cons, List.not_mem_nil, false_imp_iff, implies_true, and_true]
  exact ⟨encoderRow_makes fun _ _ _ => ⟨rfl, rfl, rfl⟩, encoderRow_makes fun _ _ _ => ⟨rfl, rfl, rfl⟩,
    encoderRow_makes fun _ _ _ => ⟨rfl, rfl, rfl⟩, encoderRow_makes fun _ _ _ => ⟨rfl, rfl, rfl⟩,
    formatRow_makes fun _ => ⟨rfl, rfl, rfl⟩, presenceRow_makes fun _ _ => ⟨rfl, rfl, rfl⟩,
    plainRow_makes ⟨rfl, rfl, rfl⟩, plainRow_makes ⟨rfl, rfl, rfl⟩⟩

theorem opcodeTable_makes : ∀ r ∈ opcodeTable, MakesItsCommands r :=
  List.forall_mem_append.2 ⟨List.forall_mem_append.2 ⟨codecRows_make, frameRows_make⟩, packetRows_make⟩

/-- A decoded command is well-formed, and the word is its own (R86). -/
theorem encode_of_decode {i : Instr} (h : decode w = .ok i) : encode i = w ∧ i.WellFormed := by
  obtain ⟨r, hr, hopc, hread⟩ := decode_eq_ok.1 h
  obtain ⟨hres, hadmits, rfl⟩ := read_eq_ok_iff_admits.1 hread
  obtain ⟨hword, hpresence, hallowed⟩ := opcodeTable_makes r hr _ _ _ hadmits
  rw [hopc, commandWord_fields hres] at hword
  refine ⟨hword, ?_⟩
  rw [Instr.WellFormed, hpresence, hallowed]
  exact hadmits.presence

/-! ## The printed match and mask columns (R85, R86) -/

theorem eq_commandWord_iff : w = commandWord opc any fmt pm ↔
    reservedOf w = 0#12 ∧ opcOf w = opc ∧ anyOf w = any ∧ fmtOf w = fmt ∧ pmOf w = pm := by
  constructor
  · rintro rfl
    simp
  · rintro ⟨hres, rfl, rfl, rfl, rfl⟩
    exact (commandWord_fields hres).symm

/-- Clearing bits of a word clears them in each of its fields. -/
theorem extractLsb'_and_not (v w : Word) {start len : Nat} (h : start + len ≤ 32) :
    (v &&& ~~~w).extractLsb' start len = v.extractLsb' start len &&& ~~~w.extractLsb' start len := by
  ext i hi
  simp [show start + i < 32 by omega]

theorem opcOf_and_not (v w : Word) : opcOf (v &&& ~~~w) = opcOf v &&& ~~~opcOf w :=
  extractLsb'_and_not v w (by decide)
theorem anyOf_and_not (v w : Word) : anyOf (v &&& ~~~w) = (anyOf v && !anyOf w) := by simp [anyOf]
theorem fmtOf_and_not (v w : Word) : fmtOf (v &&& ~~~w) = fmtOf v &&& ~~~fmtOf w :=
  extractLsb'_and_not v w (by decide)
theorem reservedOf_and_not (v w : Word) : reservedOf (v &&& ~~~w) = reservedOf v &&& ~~~reservedOf w :=
  extractLsb'_and_not v w (by decide)
theorem pmOf_and_not (v w : Word) : pmOf (v &&& ~~~w) = pmOf v &&& ~~~pmOf w :=
  extractLsb'_and_not v w (by decide)

/-- A row's column "match": its opcode, every other bit 0. -/
def rowMatch (r : Row) : Word := commandWord r.opc false 0#3 0#8

/-- The bits a row leaves free: the fields it takes and the presence bits it allows. Its column "mask" is the rest. -/
def rowFree (r : Row) : Word := commandWord 0#8 r.takesAny (if r.takesFmt then 7#3 else 0#3) r.pmAllowed

theorem matchMaskTable_eq : matchMaskTable = opcodeTable.map fun r => (rowMatch r, ~~~rowFree r) := by decide

/-! A field that a row does not take has to be 0. -/

theorem fixedFormat_iff (b : Bool) : (fmt &&& ~~~if b then 7#3 else 0#3) = 0#3 ↔ (b = false → fmt = 0#3) := by
  cases b with
  | false => rw [if_neg Bool.false_ne_true, and_not_zero, forall_prop_of_true rfl]
  | true => simp

theorem fixedMode_iff (b : Bool) : (any && !b) = false ↔ (b = false → any = false) := by cases b <;> simp

/-- The columns "match" and "mask" check the row's opcode, the reserved bits and each field (R86, R87). -/
theorem matches_iff {r : Row} : w &&& ~~~rowFree r = rowMatch r ↔
    r.opc = opcOf w ∧ reservedOf w = 0#12 ∧ Admits r (anyOf w) (fmtOf w) (pmOf w) := by
  rw [rowMatch, rowFree, eq_commandWord_iff, opcOf_and_not, anyOf_and_not, fmtOf_and_not, reservedOf_and_not,
    pmOf_and_not, opcOf_commandWord, anyOf_commandWord, fmtOf_commandWord, reservedOf_commandWord, pmOf_commandWord,
    and_not_zero, and_not_zero, fixedMode_iff, fixedFormat_iff]
  exact ⟨fun ⟨hres, hopc, hany, hfmt, hpm⟩ => ⟨hopc.symm, hres, hany, hfmt, hpm⟩,
    fun ⟨hopc, hres, hany, hfmt, hpm⟩ => ⟨hres, hopc.symm, hany, hfmt, hpm⟩⟩

theorem decodes_iff_matches (w : Word) :
    (∃ i, decode w = .ok i) ↔ ∃ row ∈ matchMaskTable, w &&& row.2 = row.1 := by
  rw [matchMaskTable_eq]
  constructor
  · rintro ⟨i, hi⟩
    obtain ⟨r, hr, hopc, hread⟩ := decode_eq_ok.1 hi
    obtain ⟨hres, hadmits, -⟩ := read_eq_ok_iff_admits.1 hread
    exact ⟨_, List.mem_map_of_mem hr, matches_iff.2 ⟨hopc, hres, hadmits⟩⟩
  · rintro ⟨_, hrow, hmatch⟩
    obtain ⟨r, hr, rfl⟩ := List.mem_map.1 hrow
    obtain ⟨hopc, hres, hadmits⟩ := matches_iff.1 hmatch
    exact ⟨_, decode_eq_ok.2 ⟨r, hr, hopc, read_eq_ok_iff_admits.2 ⟨hres, hadmits, rfl⟩⟩⟩

theorem opcodeTable_opc_distinct : opcodeTable.Pairwise fun p q => p.opc ≠ q.opc := by decide

theorem matchMaskTable_disjoint :
    matchMaskTable.Pairwise fun p q => ∀ w : Word, ¬(w &&& p.2 = p.1 ∧ w &&& q.2 = q.1) := by
  rw [matchMaskTable_eq, List.pairwise_map]
  refine opcodeTable_opc_distinct.imp fun hne w ⟨hp, hq⟩ => hne ?_
  exact (matches_iff.1 hp).1.trans (matches_iff.1 hq).1.symm

/-! ## Illegal words, and the step that takes a command (R80, R86; 20_memory.md R66, R74) -/

/-- A word that is no command ends `E_ILLEGAL` (R86). -/
theorem runCommand_of_error {b : BadWord} (h : decode w = .error b) (s : State) :
    runCommand w s = .next { s with status := 6#32, esticky := s.esticky ||| 0x40#32, ecmd := w } := by
  rw [runCommand, h]
  rfl

theorem runCommand_of_ok {i : Instr} (h : decode w = .ok i) (s : State) : runCommand w s = exec i s := by
  rw [runCommand, h]

/-- Settles O4: the printed columns check what the decoder checks, and the opcodes of two rows differ. -/
theorem decodingIsTotalAndUnambiguous : Obligations.DecodingIsTotalAndUnambiguous := by
  refine ⟨decodes_iff_matches, matchMaskTable_disjoint, fun w i => encode_of_decode, fun w s hbad => ?_⟩
  cases h : decode w with
  | ok i => exact absurd ⟨i, h⟩ hbad
  | error b => exact runCommand_of_error h s

theorem step_of_pending {a : HostAction} {rest : List Input} (h : s.pending = .host a :: rest) :
    step s = hostAction a { s with pending := rest } := by
  rw [step, takeInput, h]
  rfl

theorem step_of_idle (h : s.pending = []) : step s = .next s := by
  rw [step, takeInput, h]

/-- Settles O1: a step runs the host action it takes, and the action `CMD(w)` runs the word. -/
theorem stepRunsTheIssuedCommand : Obligations.StepRunsTheIssuedCommand := by
  refine fun s => ⟨fun a rest => step_of_pending, fun w rest hp => ⟨fun i hi => ?_, fun b hb => ?_⟩, step_of_idle⟩
  · exact (step_of_pending hp).trans (runCommand_of_ok hi _)
  · exact (step_of_pending hp).trans (runCommand_of_error hb _)

/-- Settles O2, by decoding the twelve words. -/
theorem sampleWordsDecode : Obligations.SampleWordsDecode := by
  unfold Obligations.SampleWordsDecode
  decide

end Sys2Proof.Proofs

/-! The identifier codec: what the five commands of 40_identifier.md check, compute and leave alone (R110 to R114), and
how the windows of R103 tie decoding, encoding and classification together (R107). -/

namespace Sys2Proof.Proofs

open Sys2Proof.Machine Sys2Proof.Claims Sys2Proof.Laws

variable {o : Offsets} {f : Windowed} {a b : AddrType} {id : Word}

/-! ## Truth values in `x[RES]` -/

/-- The registers after a truth value (R24, R110): `x[RES]` holds it, `x[RP]` is empty, and all else stays. -/
structure TruthEnd (s t : State) (value : Bool) : Prop where
  res  : t.reg .res = if value then 1#32 else 0#32
  rp   : t.reg .rp = 0#32
  only : RegsOnly s t [.res, .rp]

theorem truthEnd_setTruth (s : State) (value : Bool) : TruthEnd s ((s.setTruth value).endOk false) value where
  res := by cases value <;> simp
  rp := presence_endOk _ _ _
  only := (((Effect.refl s [.res, .rp] nowhere).setReg (by decide) _).setReg (by decide) _).regsOnly rfl

theorem TruthEnd.res_eq_ite {t : State} {value : Bool} {p : Prop} [Decidable p] (h : TruthEnd s t value)
    (hp : value = true ↔ p) : t.reg .res = if p then 1#32 else 0#32 := by
  simp only [h.res, hp]

theorem TruthEnd.res_eq_one_iff {t : State} {value : Bool} (h : TruthEnd s t value) :
    t.reg .res = 1#32 ↔ value = true := by
  cases value <;> simp [h.res]

theorem TruthEnd.res_eq_one_or_zero {t : State} {value : Bool} (h : TruthEnd s t value) :
    t.reg .res = 1#32 ∨ t.reg .res = 0#32 := by
  cases value <;> simp [h.res]

/-- Settles O22: the two range predicates are total, and each leaves its truth value. -/
theorem identifierRangePredicates : Obligations.IdentifierRangePredicates := by
  refine fun s => ⟨command_of_yields rfl (by decide) (yields_ok ?_), command_of_yields rfl (by decide) (yields_ok ?_)⟩
  · have h := truthEnd_setTruth s (isStandard (s.reg .id))
    exact ⟨h.res_eq_ite (isStandard_iff _), h.rp, h.only⟩
  · have h := truthEnd_setTruth s (isExtended (s.reg .id))
    exact ⟨h.res_eq_ite (isExtended_iff _), h.rp, h.only⟩

/-! ## Classification (R106), by the number of the format -/

theorem idClassify_standard {g : Format} (hg : g.number.toNat = 0 ∨ g.number.toNat = 3) (o : Offsets) (id : Word)
    (aty? : Option AddrType) : idClassify o id g aty? = isStandard id := by
  cases g with
  | n11 => rfl
  | m11 => rfl
  | nf => exact absurd hg (by decide)
  | ext => exact absurd hg (by decide)
  | m29 => exact absurd hg (by decide)

theorem idClassify_any {g : Format} (hg : g.number.toNat = 2) (o : Offsets) (id : Word) (aty? : Option AddrType) :
    idClassify o id g aty? = true := by
  obtain rfl : g = .ext := Format.number_inj (BitVec.eq_of_toNat_eq hg)
  rfl

theorem idClassify_windowed (o : Offsets) (id : Word) (f : Windowed) (aty? : Option AddrType) :
    idClassify o id f.format aty? = inSomeWindow o id f aty? := by cases f <;> rfl

theorem exists_windowed {g : Format} (hg : g.number.toNat = 1 ∨ g.number.toNat = 4) : ∃ f : Windowed, f.format = g := by
  rcases hg with hg | hg
  · exact ⟨.nf, Format.number_inj (BitVec.eq_of_toNat_eq hg.symm)⟩
  · exact ⟨.m29, Format.number_inj (BitVec.eq_of_toNat_eq hg.symm)⟩

theorem idClassify_some_iff {g : Format} (hg : g.number.toNat = 1 ∨ g.number.toNat = 4) (o : Offsets) (id : Word)
    (a : AddrType) : idClassify o id g (some a) = true ↔ InWindow o g.number a.number id.toNat := by
  obtain ⟨f, rfl⟩ := exists_windowed hg
  rw [idClassify_windowed]
  exact inWindow_iff o id f a

theorem idClassify_none_iff {g : Format} (hg : g.number.toNat = 1 ∨ g.number.toNat = 4) (o : Offsets) (id : Word) :
    idClassify o id g none = true ↔ InWindow o g.number 0 id.toNat ∨ InWindow o g.number 1 id.toNat := by
  obtain ⟨f, rfl⟩ := exists_windowed hg
  rw [idClassify_windowed, inSomeWindow, Bool.or_eq_true]
  exact or_congr (inWindow_iff o id f .phys) (inWindow_iff o id f .func)

/-! ## The windows (R107) -/

/-- An identifier lies in the window of at most one addressing type of a format. -/
theorem inWindow_unique (ho : o.Ok) (ha : inWindow o id f a = true) (hb : inWindow o id f b = true) : a = b :=
  AddrType.number_inj
    ((idType_of ho ((inWindow_iff o id f a).1 ha)).symm.trans (idType_of ho ((inWindow_iff o id f b).1 hb)))

/-- An identifier of a window is the encoding of its own low 16 bits. -/
theorem idEncode_lowBytes (ho : o.Ok) (hw : inWindow o id f a = true) :
    idEncode o f a (byte (id.toNat / 2 ^ 8)) (byte id.toNat) = id := by
  obtain ⟨hlow, hhigh⟩ := (inWindow_iff o id f a).1 hw
  obtain ⟨halign, -, -⟩ := offset_ok ho f.format.number a.number
  apply BitVec.eq_of_toNat_eq
  rw [idEncode_toNat ho, byte_toNat, byte_toNat]
  omega

theorem inSomeWindow_of_inWindow (hw : inWindow o id f a = true) : inSomeWindow o id f none = true := by
  cases a <;> simp [inSomeWindow, hw]

theorem inSomeWindow_eq_false (hp : inWindow o id f .phys = false) (hf : inWindow o id f .func = false)
    (a? : Option AddrType) : inSomeWindow o id f a? = false := by
  match a? with
  | none => simp [inSomeWindow, hp, hf]
  | some .phys => exact hp
  | some .func => exact hf

theorem idDecode_outside (he : isExtended id = true) (hp : inWindow o id f .phys = false)
    (hf : inWindow o id f .func = false) : idDecode o f id = .error .notImpl := by
  simp [idDecode, he, hp, hf]

/-- Settles O26: an identifier of a window is an encoding, so that decoding inverts both ways. -/
theorem identifierWindowsInvert : Obligations.IdentifierWindowsInvert := by
  refine fun o f ho => ⟨idDecode_idEncode ho f, fun a id hw => ?_, fun id he hp hf => ?_⟩
  · have henc := idEncode_lowBytes ho hw
    refine ⟨?_, henc, ?_, fun b => ?_⟩
    · have hdec := idDecode_idEncode ho f a (byte (id.toNat / 2 ^ 8)) (byte id.toNat)
      rwa [henc] at hdec
    · rw [idClassify_windowed, inSomeWindow_of_inWindow hw]
    · rw [idClassify_windowed]
      exact ⟨fun hb => inWindow_unique ho hb hw, fun hb => hb ▸ hw⟩
  · refine ⟨idDecode_outside he hp hf, fun a? => ?_⟩
    rw [idClassify_windowed, inSomeWindow_eq_false hp hf]

/-! ## The commands with checks (R112, R113, R114)

Each is named after its statement, which is also the name of the function it computes: a namespace of their own keeps the
two apart. -/

namespace IdCommands

/-- Settles O23: three operand checks, then the truth value of R106, read off by the format and the presence of `AT`. -/
theorem idClassify : Obligations.IdClassify := by
  refine fun fmt pm s => command_of_yields rfl (commandWord_eq _ _ _ _) ?_
  refine (yields_format fmt).bind fun g hg => (yields_id _).bind fun id hid => ?_
  refine (yields_optional (r := .aty) (yields_addrType _)).last fun aty? haty => yields_ok ?_
  obtain rfl := hg
  obtain ⟨rfl, -⟩ := hid
  have h := truthEnd_setTruth s (Machine.idClassify s.offs (s.reg .id) g aty?)
  refine ⟨h.res_eq_one_or_zero, fun hstd => ?_, fun hany => ?_, fun hwin hgiven => ?_, fun hwin hgiven => ?_, h.rp, h.only⟩
  · rw [h.res_eq_one_iff, idClassify_standard hstd, isStandard_iff, num]
  · rw [h.res_eq_one_iff, idClassify_any hany]
  · obtain ⟨a, rfl, ha⟩ := haty.some hgiven
    rw [h.res_eq_one_iff, idClassify_some_iff hwin, ha]
    rfl
  · rw [h.res_eq_one_iff, haty.none hgiven, idClassify_none_iff hwin]
    rfl

/-- Settles O24: five checks, then the encoded identifier of R104. -/
theorem idEncode : Obligations.IdEncode := by
  refine fun fmt s => command_of_yields rfl (commandWord_eq _ _ _ _) ?_
  refine (yields_format fmt).bind fun g hg => (yields_byte _).bind fun ta hta => (yields_byte _).bind fun sa hsa => ?_
  refine (yields_addrType _).bind fun a ha => (hg ▸ yields_windowed g).last fun f hf => yields_ok ?_
  subst hf hg
  refine ⟨?_, presence_endOk _ _ _, ?_⟩
  · rw [State.endOk_reg, State.setPresence_eq, State.reg_setReg_ne _ (by decide), State.reg_setReg_self, idEncode_eq,
      ha, hta, hsa]
    rfl
  · exact (((Effect.refl s [.id, .rp] nowhere).setReg (by decide) _).setReg (by decide) _).regsOnly rfl

/-- Settles O25: the three operand checks, then those of R105, then the fields of the identifier. -/
theorem idDecode : Obligations.IdDecode := by
  refine fun fmt s => command_of_yields rfl (commandWord_eq _ _ _ _) ?_
  refine (yields_format fmt).bind fun g hg => (yields_id _).bind fun id hid => ?_
  refine (hg ▸ yields_windowed g).bind fun f hf => ?_
  subst hf hg
  obtain ⟨rfl, -⟩ := hid
  refine (yields_idDecode s.offs f (s.reg .id)).last fun r hr => yields_ok ⟨?_, ?_, ?_, presence_endOk _ _ _, ?_⟩
  · simp [hr.aty, num, w32]
  · simp [byte_setWidth hr.ta, num]
  · simp [byte_setWidth hr.sa, num]
  · exact (((((Effect.refl s [.aty, .ta, .sa, .rp] nowhere).setReg (by decide) _).setReg (by decide) _).setReg (by decide)
      _).setReg (by decide) _).regsOnly rfl

end IdCommands

end Sys2Proof.Proofs

/-! The data-length codec: the exact and the least code of a length (41_dlc.md R120 to R122), and the commands that read
them (R125 to R127). -/

namespace Sys2Proof.Proofs

open Sys2Proof.Machine Sys2Proof.Claims Sys2Proof.Laws

variable {n : Nat} {c : Dlc}

/-! ## The table (R120) -/

theorem dlcBytes_strictMono : StrictMono dlcBytes := Fin.strictMono_iff_lt_succ.2 (by decide)

theorem dlcBytes_le (c : Dlc) : dlcBytes c ≤ 64 := dlcBytes_eq c ▸ frameBytes_le c

/-- Up to eight bytes a code is its own byte count. -/
theorem dlcBytes_of_le_eight : ∀ c : Dlc, c ≤ 8 → dlcBytes c = c.val := by decide

/-! ## The exact code (R121) -/

theorem dlcBytes_of_dlcExact (h : dlcExact n = .ok c) : dlcBytes c = n := by
  obtain ⟨⟨-, hbytes⟩, -⟩ := (yields_dlcExact n).passed h
  rw [dlcBytes_eq, hbytes]

theorem dlcExact_ok_or_error (n : Nat) :
    (∃ c, dlcExact n = .ok c ∧ dlcBytes c = n) ∨ (dlcExact n = .error .invalidValue ∧ ∀ c, dlcBytes c ≠ n) := by
  by_cases hn : n ∈ legalLengths
  · obtain ⟨c, hc, -⟩ := (yields_dlcExact n).2 (not_not_intro hn)
    exact .inl ⟨c, hc, dlcBytes_of_dlcExact hc⟩
  · refine .inr ⟨(yields_dlcExact n).1 hn, fun c hc => hn ?_⟩
    rw [← hc, dlcBytes_eq]
    exact frameBytes_mem c

/-! ## The least code (R122) -/

/-- `c` is the least code whose frame holds `n` bytes. -/
abbrev IsLeastCode (n : Nat) (c : Dlc) : Prop := IsLeast {d | n ≤ dlcBytes d} c

/-- A code is the least one for its own byte count. -/
theorem isLeastCode_dlcBytes (c : Dlc) : IsLeastCode (dlcBytes c) c :=
  ⟨le_refl (dlcBytes c), fun _ => dlcBytes_strictMono.le_iff_le.1⟩

theorem isLeastCode_of_le_eight (hn : n ≤ 8) : IsLeastCode n ⟨n, by omega⟩ := by
  have hbytes : dlcBytes ⟨n, by omega⟩ = n := dlcBytes_of_le_eight _ hn
  simpa only [hbytes] using isLeastCode_dlcBytes ⟨n, by omega⟩

/-- A code that holds `n` bytes is the least one when its predecessor in the table does not. -/
theorem isLeastCode_of_pred {p : Dlc} (hsucc : c.val = p.val + 1) (hp : dlcBytes p < n) (hc : n ≤ dlcBytes c) :
    IsLeastCode n c := by
  refine ⟨hc, fun d hd => ?_⟩
  have hpd : p < d := dlcBytes_strictMono.lt_iff_lt.1 (hp.trans_le hd)
  rw [Fin.le_def, hsucc]
  exact hpd

theorem leastCode_dlcBytes : ∀ c : Dlc, leastCode (dlcBytes c) = c.val := by decide

theorem leastCode_mono : Monotone leastCode := fun _ _ hmn =>
  List.countP_mono_left fun _ _ hb => decide_eq_true ((of_decide_eq_true hb).trans_le hmn)

theorem isLeastCode_of_dlcMin (h : dlcMin n = .ok c) : IsLeastCode n c := by
  obtain ⟨⟨hcode, hholds⟩, -⟩ := (yields_dlcMin n).passed h
  refine ⟨hholds.trans_eq (dlcBytes_eq c).symm, fun d hd => ?_⟩
  rw [Fin.le_def, hcode, ← leastCode_dlcBytes d]
  exact leastCode_mono hd

theorem exists_dlcMin (hn : n ≤ 64) : ∃ c, dlcMin n = .ok c ∧ IsLeastCode n c := by
  obtain ⟨c, hc, -⟩ := (yields_dlcMin n).2 (by omega)
  exact ⟨c, hc, isLeastCode_of_dlcMin hc⟩

theorem dlcMin_of_isLeastCode (h : IsLeastCode n c) : dlcMin n = .ok c := by
  obtain ⟨d, hd, hleast⟩ := exists_dlcMin (h.1.trans (dlcBytes_le c))
  rw [hd, hleast.unique h]

theorem dlcMin_of_dlcExact (h : dlcExact n = .ok c) : dlcMin n = .ok c := by
  rw [← dlcBytes_of_dlcExact h]
  exact dlcMin_of_isLeastCode (isLeastCode_dlcBytes c)

/-- Settles O27: the table is strictly rising, so a code is the least one as soon as its predecessor is too small. -/
theorem dataLengthFunctions : Obligations.DataLengthFunctions := by
  refine ⟨dlcBytes_eq, dlcBytes_strictMono, dlcExact_ok_or_error, fun n => (yields_dlcMin n).1, fun n hn => ?_,
    fun n c => dlcMin_of_dlcExact⟩
  obtain ⟨c, hc, hleast⟩ := exists_dlcMin hn
  have hval : ∀ p d : Dlc, d.val = p.val + 1 → dlcBytes p < n → n ≤ dlcBytes d → c = d :=
    fun p d hsucc hp hd => hleast.unique (isLeastCode_of_pred hsucc hp hd)
  refine ⟨c, hc, hleast.1, fun d => @hleast.2 d, fun hsmall => ?_, hval 8 9 rfl, hval 9 10 rfl, hval 10 11 rfl,
    hval 11 12 rfl, hval 12 13 rfl, hval 13 14 rfl, fun h => hval 14 15 rfl h hn⟩
  rw [hleast.unique (isLeastCode_of_le_eight hsmall)]

/-! ## The commands (R125, R126, R127) -/

/-- The end of a command whose one result is a number in the register `r` (R24): `x[r]` holds it, `x[RP]` names `r`
alone, and all else stays. -/
structure NumberEnd (s t : State) (r : Reg) (n : Nat) : Prop where
  result : t.reg r = w32 n
  rp     : t.reg .rp = presenceMask [r]
  only   : RegsOnly s t [r, .rp]

theorem numberEnd_setRegNat (s : State) {r : Reg} (hr : r ≠ .rp) (n : Nat) :
    NumberEnd s (((s.setRegNat r n).setPresence [r]).endOk false) r n where
  result := by simp [hr, w32]
  rp := presence_endOk _ _ _
  only := (((Effect.refl s [r, .rp] nowhere).setReg (by simp) _).setReg (by simp) _).regsOnly rfl

/-- A code in a register is read back as its number. -/
theorem NumberEnd.num_code {s t : State} {r : Reg} (h : NumberEnd s t r c.val) : num t r = c.val := by
  rw [num, h.result, w32, BitVec.toNat_ofNat]
  omega

/-- Settles O28: one check each, then the number that R120, R121 or R122 gives. -/
theorem dataLengthCommands : Obligations.DataLengthCommands := by
  refine fun s => ⟨command_of_yields rfl (by decide) ?_, command_of_yields rfl (by decide) ?_,
    command_of_yields rfl (by decide) ?_⟩
  · refine (yields_code _).last fun c hc => yields_ok ?_
    have h := numberEnd_setRegNat s (r := .dl) (by decide) (dlcBytes c)
    exact ⟨by rw [h.result, dlcBytes_eq, hc, num], h.rp, h.only⟩
  · refine (yields_dlcExact _).last fun c ⟨_, hbytes⟩ => yields_ok ?_
    have h := numberEnd_setRegNat s (r := .dlc) (by decide) c.val
    exact ⟨by rw [h.num_code, hbytes, num], by rw [h.num_code]; omega, h.rp, h.only⟩
  · refine (yields_dlcMin _).last fun c ⟨hcode, _⟩ => yields_ok ?_
    have h := numberEnd_setRegNat s (r := .dlc) (by decide) c.val
    exact ⟨by rw [h.result, hcode, num], h.rp, h.only⟩

end Sys2Proof.Proofs

/-! The addressing-information codec: what the four commands of 42_addressing.md check, compute and leave alone (R145 to
R148), and that validated addressing is what decoding its own bytes gives (R142). -/

namespace Sys2Proof.Proofs

open Sys2Proof.Machine Sys2Proof.Claims Sys2Proof.Laws

variable {s : State} {o : Offsets} {f : Format}

/-! ## Addressing bytes (R132, R134) -/

/-- An optional byte that is present has its number. -/
theorem toNat_of_optIs {p : Prop} {n : Nat} {b? : Option Byte} {b : Byte} (h : OptIs p (fun b => b.toNat = n) b?)
    (hb : b? = some b) : b.toNat = n := by
  subst hb
  obtain ⟨c, hc, hn⟩ := h.some (h.isSome_iff.1 rfl)
  obtain rfl := Option.some.inj hc
  exact hn

theorem addrBytes_of_target {fmt : BitVec 3} (h : fmt.toNat = 2) : addrBytes fmt = 1 := by
  simp [addrBytes, h]

theorem addrBytes_of_extension {fmt : BitVec 3} (h : hasExtension fmt = true) : addrBytes fmt = 1 := by
  obtain h | h : fmt.toNat = 3 ∨ fmt.toNat = 4 := of_decide_eq_true h
  all_goals simp [addrBytes, h]

/-- Storing the one addressing byte, which is a given operand, puts that operand in `FB[0]`. -/
theorem fb_zero_storeFb {p : Prop} {n : Nat} {b? : Option Byte} {d : List Byte}
    (h : OptIs p (fun b => b.toNat = n) b?) (hd : d.head? = b?) (hlen : d.length = 1) :
    (s.storeFb 0 d).fb 0 = byte n := by
  obtain ⟨b, rfl⟩ := List.length_eq_one_iff.1 hlen
  rw [fb_storeFb, if_pos ⟨le_rfl, by simp⟩]
  exact byte_eq (toNat_of_optIs h hd.symm)

/-- AI_ENCDATA's own check (R134), by the presence bits. -/
theorem missingByte_iff {fmt : BitVec 3} {p q : Prop} {P Q : Byte → Prop} {ta? ae? : Option Byte} (ht : OptIs p P ta?)
    (he : OptIs q Q ae?) :
    (fmt.toNat = 2 ∧ ta?.isSome = false ∨ hasExtension fmt = true ∧ ae?.isSome = false) ↔
      (fmt.toNat = 2 ∧ ¬p ∨ hasExtension fmt = true ∧ ¬q) := by
  rw [← ht.isSome_iff, ← he.isSome_iff, Bool.not_eq_true, Bool.not_eq_true]

/-- Settles O29: AI_NBYTES checks the format alone; AI_ENCDATA stores the byte that the format needs, if any. -/
theorem addressingByteCommands : Obligations.AddressingByteCommands := by
  refine fun fmt pm s => ⟨command_of_yields rfl (commandWord_eq _ _ _ _) ?_,
    command_of_yields rfl (commandWord_eq _ _ _ _) ?_⟩
  · refine (yields_format fmt).last fun f hf => yields_ok ⟨?_, presence_endOk _ _ _, ?_⟩
    · simp [← hf, aiBytes_eq, w32]
    · exact (((Effect.refl s [.res, .rp] nowhere).setReg (by decide) _).setReg (by decide) _).regsOnly rfl
  · refine (yields_format fmt).bind fun f hf => (yields_optional (r := .ta) (yields_byte _)).bind fun ta? hta => ?_
    refine (yields_optional (r := .ae) (yields_byte _)).bind fun ae? hae => ?_
    subst hf
    refine (Yields.check (missingByte_iff hta hae) (yields_aiEncData f ta? ae?)).last fun d ⟨hlen, htarget, hext⟩ => ?_
    refine yields_ok ⟨fun h2 => ?_, fun he => ?_, ?_, presence_endOk _ _ _, Effect.kept ?_, rfl⟩
    · exact fb_zero_storeFb hta (htarget h2) (hlen.trans (addrBytes_of_target h2))
    · exact fb_zero_storeFb hae (hext he) (hlen.trans (addrBytes_of_extension he))
    · simp [hlen, w32]
    · exact (((Effect.refl s [.res, .rp] _).storeBytes fun k hlow hhigh => ⟨hlow, hlen ▸ hhigh⟩).setReg (by decide)
        _).setReg (by decide) _

/-! ## Decoding (R135) -/

/-- A format with an addressing byte is decoded from a frame of at least one byte. -/
theorem frame_nonempty {id n : Nat} (hbyte : addrBytes f.number = 1)
    (h : ∀ c ∈ aiDecodeChecks o f.number id n, ¬c.1) : 0 < n := by
  have hmem : (n < 1, Err.inconsistent) ∈ aiDecodeChecks o f.number id n := by
    cases f with
    | n11 => exact absurd hbyte (by decide)
    | nf => exact absurd hbyte (by decide)
    | ext => simp [aiDecodeChecks, Format.number]
    | m11 => simp [aiDecodeChecks, Format.number]
    | m29 => simp [aiDecodeChecks, Format.number]
  have hn : ¬n < 1 := h _ hmem
  omega

/-- Only the first byte of the data field is read, and only for a format with an addressing byte. -/
theorem recoveredIs_congr {fmt : BitVec 3} {id : Word} {data data' : List Byte} {r : AiFields}
    (h : RecoveredIs o fmt id data r) (hfirst : addrBytes fmt = 1 → data.getD 0 0#8 = data'.getD 0 0#8) :
    RecoveredIs o fmt id data' r where
  aty := h.aty
  ta := by
    have hta := h.ta
    by_cases h2 : fmt.toNat = 2
    · simpa only [hfirst (addrBytes_of_target h2)] using hta
    · simpa only [if_neg h2] using hta
  sa := h.sa
  ae := ⟨fun he => hfirst (addrBytes_of_extension he) ▸ h.ae.some he, h.ae.none⟩

/-- `ai_decode` of the frame in `FB` (R135). -/
theorem yields_aiDecode_frame (s : State) (f : Format) (id : Word) (n : Nat) :
    Yields (aiDecode s.offs f id (s.frame n)) (aiDecodeChecks s.offs f.number id.toNat n)
      (RecoveredIs s.offs f.number id [s.fb 0]) := by
  have hdec := yields_aiDecode s.offs f id (s.frame n)
  rw [length_frame] at hdec
  exact hdec.withPassed.mono fun r ⟨hr, hpassed⟩ =>
    recoveredIs_congr hr fun hbyte => getD_frame s (frame_nonempty hbyte hpassed)

/-- The target address comes from `FB[0]` for `EXT` and from the identifier for the formats with structure (R135). -/
theorem target_by_format (f : Format) (first fromId : Nat) (old : Word) :
    (if hasTarget f.number = true then w32 (if f.number.toNat = 2 then first else fromId) else old) =
      if f.number.toNat = 2 then w32 first else if structured f.number = true then w32 fromId else old := by
  cases f
  all_goals rfl

/-- `x[RP]` of AI_DECODE (R147). -/
theorem presenceMask_decoded {id : Word} {data : List Byte} {r : AiFields} (h : RecoveredIs o f.number id data r) :
    presenceMask (presentReg .aty r.aty? ++ presentReg .ta r.ta? ++ presentReg .sa r.sa? ++ presentReg .ae r.ae?) =
      w32 ([0x00, 0x16, 0x02, 0x08, 0x1E].getD f.number.toNat 0) := by
  simp only [presenceMask_append, presenceMask_present _ h.aty, presenceMask_present _ h.ta,
    presenceMask_present _ h.sa, presenceMask_present _ h.ae]
  cases f
  all_goals decide

/-! ## Validation (R140) -/

/-- Writing the value that a register holds changes nothing. -/
theorem setReg_reg (s : State) (r : Reg) : s.setReg r (s.reg r) = s := by
  simp [State.setReg, State.reg]

/-- An optional value that the register holds already changes nothing. -/
theorem setRegByte?_self {p : Prop} {r : Reg} {b? : Option Byte} (h : OptIs p (fun b => b.toNat = num s r) b?) :
    s.setRegByte? r b? = s := by
  cases b? with
  | none => rfl
  | some b => rw [State.setRegByte?_some, byte_setWidth (toNat_of_optIs h rfl), w32_num, setReg_reg]

/-- `x[RP]` of AI_VALIDATE (R148). -/
theorem presenceMask_validated {pm : BitVec 8} {r : Normalised} (h : NormalisedIs o f.number pm s r) :
    presenceMask ([.id, .aty] ++ presentReg .ta r.ta? ++ presentReg .sa r.sa? ++ presentReg .ae r.ae?) =
      w32 ([0x11, 0x17, 0x13, 0x19, 0x1F].getD f.number.toNat 0) := by
  simp only [presenceMask_append, presenceMask_present _ h.ta, presenceMask_present _ h.sa,
    presenceMask_present _ h.ae]
  cases f
  all_goals decide

/-! ## The commands that decode and validate (R147, R148)

Each is named after its statement, which is also the name of the function it computes: a namespace of their own keeps the
two apart. -/

namespace AiCommands

/-- Settles O30: three operand checks, then those of R135, then each recovered value to its register. -/
theorem aiDecode : Obligations.AiDecode := by
  refine fun fmt s => command_of_yields rfl (commandWord_eq _ _ _ _) ?_
  refine (yields_format fmt).bind fun f hf => (yields_id _).bind fun id hid => (yields_length _).bind fun n hn => ?_
  subst hf
  obtain ⟨rfl, -⟩ := hid
  obtain ⟨rfl, -⟩ := hn
  refine (yields_aiDecode_frame s f (s.reg .id) _).last fun r hr => yields_ok ?_
  have hae : OptIs (hasExtension f.number = true) (fun b => b.toNat = (s.fb 0).toNat) r.ae? :=
    ⟨fun he => (hr.ae.some he).imp fun b ⟨hb, hval⟩ => ⟨hb, congrArg BitVec.toNat hval⟩, hr.ae.none⟩
  refine ⟨?_, ?_, ?_, ?_, (presence_endOk _ _ _).trans (presenceMask_decoded hr), Effect.regsOnly ?_ (by simp)⟩
  · simp [reg_setRegByte?_ne, reg_setAddrType? _ hr.aty, num]
  · simp [reg_setRegByte?_ne, reg_setAddrType?_ne, reg_setRegByte? _ _ hr.ta, num, target_by_format]
  · simp [reg_setRegByte?_ne, reg_setAddrType?_ne, reg_setRegByte? _ _ hr.sa, num]
  · simp [reg_setRegByte?_ne, reg_setAddrType?_ne, reg_setRegByte? _ _ hae]
  · exact (((((Effect.refl s _ _).setAddrType? (by decide) _).setRegByte? (by decide) _).setRegByte? (by decide)
      _).setRegByte? (by decide) _).setReg (by decide) _

/-- Settles O31: the operand checks, then those of R140, then the normalised values to their registers; the extension is
written back as it was. -/
theorem aiValidate : Obligations.AiValidate := by
  refine fun fmt pm s => command_of_yields rfl (commandWord_eq _ _ _ _) ?_
  refine (yields_addressing fmt pm s).bind fun v hv => (yields_aiValidate s.offs hv).last fun r hr => yields_ok ?_
  obtain rfl := hv.fmt
  have hae : OptIs (hasExtension v.fmt.number = true)
      (fun b => b.toNat = num (((s.setReg .id r.id).setRegByte? .ta r.ta?).setRegByte? .sa r.sa?) .ae) r.ae? := by
    simpa [num, reg_setRegByte?_ne] using hr.ae
  rw [setRegByte?_self hae]
  refine ⟨?_, ?_, ?_, ?_, (presence_endOk _ _ _).trans (presenceMask_validated hr), Effect.regsOnly ?_ (by simp)⟩
  · simp [reg_setRegByte?_ne, hr.id]
  · simp [reg_setRegByte?_ne, reg_setRegByte? _ _ hr.ta]
  · simp [reg_setRegByte?_ne, reg_setRegByte? _ _ hr.sa]
  · simp [reg_setRegByte?_ne]
  · exact ((((Effect.refl s _ _).setReg (by decide) _).setRegByte? (by decide) _).setRegByte? (by decide) _).setReg
      (by decide) _

end AiCommands

/-! ## Validated addressing decodes back (R142) -/

/-- What `ai_validate` returns is what its own identifier and addressing bytes decode to; they carry the addressing type
exactly for the formats with identifier structure. -/
theorem decode_of_validate (ho : o.Ok) {v : Addressing} {r : Normalised} (h : aiValidate o v = .ok r) :
    ∃ d, aiEncData v.fmt r.ta? r.ae? = .ok d ∧
      aiDecode o v.fmt r.id d =
        .ok ⟨if structured v.fmt.number then some v.aty else none, r.ta?, r.sa?, r.ae?⟩ := by
  obtain ⟨f, aty, id?, ta?, sa?, ae?⟩ := v
  cases f with
  | n11 =>
    obtain ⟨_, -, h⟩ := bind_ok h
    obtain ⟨id, -, h⟩ := bind_ok h
    obtain ⟨_, hstd, h⟩ := bind_ok h
    cases h
    exact ⟨[], rfl, bind_eq_ok.2 ⟨_, hstd, rfl⟩⟩
  | nf =>
    obtain ⟨_, -, h⟩ := bind_ok h
    obtain ⟨q, hq, h⟩ := bind_ok h
    cases h
    exact ⟨[], rfl, bind_eq_ok.2 ⟨_, (resolve29_self ho hq).2, rfl⟩⟩
  | ext =>
    obtain ⟨_, -, h⟩ := bind_ok h
    obtain ⟨id, -, h⟩ := bind_ok h
    obtain ⟨ta, -, h⟩ := bind_ok h
    cases h
    exact ⟨[ta], rfl, rfl⟩
  | m11 =>
    obtain ⟨_, -, h⟩ := bind_ok h
    obtain ⟨id, -, h⟩ := bind_ok h
    obtain ⟨_, hstd, h⟩ := bind_ok h
    obtain ⟨ae, -, h⟩ := bind_ok h
    cases h
    exact ⟨[ae], rfl, bind_eq_ok.2 ⟨_, hstd, rfl⟩⟩
  | m29 =>
    obtain ⟨ae, -, h⟩ := bind_ok h
    obtain ⟨q, hq, h⟩ := bind_ok h
    cases h
    exact ⟨[ae], rfl, bind_eq_ok.2 ⟨_, (resolve29_self ho hq).2, rfl⟩⟩

/-- Settles O32: the result decodes back and validates to itself, whatever the range of the given identifier. -/
theorem addressingRoundTrip : Obligations.AddressingRoundTrip :=
  fun _ _ _ ho _ h => ⟨decode_of_validate ho h, validate_self ho h⟩

end Sys2Proof.Proofs

/-! Packet type and Single Frame: what PT_GET, SF_ENC and SF_DEC check, compute and leave alone (43_single_frame.md R160
to R162), and that a Single Frame built in valid mode decodes to its payload (R159). -/

namespace Sys2Proof.Proofs

open Sys2Proof.Machine Sys2Proof.Claims Sys2Proof.Laws

variable {s : State} {pm : BitVec 8} {a n : Nat}

/-! ## The commands (R160, R161, R162) -/

/-- Settles O33: four checks, the last on the nibble that names the packet type; then the type's number. -/
theorem ptGet : Obligations.PtGet := by
  refine fun fmt s => command_of_yields rfl (commandWord_eq _ _ _ _) ?_
  refine (yields_format fmt).bind fun f hf => (yields_length _).bind fun n ⟨hn, _⟩ => ?_
  subst hf hn
  rw [aiBytes_eq]
  refine (yields_raiseIf .inconsistent Iff.rfl).bind fun _ _ => ?_
  rw [← hi4_toNat]
  cases htype : packetTypeOf (hi4 (s.fb (addrBytes f.number))) with
  | none => exact yields_error ((packetTypeOf_isSome _).1 htype)
  | some type =>
    have hnibble := (packetTypeOf_eq _ type).1 htype
    have hknown : ¬3 < (hi4 (s.fb (addrBytes f.number))).toNat := mt (packetTypeOf_isSome _).2 (by simp [htype])
    refine Yields.skip _ hknown (yields_ok ⟨?_, presence_endOk _ _ _, ?_⟩)
    · simp [hnibble, w32]
    · exact (((Effect.refl s [.res, .rp] nowhere).setReg (by decide) _).setReg (by decide) _).regsOnly rfl

/-- Settles O34: the operand checks, then those of R157, then the frame body that R154 emits. -/
theorem sfEnc : Obligations.SfEnc := by
  refine fun any fmt pm s => command_of_yields rfl (commandWord_eq _ _ _ _) ?_
  refine (yields_format fmt).bind fun f hf => (yields_dlcOptional pm s).bind fun dlc? hdlc => ?_
  refine (yields_length _).bind fun n ⟨hn, _⟩ => ?_
  subst hf hn
  rw [aiBytes_eq]
  refine (yields_sfEncode (payload_length s) hdlc s.fill).last fun e he => yields_ok ?_
  exact leafEncoded_emit (fill_eq s ▸ he)

/-- Settles O35: the operand checks, then those of R158, then the payload to `PB` and its length to two registers. -/
theorem sfDec : Obligations.SfDec := by
  refine fun fmt s => command_of_yields rfl (commandWord_eq _ _ _ _) ?_
  refine (yields_frame fmt s).bind fun o ⟨ha, hframe⟩ => ?_
  rw [ha, hframe]
  refine (yields_sfDecode s.fb (addrBytes_le fmt) _).last fun r hr => yields_ok ?_
  have hlen : r.pay.length = sfDecLength s.fb (addrBytes fmt) (num s .flen) := by rw [hr.pay, length_bytesFrom]
  refine ⟨fun j hj => ?_, ?_, ?_, ?_, presence_endOk _ _ _, Effect.kept ?_, rfl⟩
  · refine (pb_deliver s r.pay j).trans ?_
    rw [if_pos (hlen ▸ hj), hr.pay, getD_bytesFrom _ _ _ _ _ hj]
  · simp [State.deliverPayload, hlen, w32]
  · simp [hr.dl, w32]
  · simp [hr.code, w32]
  · refine ((((Effect.refl s _ _).deliverPayload (by decide) fun k hk => ?_).setReg (by decide) _).setReg (by decide)
      _).setReg (by decide) _
    exact hlen ▸ hk

/-! ## The code of a Single Frame built without one (R157) -/

theorem sfFrameCode_short (hg : ¬Given pm 5) (h : a + num s .plen ≤ 7) : sfFrameCode pm a s = a + 1 + num s .plen := by
  rw [sfFrameCode, if_neg hg, if_pos (by omega)]

theorem sfFrameCode_long (hg : ¬Given pm 5) (h : 8 ≤ a + num s .plen) :
    sfFrameCode pm a s = leastCode (a + 2 + num s .plen) := by
  rw [sfFrameCode, if_neg hg, if_neg (by omega)]

/-- The long form starts at code 9, whose frame is the first of more than eight bytes. -/
theorem leastCode_long (h10 : 10 ≤ n) (h64 : n ≤ 64) :
    9 ≤ leastCode n ∧ leastCode n < 16 ∧ n ≤ frameBytes (leastCode n) := by
  obtain ⟨c, -, hc, hholds⟩ := (yields_dlcMin n).2 (by omega)
  have hlow : leastCode 10 ≤ leastCode n := leastCode_mono h10
  exact ⟨hlow, hc ▸ c.isLt, hc ▸ hholds⟩

theorem frameBytes_of_le_eight {c : Nat} (h : c ≤ 8) : frameBytes c = c := by
  have hbytes := dlcBytes_of_le_eight ⟨c, by omega⟩ h
  rwa [dlcBytes_eq] at hbytes

theorem sfFrameCode_lt (hg : ¬Given pm 5) (h62 : a + num s .plen ≤ 62) : sfFrameCode pm a s < 16 := by
  by_cases h7 : a + num s .plen ≤ 7
  · rw [sfFrameCode_short hg h7]
    omega
  · rw [sfFrameCode_long hg (by omega)]
    exact (leastCode_long (by omega) (by omega)).2.1

theorem sfFrameCode_le_eight_iff (hg : ¬Given pm 5) (h62 : a + num s .plen ≤ 62) :
    sfFrameCode pm a s ≤ 8 ↔ a + num s .plen ≤ 7 := by
  by_cases h7 : a + num s .plen ≤ 7
  · rw [sfFrameCode_short hg h7]
    omega
  · rw [sfFrameCode_long hg (by omega)]
    have hlong := (leastCode_long (n := a + 2 + num s .plen) (by omega) (by omega)).1
    omega

/-! ## The round trip (R159) -/

/-- A payload of 1 to `62 - a` bytes passes every check of `sf_encode` in valid mode without a code. -/
theorem sfOwn_passed (hg : ¬Given pm 5) (h1 : 1 ≤ num s .plen) (h62 : a + num s .plen ≤ 62) :
    ∀ c ∈ sfOwn false pm a s, ¬c.1 := by
  simp only [sfOwn, passed_cons, passed_nil, sfLength, Bool.false_eq_true, if_false, and_true]
  by_cases h7 : a + num s .plen ≤ 7
  · have hcode := sfFrameCode_short hg h7
    have hbytes := frameBytes_of_le_eight (c := a + 1 + num s .plen) (by omega)
    rw [hcode, hbytes]
    omega
  · have hcode := sfFrameCode_long hg (a := a) (s := s) (by omega)
    obtain ⟨hlow, -, hholds⟩ := leastCode_long (n := a + 2 + num s .plen) (by omega) (by omega)
    rw [hcode]
    omega

/-- A list of bytes is read back from its own byte function. -/
theorem bytesFrom_frameByte (l : List Byte) : bytesFrom (frameByte l) 0 l.length = l :=
  List.ext_getElem (length_bytesFrom _ _ _) fun i _ h => by simp [frameByte, h]

/-- `sf_decode` after any addressing bytes gives back what `sf_encode` made in valid mode. -/
theorem sfDecode_encoded {pay : List Byte} {fill : Byte} {e : Encoded} (ha : a ≤ 1) (hp : pay.length = num s .plen)
    (hc : sfFrameCode pm a s < 16) (hown : ∀ c ∈ sfOwn false pm a s, ¬c.1)
    (he : EncodedIs a (sfFrameCode pm a s) (sfPci false pm a s) pay fill e) {h : List Byte} (hh : h.length = a) :
    sfDecode a (h ++ e.body) = .ok ⟨e.code, pay.length, pay⟩ := by
  have hlen : (h ++ e.body).length = frameBytes (sfFrameCode pm a s) := by rw [List.length_append, hh, he.length]
  have hbody : Body (frameByte (h ++ e.body)) a (frameBytes (sfFrameCode pm a s)) (sfPci false pm a s) (frameByte pay)
      (num s .plen) fill := by
    refine body_of_encoded (e := e) (by rwa [← hp, bytesFrom_frameByte]) fun k hk _ => ?_
    rw [frameByte, List.getD_append_right _ _ _ _ (hh ▸ hk), hh]
  obtain ⟨hpassed, hdl, hstart⟩ := sfDecChecks_of_built hc hown hbody
  obtain ⟨r, hr, hview⟩ := (yields_sfDecode (frameByte (h ++ e.body)) ha _).all hpassed
  rw [← hlen, bytesFrom_frameByte] at hr
  obtain ⟨code, dl, rpay⟩ := r
  obtain rfl : code = e.code := Fin.ext (hview.code.trans (he.code ▸ codeOf_frameBytes e.code))
  obtain rfl : dl = pay.length := (hview.dl.trans hdl).trans hp.symm
  have hpay : rpay = bytesFrom (frameByte pay) 0 pay.length := by
    refine hview.pay.trans (List.ext_getElem (by simp [hdl, hp]) fun i hi _ => ?_)
    rw [length_bytesFrom, hdl] at hi
    rw [getElem_bytesFrom, getElem_bytesFrom, hstart, hbody.payAt i hi, Nat.zero_add]
  rw [hr, hpay, bytesFrom_frameByte]

/-- In valid mode the announced length is the payload's own, whatever `dl` is. -/
theorem sfEncode_valid_dl (a : Nat) (pay : List Byte) (dlc? : Option Dlc) (dl dl' : Nat) (fill : Byte) :
    sfEncode a pay dlc? false dl fill = sfEncode a pay dlc? false dl' fill := rfl

theorem exists_state_plen (hn : n < 2 ^ 32) : ∃ s : State, n = num s .plen :=
  ⟨State.reset.setRegNat .plen n, by simpa [num] using (Nat.mod_eq_of_lt hn).symm⟩

/-- Settles O36: `sf_encode`, read in a state that holds the payload's length, passes its checks, and so does
the decoder on the frame. -/
theorem singleFrameRoundTrip : Obligations.SingleFrameRoundTrip := by
  intro a pay dl fill ha h1 h62
  obtain ⟨s, hp⟩ := exists_state_plen (n := pay.length) (by omega)
  have hg : ¬Given 0#8 5 := by decide
  rw [hp] at h1 h62
  have hown := sfOwn_passed hg h1 h62
  have hcode := sfFrameCode_lt hg h62
  obtain ⟨e, hok, he⟩ := (yields_sfEncode hp (optIs_none hg) fill).all hown
  refine ⟨e, (sfEncode_valid_dl _ _ _ _ _ _).trans hok, fun h => sfDecode_encoded ha hp hcode hown he, ?_,
    fun h7 => Fin.ext ?_, fun h8 => Fin.ext ?_⟩
  · rw [he.code, sfFrameCode_le_eight_iff hg h62, hp]
  · rw [he.code, sfFrameCode_short hg (by omega)]
    show _ = 8
    omega
  · rw [he.code, sfFrameCode_long hg (by omega), show a + 2 + num s .plen = 10 by omega]
    rfl

end Sys2Proof.Proofs

/-! First Frame: what FF_ENC and FF_DEC check, compute and leave alone (44_first_frame.md R178, R179), and that a First
Frame of a given code decodes to its length and fragment (R175). The escape form is that of log entry 5. -/

namespace Sys2Proof.Proofs

open Sys2Proof.Machine Sys2Proof.Claims Sys2Proof.Laws

variable {s : State} {a c dl start len : Nat} {pci pay : List Byte} {fill : Byte}

/-! ## The commands (R178, R179) -/

/-- Settles O37: the operand checks, then those of R173, then the frame body that R154 emits. -/
theorem ffEnc : Obligations.FfEnc := by
  refine fun any fmt pm s => command_of_yields rfl (commandWord_eq _ _ _ _) ?_
  refine (yields_format fmt).bind fun f hf => (yields_dlcOptional pm s).bind fun dlc? hdlc => ?_
  refine (yields_length _).bind fun n ⟨hn, _⟩ => ?_
  subst hf hn
  rw [aiBytes_eq]
  refine (yields_ffEncode (payload_length s) hdlc s.fill).last fun e he => yields_ok ?_
  exact leafEncoded_emit (fill_eq s ▸ he)

/-- The end of a decoder that reports a length and a payload: `PB` and `x[PLEN]` hold the `len` bytes of `FB` from
`start` on, `x[DL]` the length `dl`, `x[DLC]` the code of a frame of `x[FLEN]` bytes. -/
structure LengthViewEnd (s t : State) (start len dl : Nat) : Prop where
  pay  : ∀ j, j < len → t.pb j = s.fb (start + j)
  plen : t.reg .plen = w32 len
  dl   : t.reg .dl = w32 dl
  dlc  : t.reg .dlc = w32 (codeOf (num s .flen))
  rp   : t.reg .rp = 0x920#32
  kept : Kept s t [.plen, .dl, .dlc, .rp] (pbSpan len)
  pkt  : t.pkt = s.pkt

theorem lengthViewEnd_deliver {r : LengthView} (hr : LengthViewIs s.fb (num s .flen) start len dl r) :
    LengthViewEnd s (((((s.deliverPayload r.pay).setRegNat .dl r.dl).setRegNat .dlc r.code.val).setPresence
      [.dlc, .dl, .plen]).endOk false) start len dl := by
  have hlen : r.pay.length = len := by rw [hr.pay, length_bytesFrom]
  refine ⟨fun j hj => ?_, ?_, ?_, ?_, presence_endOk _ _ _, Effect.kept ?_, rfl⟩
  · refine (pb_deliver s r.pay j).trans ?_
    rw [if_pos (hlen ▸ hj), hr.pay, getD_bytesFrom _ _ _ _ _ hj]
  · simp [State.deliverPayload, hlen, w32]
  · simp [hr.dl, w32]
  · simp [hr.code, w32]
  · exact ((((Effect.refl s _ _).deliverPayload (by decide) fun _ hk => hlen ▸ hk).setReg (by decide) _).setReg
      (by decide) _).setReg (by decide) _

/-- Settles O38: the operand checks, then those of R174, then the fragment to `PB`, its length and FF_DL to two
registers. -/
theorem ffDec : Obligations.FfDec := by
  refine fun fmt s => command_of_yields rfl (commandWord_eq _ _ _ _) ?_
  refine (yields_frame fmt s).bind fun o ⟨ha, hframe⟩ => ?_
  rw [ha, hframe]
  refine (yields_ffDecode s.fb _).last fun r hr => yields_ok ?_
  obtain ⟨hpay, hplen, hdl, hdlc, hrp, hkept, hpkt⟩ := lengthViewEnd_deliver hr
  exact ⟨hpay, hplen, hdl, hdlc, hrp, hkept, hpkt⟩

/-! ## A frame made of addressing bytes and an encoder's result (R154) -/

theorem body_frame {e : Encoded} (he : EncodedIs a c pci pay fill e) {h : List Byte} (hh : h.length = a) :
    Body (frameByte (h ++ e.body)) a (frameBytes c) pci (frameByte pay) pay.length fill :=
  body_of_encoded (e := e) (by rwa [bytesFrom_frameByte]) fun k hk _ => by
    rw [frameByte, List.getD_append_right _ _ _ _ (hh ▸ hk), hh]

/-- The payload is read back from the body that holds it. -/
theorem bytesFrom_body_pay {b : Nat → Byte} {n : Nat} (h : Body b a n pci (frameByte pay) pay.length fill) :
    bytesFrom b (a + pci.length) pay.length = pay :=
  calc bytesFrom b (a + pci.length) pay.length
    _ = bytesFrom (frameByte pay) 0 pay.length := List.ext_getElem (by simp) fun i hi _ => by
        rw [length_bytesFrom] at hi
        rw [getElem_bytesFrom, getElem_bytesFrom, h.payAt i hi, Nat.zero_add]
    _ = pay := bytesFrom_frameByte pay

/-! ## The round trip (R175) -/

/-- `ff_decode` after any addressing bytes gives back what `ff_encode` made in valid mode. -/
theorem ffDecode_encoded {pm : BitVec 8} {e : Encoded} (hp : pay.length = num s .plen)
    (hown : ∀ x ∈ ffOwn false pm a s, ¬x.1) (he : EncodedIs a (ffFrameCode pm a s) (ffPciList s) pay fill e)
    {h : List Byte} (hh : h.length = a) :
    ffDecode a (h ++ e.body) = .ok ⟨e.code, num s .dl, pay⟩ := by
  have hlen : (h ++ e.body).length = frameBytes (ffFrameCode pm a s) := by rw [List.length_append, hh, he.length]
  have hbody := body_frame he hh
  obtain ⟨hpassed, hdl, hpci, hfilled⟩ := ffDecChecks_of_built (he.code ▸ e.code.isLt) hown (hp ▸ hbody)
  obtain ⟨r, hr, hview⟩ := (yields_ffDecode (frameByte (h ++ e.body)) _).all hpassed
  rw [← hlen, bytesFrom_frameByte] at hr
  obtain ⟨code, rdl, rpay⟩ := r
  obtain rfl : code = e.code := Fin.ext (hview.code.trans (he.code ▸ codeOf_frameBytes e.code))
  obtain rfl : rdl = num s .dl := hview.dl.trans hdl
  have hrest : frameBytes (ffFrameCode pm a s) - (a + ffPciCount s) = pay.length := by omega
  have hpay : rpay = _ := hview.pay
  rw [hpci, hrest, ← ffPci_length, bytesFrom_body_pay hbody] at hpay
  rw [hr, hpay]

/-- A state whose registers hold the operands of an encoder: a length, FF_DL and a code. -/
theorem exists_state_operands {n : Nat} (hn : n < 2 ^ 32) (dl : Word) (c : Dlc) :
    ∃ s : State, n = num s .plen ∧ dl = s.reg .dl ∧ c.val = num s .dlc := by
  refine ⟨((State.reset.setRegNat .plen n).setReg .dl dl).setRegNat .dlc c.val, ?_, by simp, ?_⟩
  · simpa [num] using (Nat.mod_eq_of_lt hn).symm
  · simpa [num] using (Nat.mod_eq_of_lt (show c.val < 4294967296 by omega)).symm

/-- Settles O39: `ff_encode`, read in a state that holds its operands, passes its checks, and so does the decoder on
the frame. -/
theorem firstFrameRoundTrip : Obligations.FirstFrameRoundTrip := by
  intro a c pay dl _ h1 hfilled hcap _
  have hlen : pay.length ≤ 64 := by
    have := dlcBytes_le c
    omega
  obtain ⟨s, hp, rfl, hc⟩ := exists_state_operands (n := pay.length) (by omega) dl c
  have hg : Given 0x20#8 5 := by decide
  have hcode : ffFrameCode 0x20#8 a s = c.val := (if_pos hg).trans hc.symm
  have hfull : a + ffPciCount s + num s .plen = frameBytes c.val := by rwa [← hp, ← dlcBytes_eq]
  have hlong : ¬FitsSingle a c.val (num s .dl) := fun h => absurd ((sfCap_ge a c _).2 h) (not_le.2 hcap)
  have hown : ∀ x ∈ ffOwn false 0x20#8 a s, ¬x.1 := by
    simp only [ffOwn, passed_cons, passed_nil, hcode, and_true]
    exact ⟨by omega, fun h => h.1 hg, fun h => h hfull, fun h => hlong h.2⟩
  obtain ⟨e, hok, he⟩ := (yields_ffEncode hp (optIs_some hg hc) 0#8).all hown
  obtain rfl : e.code = c := Fin.ext (he.code.trans hcode)
  exact ⟨e, hok, rfl, fun _ hh => ffDecode_encoded hp hown he hh⟩

end Sys2Proof.Proofs

/-! Consecutive Frame: what CF_ENC and CF_DEC check, compute and leave alone (45_consecutive_frame.md R190, R191), and
that a Consecutive Frame of a given code decodes to its fragment followed by filler (R189). -/

namespace Sys2Proof.Proofs

open Sys2Proof.Machine Sys2Proof.Claims Sys2Proof.Laws

variable {s : State} {a : Nat} {pay : List Byte} {sn : BitVec 4} {fill : Byte}

/-! ## The commands (R190, R191) -/

/-- Settles O40: the operand checks, then those of R186, then the frame body that R154 emits. -/
theorem cfEnc : Obligations.CfEnc := by
  refine fun any fmt pm s => command_of_yields rfl (commandWord_eq _ _ _ _) ?_
  refine (yields_format fmt).bind fun f hf => (yields_dlcOptional pm s).bind fun dlc? hdlc => ?_
  refine (yields_nibble _).bind fun sn hsn => (yields_length _).bind fun n ⟨hn, _⟩ => ?_
  subst hf hn
  rw [aiBytes_eq]
  refine (yields_cfEncode (payload_length s) hdlc hsn s.fill).last fun e he => yields_ok ?_
  exact leafEncoded_emit (fill_eq s ▸ he)

/-- Settles O41: the operand checks, then those of R187, then the whole remainder of the frame to `PB`, its length, the
sequence number and the code to their registers. -/
theorem cfDec : Obligations.CfDec := by
  refine fun fmt s => command_of_yields rfl (commandWord_eq _ _ _ _) ?_
  refine (yields_frame fmt s).bind fun o ⟨ha, hframe⟩ => ?_
  rw [ha, hframe]
  refine (yields_cfDecode s.fb _).last fun r hr => yields_ok ?_
  have hlen : r.pay.length = num s .flen - (addrBytes fmt + 1) := by rw [hr.pay, length_bytesFrom]
  refine ⟨fun j hj => ?_, ?_, ?_, ?_, presence_endOk _ _ _, Effect.kept ?_, rfl⟩
  · refine (pb_deliver s r.pay j).trans ?_
    rw [if_pos (hlen ▸ hj), hr.pay, getD_bytesFrom _ _ _ _ _ hj]
  · simp [State.deliverPayload, hlen, w32]
  · simp [hr.sn, w32]
  · simp [hr.code, w32]
  · exact ((((Effect.refl s _ _).deliverPayload (by decide) fun _ hk => hlen ▸ hk).setReg (by decide) _).setReg
      (by decide) _).setReg (by decide) _

/-! ## The round trip (R189) -/

/-- What follows the addressing bytes and the PCI byte of an encoder's frame: the payload, then the filler. -/
theorem drop_frame {c : Nat} {pci : List Byte} {e : Encoded} (he : EncodedIs a c pci pay fill e) {h : List Byte}
    (hh : h.length = a) :
    (h ++ e.body).drop (a + pci.length) = pay ++ List.replicate (frameBytes c - (a + pci.length + pay.length)) fill := by
  rw [he.body, ← hh, List.drop_length_add_append, List.append_assoc, List.drop_left]

/-- `cf_decode` after any addressing bytes gives back what `cf_encode` made in valid mode, filler included (R188). -/
theorem cfDecode_encoded {pm : BitVec 8} {e : Encoded} (hp : pay.length = num s .plen) (hsn : sn.toNat = num s .sn)
    (hown : ∀ x ∈ cfOwn false pm a s, ¬x.1) (he : EncodedIs a (cfFrameCode pm a s) (cfPci s) pay fill e)
    {h : List Byte} (hh : h.length = a) :
    cfDecode a (h ++ e.body) =
      .ok ⟨e.code, sn, pay ++ List.replicate (dlcBytes e.code - (a + 1 + pay.length)) fill⟩ := by
  have hlen : (h ++ e.body).length = frameBytes (cfFrameCode pm a s) := by rw [List.length_append, hh, he.length]
  obtain ⟨hpassed, hlo⟩ := cfDecChecks_of_built (he.code ▸ e.code.isLt) (by omega) hown (hp ▸ body_frame he hh)
  obtain ⟨r, hr, hview⟩ := (yields_cfDecode (frameByte (h ++ e.body)) _).all hpassed
  have hdrop : r.pay = (h ++ e.body).drop (a + 1) := by
    rw [hview.pay, ← drop_bytesFrom, ← hlen, bytesFrom_frameByte]
  have hpay : r.pay = pay ++ List.replicate (dlcBytes e.code - (a + 1 + pay.length)) fill := by
    rw [dlcBytes_eq, he.code]
    exact hdrop.trans (drop_frame he hh)
  rw [← hlen, bytesFrom_frameByte] at hr
  obtain ⟨code, rsn, rpay⟩ := r
  obtain rfl : code = e.code := Fin.ext (hview.code.trans (he.code ▸ codeOf_frameBytes e.code))
  obtain rfl : rsn = sn := BitVec.eq_of_toNat_eq (hview.sn.trans (hlo.trans hsn.symm))
  rw [hr, ← hpay]

/-- A state whose registers hold the operands of `cf_encode`: a length, a sequence number and a code. -/
theorem exists_state_sequence {n : Nat} (hn : n < 2 ^ 32) (sn : BitVec 4) (c : Dlc) :
    ∃ s : State, n = num s .plen ∧ sn.toNat = num s .sn ∧ c.val = num s .dlc := by
  obtain ⟨s, hplen, -, hdlc⟩ := exists_state_operands hn 0#32 c
  refine ⟨s.setRegNat .sn sn.toNat, by simpa [num] using hplen, ?_, by simpa [num] using hdlc⟩
  simpa [num] using (Nat.mod_eq_of_lt (show sn.toNat < 4294967296 by omega)).symm

/-- Settles O42: `cf_encode`, read in a state that holds its operands, passes its checks, and so does the decoder on
the frame. -/
theorem consecutiveFrameRoundTrip : Obligations.ConsecutiveFrameRoundTrip := by
  intro a c sn pay fill _ h1 hfits
  have hle := dlcBytes_le c
  obtain ⟨s, hp, hsn, hc⟩ := exists_state_sequence (n := pay.length) (by omega) sn c
  have hg : Given 0x20#8 5 := by decide
  have hcode : cfFrameCode 0x20#8 a s = c.val := (if_pos hg).trans hc.symm
  have hown : ∀ x ∈ cfOwn false 0x20#8 a s, ¬x.1 := by
    simp only [cfOwn, passed_cons, passed_nil, hcode, ← hp, ← dlcBytes_eq, and_true]
    exact ⟨by omega, fun h => h.1 hg, by omega⟩
  obtain ⟨e, hok, he⟩ := (yields_cfEncode hp (optIs_some hg hc) hsn fill).all hown
  obtain rfl : e.code = c := Fin.ext (he.code.trans hcode)
  exact ⟨e, hok, rfl, fun _ hh => cfDecode_encoded hp hsn hown he hh⟩

end Sys2Proof.Proofs

/-! Flow Control and separation time: what FC_ENC, FC_DEC, STMIN_DEC and STMIN_ENC check, compute and leave alone
(46_flow_control.md R210 to R213), that a Flow Control frame of a given code decodes to its parameters (R200), and the
two directions of the separation-time mapping (R208). -/

namespace Sys2Proof.Proofs

open Sys2Proof.Machine Sys2Proof.Claims Sys2Proof.Laws

variable {s : State} {a t : Nat} {c : Dlc} {fill : Byte} {h : List Byte} {f : FlowStatus} {r : Byte}

/-! ## The commands of Flow Control (R210, R211) -/

/-- Settles O43: the operand checks, then those of R196 or R198, then the frame body that R154 emits. -/
theorem fcEnc : Obligations.FcEnc := by
  refine fun any fmt pm s => command_of_yields rfl (commandWord_eq _ _ _ _) ?_
  refine (yields_format fmt).bind fun f hf => (yields_flowOperands pm s).bind fun o ho => ?_
  subst hf
  rw [aiBytes_eq]
  refine (yields_fcEncode (addrBytes_le _) ho.dlc ho.bs ho.st ho.fs (fill_eq s)).last fun e he => yields_ok ?_
  exact leafEncoded_emit (fill_eq s ▸ he)

/-- `x[RP]` of FC_DEC (R211). -/
theorem presenceMask_flowView {b : Nat → Byte} {n : Nat} {r : FlowView} (hr : FlowViewIs b a n r) :
    presenceMask ([.dlc, .fs] ++ presentReg .bs r.bs? ++ presentReg .st r.st?) =
      if lo (b a) = 0 then 0x4E0#32 else 0x420#32 := by
  simp only [presenceMask_append, presenceMask_present _ hr.bs, presenceMask_present _ hr.st]
  split
  all_goals decide

theorem optIs_mono {α : Type} {p : Prop} {P Q : α → Prop} {o : Option α} (ho : OptIs p P o) (hPQ : ∀ v, P v → Q v) :
    OptIs p Q o :=
  ⟨fun hp => (ho.some hp).imp fun v ⟨hv, hP⟩ => ⟨hv, hPQ v hP⟩, ho.none⟩

/-- Settles O44: the operand checks, then those of R199, then the flow status, the code and, for ContinueToSend, the two
parameters to their registers. -/
theorem fcDec : Obligations.FcDec := by
  refine fun fmt s => command_of_yields rfl (commandWord_eq _ _ _ _) ?_
  refine (yields_frame fmt s).bind fun o ⟨ha, hframe⟩ => ?_
  rw [ha, hframe]
  refine (yields_fcDecode s.fb _).last fun r hr => yields_ok ?_
  have hbs := optIs_mono hr.bs fun _ => congrArg BitVec.toNat
  have hst := optIs_mono hr.st fun _ => congrArg BitVec.toNat
  have hrp := presenceMask_flowView hr
  refine ⟨?_, ?_, fun h0 => ⟨?_, ?_, ?_⟩, fun h0 => ⟨?_, ?_, ?_⟩, Effect.regsOnly ?_ (by simp)⟩
  · simp [reg_setRegByte?_ne, hr.fs, w32]
  · simp [reg_setRegByte?_ne, hr.code, w32]
  · simp [reg_setRegByte?_ne, reg_setRegByte? _ _ hbs, h0]
  · simp [reg_setRegByte? _ _ hst, h0]
  · exact (presence_endOk _ _ _).trans (hrp.trans (if_pos h0))
  · simp [reg_setRegByte?_ne, reg_setRegByte? _ _ hbs, h0]
  · simp [reg_setRegByte?_ne, reg_setRegByte? _ _ hst, h0]
  · exact (presence_endOk _ _ _).trans (hrp.trans (if_neg h0))
  · exact (((((Effect.refl s _ _).setReg (by decide) _).setReg (by decide) _).setRegByte? (by decide) _).setRegByte?
      (by decide) _).setReg (by decide) _

/-! ## The round trip of Flow Control (R200) -/

theorem fcFinish_given {pci : List Byte} (hfits : a + pci.length ≤ dlcBytes c) :
    fcFinish a pci (some c) fill = .ok ⟨c, pci ++ padding fill (dlcBytes c - (a + pci.length))⟩ := by
  simp [fcFinish, fcCode, not_lt.2 hfits]

theorem dlcExact_dlcBytes (c : Dlc) : dlcExact (dlcBytes c) = .ok c := by
  obtain ⟨d, hd, hcode, -⟩ := (yields_dlcExact (dlcBytes c)).all (by simp [dlcBytes_eq, frameBytes_mem])
  rw [hd, Fin.ext (hcode.trans (dlcBytes_eq c ▸ codeOf_frameBytes c))]

theorem flowStatusOf_nibbles (f : FlowStatus) : flowStatusOf (lo4 (nibbles 3#4 f.number)) = some f := by
  cases f
  all_goals decide

theorem fcDecode_of_frame {frame : List Byte} (hlen : frame.length = dlcBytes c) (hfits : a + 3 ≤ dlcBytes c)
    (hpci : frameByte frame a = nibbles 3#4 f.number) :
    fcDecode a frame = .ok ⟨c, f, if f = .cts then some (frameByte frame (a + 1)) else none,
      if f = .cts then some (frameByte frame (a + 2)) else none⟩ := by
  have htype : requireType .fc (nibbles 3#4 f.number) = .ok () := by
    cases f
    all_goals decide
  simp only [fcDecode, hlen, dlcExact_dlcBytes, ok_bind, raiseIf_not (not_lt.2 hfits), hpci, htype,
    flowStatusOf_nibbles]
  cases f
  all_goals rfl

/-- A frame made of addressing bytes and three PCI bytes of a flow status decodes to the flow status and, for
ContinueToSend, to the last two bytes. -/
theorem fcDecode_fcFinish (f : FlowStatus) (x y : Byte) (hfits : a + 3 ≤ dlcBytes c) (hh : h.length = a) :
    ∃ e, fcFinish a [nibbles 3#4 f.number, x, y] (some c) fill = .ok e ∧
      fcDecode a (h ++ e.body) = .ok ⟨c, f, if f = .cts then some x else none, if f = .cts then some y else none⟩ := by
  refine ⟨_, fcFinish_given hfits, (fcDecode_of_frame (f := f) ?_ hfits ?_).trans ?_⟩
  · simp only [padding, List.length_append, List.length_cons, List.length_nil, List.length_replicate, hh]
    omega
  · simp [frameByte, ← hh]
  · simp [frameByte, ← hh]

/-- Settles O45: with a code that fits, the encoder emits the three PCI bytes and filler, for ContinueToSend its
parameters, for Wait and Overflow filler in their place. -/
theorem flowControlRoundTrip : Obligations.FlowControlRoundTrip := by
  intro a c fill h _ hfits hh
  refine ⟨fun bs st => fcDecode_fcFinish .cts bs st hfits hh, fun f hf => ?_⟩
  obtain ⟨e, he, hdec⟩ := fcDecode_fcFinish (fill := fill) f fill fill hfits hh
  rw [if_neg hf] at hdec
  refine ⟨e, Eq.trans ?_ he, hdec⟩
  cases f with
  | cts => exact absurd rfl hf
  | wait => rfl
  | ovfl => rfl

/-! ## The separation-time mapping (R205, R206, R208) -/

theorem stminTime_milliseconds (hms : r.toNat ≤ 0x7F) : stminTime r = ⟨10 * r.toNat, false⟩ := if_pos hms

theorem stminTime_tenths (hlow : 0xF1 ≤ r.toNat) (hhigh : r.toNat ≤ 0xF9) : stminTime r = ⟨r.toNat - 0xF0, false⟩ := by
  rw [stminTime, if_neg (by omega), if_pos ⟨hlow, hhigh⟩]

theorem stminTime_reserved (hr : reservedRaw r.toNat = true) : stminTime r = ⟨1270, true⟩ := by
  have hrange : (0x80 ≤ r.toNat ∧ r.toNat ≤ 0xF0) ∨ (0xFA ≤ r.toNat ∧ r.toNat ≤ 0xFF) := of_decide_eq_true hr
  rw [stminTime, if_neg (by omega), if_neg (by omega)]

/-- The raw byte `r` is in one of the two valid ranges, and stands for the time `t` in units of 0.1 ms (R205). -/
def StandsFor (r : Byte) (t : Nat) : Prop :=
  (r.toNat ≤ 0x7F ∧ t = 10 * r.toNat) ∨ (0xF1 ≤ r.toNat ∧ r.toNat ≤ 0xF9 ∧ t = r.toNat - 0xF0)

theorem stminTime_eq_iff : stminTime r = ⟨t, false⟩ ↔ StandsFor r t := by
  unfold stminTime StandsFor
  split_ifs with hms htenths
  · simp only [SeparationTime.mk.injEq, and_true]
    omega
  · simp only [SeparationTime.mk.injEq, and_true]
    omega
  · simp only [SeparationTime.mk.injEq, Bool.true_eq_false, and_false, false_iff]
    omega

theorem stminRaw_eq_ok_iff : stminRaw t = .ok r ↔ StandsFor r t := by
  unfold stminRaw StandsFor
  split_ifs with hms htenths
  · rw [Except.ok.injEq, ← BitVec.toNat_inj, BitVec.toNat_ofNat]
    omega
  · rw [Except.ok.injEq, ← BitVec.toNat_inj, BitVec.toNat_ofNat]
    omega
  · refine iff_of_false nofun ?_
    omega

/-- The raw byte of a time is the one byte that stands for it without the warning. -/
theorem stminRaw_iff_stminTime : stminRaw t = .ok r ↔ stminTime r = ⟨t, false⟩ :=
  stminRaw_eq_ok_iff.trans stminTime_eq_iff.symm

/-- Settles O47: both directions are the one equivalence `stminRaw_iff_stminTime`; a reserved byte stands for 127 ms, as
`0x7F` does. -/
theorem separationTimeRoundTrip : Obligations.SeparationTimeRoundTrip := by
  refine ⟨fun r hr => ?_, fun r hr => ?_, fun t r => stminRaw_iff_stminTime.1, rfl, rfl, rfl, rfl⟩
  · have hwarn := (stminTime_eq r).1.trans hr
    exact ⟨stminRaw_iff_stminTime.2 (by rw [← hwarn]), hwarn⟩
  · have htime := stminTime_reserved hr
    exact ⟨htime, by rw [htime]; exact stminRaw_iff_stminTime.2 rfl⟩

/-! ## The commands of separation time (R212, R213) -/

/-- STMIN_DEC before its end: one check, then the time to its register and an empty `x[RP]`. -/
theorem yields_stminDecResult (s : State) :
    Yields (stminDecResult s) [(0xFF < num s .st, .invalidValue)] (fun u =>
      ∃ r : Byte, r.toNat = num s .st ∧ u = (s.setRegNat .stt (stminTime r).t).setPresence []) :=
  (yields_byte (s.reg .st)).last fun r hr => yields_ok ⟨r, hr, rfl⟩

theorem exec_stminDec_fails (hst : 0xFF < num s .st) : FailsWith .stminDec 0x49000000#32 s .invalidValue := by
  have hfail : stminDecResult s = .error .invalidValue := (yields_stminDecResult s).1 hst
  rw [FailsWith, ← endError_eq]
  exact (execStminDec_eq s).trans (by rw [hfail]; rfl)

theorem exec_stminDec_ok (hst : num s .st ≤ 0xFF) : ∃ r : Byte, r.toNat = num s .st ∧ exec .stminDec s =
    .next (((s.setRegNat .stt (stminTime r).t).setPresence []).endOk (reservedRaw (num s .st))) := by
  obtain ⟨u, hu, r, hr, rfl⟩ := (yields_stminDecResult s).2 (not_lt.2 hst)
  exact ⟨r, hr, (execStminDec_eq s).trans (by rw [hu]; rfl)⟩

/-- Settles O46: each command makes one check; STMIN_DEC then takes the time of its range, with the warning of a
reserved value, and STMIN_ENC the raw byte. -/
theorem separationTimeCommands : Obligations.SeparationTimeCommands := by
  refine fun s => ⟨⟨by decide, exec_stminDec_fails, fun hst => ?_⟩, command_of_yields rfl (by decide) ?_⟩
  · obtain ⟨r, hr, hexec⟩ := exec_stminDec_ok hst
    rw [← hr] at hexec ⊢
    refine ⟨_, hexec, fun hms => ?_, fun hlow hhigh => ?_, fun hres => ?_, ?_, ?_, presence_endOk _ _ _, fun q hq => ?_,
      rfl⟩
    · simp [stminTime_milliseconds hms, w32]
    · simp [stminTime_tenths hlow hhigh, w32]
    · simp [stminTime_reserved hres, w32]
    · cases reservedRaw r.toNat
      all_goals rfl
    · cases reservedRaw r.toNat
      all_goals simp
    · exact (((Effect.refl s [.stt, .rp] nowhere).setReg (by decide) _).setReg (by decide) _).regs q hq
  · refine (yields_stminRaw (num s .stt)).last fun r hr => yields_ok ⟨?_, presence_endOk _ _ _, ?_⟩
    · simp [byte_setWidth hr, apply_ite w32]
    · exact (((Effect.refl s _ _).setReg (by decide) _).setReg (by decide) _).regsOnly rfl

end Sys2Proof.Proofs

/-! Packet construction, and the commands that clear: what the four build commands, PKT_CLEAR and the system commands
check, make and leave alone (47_packet.md R216 to R223, R234; 48_system.md R240 to R242). -/

namespace Sys2Proof.Proofs

open Sys2Proof.Machine Sys2Proof.Claims Sys2Proof.Laws

variable {s : State} {fmt : BitVec 3} {pm : BitVec 8}

/-! ## The build commands (R216, R219) -/

/-- Packet construction after the range checks (R216), with the packet-type encoder's own checks. -/
theorem yields_built {v : Addressing} {type : PacketType} {enc : Nat → Except Err Encoded} {own : List Check} {c : Nat}
    {pci : List Byte} {len : Nat} (hv : AddressingIs fmt pm s v)
    (henc : Yields (enc (addrBytes fmt)) own (EncodedIs (addrBytes fmt) c pci (s.payload len) s.fill)) :
    Yields (pktBuild v type enc s) (validateChecks s.offs fmt pm s ++ own ++ [(frameBytes c < 2, .invalidValue)])
      (fun u => Built s (u.endOk false) fmt pm type c pci len) :=
  (yields_pktBuild hv (fill_eq s ▸ henc)).mono fun _ ⟨hbuilt, _⟩ => hbuilt

/-- The checks of a build command in three parts: the addressing operands, the other operands, the construction. -/
theorem buildChecks_eq (range own : List Check) (c : Nat) : buildChecks fmt pm s range own c =
    (formatCheck fmt :: addressingRange pm s) ++
      (range ++ (validateChecks s.offs fmt pm s ++ own ++ [(frameBytes c < 2, .invalidValue)])) := by
  simp only [buildChecks, List.append_assoc]

/-- Settles O48: the operand checks, then construction from the Single Frame of R157. -/
theorem pktSf : Obligations.PktSf := by
  refine fun any fmt pm s => command_of_yields rfl (commandWord_eq _ _ _ _) ?_
  rw [buildChecks_eq]
  refine (yields_addressing fmt pm s).bind fun v hv => (yields_dlcOptional pm s).bind fun dlc? hdlc => ?_
  refine (yields_length _).bind fun n ⟨hn, _⟩ => ?_
  subst hn
  exact yields_built hv (yields_sfEncode (payload_length s) hdlc s.fill)

/-- Settles O49: the operand checks, then construction from the First Frame of R173. -/
theorem pktFf : Obligations.PktFf := by
  refine fun any fmt pm s => command_of_yields rfl (commandWord_eq _ _ _ _) ?_
  rw [buildChecks_eq]
  refine (yields_addressing fmt pm s).bind fun v hv => (yields_dlcOptional pm s).bind fun dlc? hdlc => ?_
  refine (yields_length _).bind fun n ⟨hn, _⟩ => ?_
  subst hn
  exact yields_built hv (yields_ffEncode (payload_length s) hdlc s.fill)

/-- Settles O50: the operand checks, the sequence number's among them, then construction from the Consecutive Frame of
R186. -/
theorem pktCf : Obligations.PktCf := by
  refine fun any fmt pm s => command_of_yields rfl (commandWord_eq _ _ _ _) ?_
  rw [buildChecks_eq]
  refine (yields_addressing fmt pm s).bind fun v hv => (yields_dlcOptional pm s).bind fun dlc? hdlc => ?_
  refine (yields_nibble _).bind fun sn hsn => (yields_length _).bind fun n ⟨hn, _⟩ => ?_
  subst hn
  exact yields_built hv (yields_cfEncode (payload_length s) hdlc hsn s.fill)

/-- Settles O51: the operand checks, then construction from the Flow Control frame of R196 or R198, which has no
payload. -/
theorem pktFc : Obligations.PktFc := by
  refine fun any fmt pm s => command_of_yields rfl (commandWord_eq _ _ _ _) ?_
  rw [buildChecks_eq]
  refine (yields_addressing fmt pm s).bind fun v hv => (yields_flowOperands pm s).bind fun o ho => ?_
  exact yields_built (len := 0) hv (yields_fcEncode (addrBytes_le fmt) ho.dlc ho.bs ho.st ho.fs (fill_eq s))

/-! ## The commands without checks (R234, R240 to R242) -/

/-- Settles O55: none of the four has a check, so each ends in the state its effect makes, with `STATUS` 0. -/
theorem clearingAndSystemCommands : Obligations.ClearingAndSystemCommands := by
  refine fun s => ⟨⟨rfl, _, rfl, ?_⟩, ⟨rfl, _, rfl, ?_⟩, ⟨rfl, _, rfl, ?_⟩, ⟨rfl, _, rfl, ?_⟩⟩
  · simp [State.endOk]
  · simp [State.endOk]
  · simp [State.endOk]
  · refine ⟨fun r => ?_, rfl, ?_, rfl, rfl, rfl, ?_, fun _ => rfl, fun _ => rfl, rfl⟩
    · show (Vector.replicate 19 0#32)[r.index] = 0#32
      simp
    · exact stickyWarn_false 0#32
    · show packetStatus Packet.reset = 0#32
      decide

end Sys2Proof.Proofs

/-! What of `PKT` a command can change (47_packet.md R226, R228, R230). -/

namespace Sys2Proof.Proofs

open Sys2Proof.Machine Sys2Proof.Claims Sys2Proof.Laws

/-- Settles O13: of the ways a command leaves `PKT`, all but one keep it or belong to a command that replaces or clears
it; the other writes PKT_SETAI's addressing bytes alone. -/
theorem packetChangesOnlyByPacketCommands : Obligations.PacketChangesOnlyByPacketCommands := by
  intro i s t h
  rcases exec_next h with ⟨u, hu, rfl⟩ | ⟨e, _, rfl⟩
  · have hepoch := (commandResult_offs_epoch hu).2
    have hstep := commandResult_packet hu
    simp only [State.endOk_pkt, State.endOk_packetByte]
    generalize hp : u.pkt = p at hstep ⊢
    cases hstep with
    | same => exact .inl rfl
    | softReset hi => subst hi; exact .inr (.inl rfl)
    | clear hi => subst hi; exact .inr (.inl rfl)
    | build _ _ _ _ _ _ _ _ _ _ hreplaces => exact .inr (.inl hreplaces)
    | load _ _ _ _ _ _ _ _ _ _ hreplaces => exact .inr (.inl hreplaces)
    | setai fmt pm v r d hi hvalid hrecord hv _ _ hd =>
      refine .inr (.inr ⟨fmt, pm, hi, hvalid, hrecord, hvalid, hrecord, rfl, rfl, rfl, rfl, rfl, fun k hk => ?_⟩)
      have hlen : d.length = addrBytes fmt := hv.fmt ▸ ((yields_aiEncData _ _ _).passed hd).1.1
      rw [packetByte_write s u d hepoch (by rw [hp]), if_neg (by omega)]
  · exact .inl rfl

end Sys2Proof.Proofs

/-! The record and the change of addressing: what PKT_LOAD and PKT_SETAI check, make and leave alone (47_packet.md R225,
R228). -/

namespace Sys2Proof.Proofs

open Sys2Proof.Machine Sys2Proof.Claims Sys2Proof.Laws

variable {s : State}

/-- The addressing fields of `PKT` do not depend on the others. -/
theorem addressingSet_setOthers {p q : Packet} {fmt : BitVec 3} {aty id : Nat} {ta sa ae : Byte}
    (h : AddressingSet p q fmt aty id ta sa ae) (valid isRecord : Bool) (ptype : PacketType) (dlc : Dlc)
    (len : BitVec 7) (data : Memory) (dir : Direction) (ts : BitVec 64) :
    AddressingSet p { q with valid, isRecord, ptype, dlc, len, data, dir, ts } fmt aty id ta sa ae :=
  ⟨h.format, h.type, h.identifier, h.hasTa, h.target, h.hasSa, h.source, h.hasAe, h.extension⟩

/-- Settles O53: the packet's own checks, the operand checks, the guard and those of R140; then the normalised
addressing and, where the format has one, the addressing byte. -/
theorem pktSetai : Obligations.PktSetai := by
  refine fun fmt pm s => command_of_yields rfl (commandWord_eq _ _ _ _) ?_
  rw [List.append_assoc, List.append_assoc]
  refine (yields_raiseIf .illegal Iff.rfl).bind fun _ hvalid => ?_
  refine (yields_raiseIf .illegal Iff.rfl).bind fun _ hrecord => ?_
  refine (yields_addressing fmt pm s).bind fun v hv => ?_
  obtain rfl := hv.fmt
  refine (yields_raiseIf .ambiguity (by rw [aiBytes_eq, aiBytes_eq])).bind fun _ _ => ?_
  refine (yields_aiValidate s.offs hv).last fun r hr => ?_
  obtain ⟨d, hd, hlen, hbyte⟩ := aiEncData_normalised hv hr
  rw [hd, ok_bind]
  refine yields_ok ?_
  have haddr := addressingSet_of (p := s.pkt) (aty := v.aty) hr.id (optIs_byte hr.ta) (optIs_byte hr.sa)
    (optIs_byte hr.ae)
  rw [hv.aty] at haddr
  have hdata := packetByte_write s { s with pkt :=
    { s.pkt.setAddressing v.fmt v.aty r.id r.ta? r.sa? r.ae? with data := s.pkt.data.writeBytes 0 d } } d rfl rfl
  refine ⟨addressingSet_setOthers haddr _ _ _ _ _ _ _ _, fun h1 => (hdata 0).trans ?_, fun k hk => (hdata k).trans ?_,
    ?_, ?_, rfl, rfl, rfl, rfl, rfl, ?_, presence_endOk _ _ _, Effect.kept ?_⟩
  · rw [hbyte h1]
    rfl
  · exact if_neg (by omega)
  · exact Bool.eq_true_of_not_eq_false hvalid
  · exact Bool.eq_false_of_not_eq_true hrecord
  · simp [hr.id]
  · exact (((Effect.refl s _ _).setPkt _).setReg (by decide) _).setReg (by decide) _

/-! ## The record (R225) -/

theorem packetType_number_inj {t t' : PacketType} (h : t.number = t'.number) : t = t' := by
  cases t
  all_goals
    cases t'
    all_goals simp_all [PacketType.number]

/-- The packet type of an observed frame is that of the high nibble of its first PCI byte. -/
theorem yields_observedType (b : Byte) :
    Yields (observedType b) [(3 < hi b, .invalidValue)] (fun type => hi b = type.number) := by
  unfold observedType
  rw [← hi4_toNat]
  cases htype : packetTypeOf (hi4 b) with
  | none => exact yields_error ((packetTypeOf_isSome _).1 htype)
  | some type =>
    exact Yields.skip _ (mt (packetTypeOf_isSome _).2 (by simp [htype])) (yields_ok ((packetTypeOf_eq _ _).1 htype))

/-- An addressing type that the identifier carries and the context does not have, by number. -/
theorem addrTypeDiffers_iff {given : Prop} {n : Nat} {found? : Option AddrType}
    (h : OptIs given (fun a => a.number = n) found?) (context : AddrType) :
    addrTypeDiffers found? context = true ↔ given ∧ n ≠ context.number := by
  by_cases hg : given
  · obtain ⟨a, rfl, rfl⟩ := h.some hg
    simp only [addrTypeDiffers, decide_eq_true_eq, hg, true_and]
    exact not_congr ⟨congrArg _, AddrType.number_inj⟩
  · simp [h.none hg, addrTypeDiffers, hg]

/-- `PKT`'s addressing fields from what `ai_decode` recovers (R225). -/
theorem addressingSet_recovered {f : Format} {id : Word} {first : Byte} {r : AiFields}
    (hr : RecoveredIs s.offs f.number id [first] r) (aty : AddrType) :
    AddressingSet s.pkt (s.pkt.setAddressing f aty id r.ta? r.sa? r.ae?) f.number aty.number id.toNat
      (if f.number.toNat = 2 then first else byte (id.toNat / 2 ^ 8 % 2 ^ 8)) (byte (id.toNat % 2 ^ 8)) first := by
  refine addressingSet_of (by simp [w32]) (optIs_mono hr.ta fun b hb => ?_) (optIs_byte hr.sa) hr.ae
  by_cases h2 : f.number.toNat = 2
  · rw [if_pos h2] at hb ⊢
    exact BitVec.eq_of_toNat_eq hb
  · rw [if_neg h2] at hb ⊢
    exact byte_eq hb

/-- Settles O52: seven operand checks, those of R135, the context's addressing type, then the strict decoder of the type
that the frame itself names; then the record. -/
theorem pktLoad : Obligations.PktLoad := by
  refine fun fmt s type htype => command_of_yields rfl (commandWord_eq _ _ _ _) ?_
  rw [List.append_assoc, List.append_assoc]
  refine (yields_format fmt).bind fun f hf => (yields_id _).bind fun id ⟨hid, _⟩ => ?_
  refine (yields_addrType _).bind fun aty haty => (yields_length _).bind fun n ⟨hn, hn64⟩ => ?_
  subst hf hid hn
  refine (yields_direction _).bind fun dir hdir => (yields_dlcExact _).bind fun c ⟨hc, hlen⟩ => ?_
  refine (yields_raiseIf .invalidValue Iff.rfl).bind fun _ _ => ?_
  refine (yields_aiDecode_frame s f (s.reg .id) _).bind fun r hr => ?_
  refine (yields_raiseIf .inconsistent ((addrTypeDiffers_iff hr.aty aty).trans (by rw [haty]; rfl))).bind fun _ _ => ?_
  rw [aiBytes_eq]
  refine (yields_observedType _).bind fun t ht => ?_
  obtain rfl : t = type := packetType_number_inj (by have := packetType_number_lt t; omega)
  refine (yields_viewFrame t s.fb (addrBytes_le _) (num s .flen)).last fun _ _ => yields_ok ?_
  have haddr := addressingSet_recovered hr aty
  rw [haty] at haddr
  have hbytes : dlcBytes c = num s .flen := (dlcBytes_eq c).trans hlen
  refine ⟨rfl, rfl, addressingSet_setOthers haddr _ _ _ _ _ _ _ _, rfl, hc, ?_, fun k => ?_, hdir, ?_, ?_,
    presence_endOk _ _ _, Effect.kept ?_⟩
  · show (BitVec.ofNat 7 (dlcBytes c)).toNat = _
    rw [hbytes, BitVec.toNat_ofNat]
    exact Nat.mod_eq_of_lt (Nat.lt_of_le_of_lt hn64 (by decide))
  · refine Eq.trans (packetByte_write s _ (s.frame (num s .flen)) ?_ ?_ k) ?_
    · rfl
    · rfl
    rw [length_frame]
    split
    · exact getD_frame s ‹_›
    · rfl
  · show (s.reg .tsh ++ s.reg .tsl).toNat = _
    rw [BitVec.toNat_append, shift_or _ (s.reg .tsl).isLt]
    rfl
  · simp [w32]
  · exact (((Effect.refl s _ _).setPkt _).setReg (by decide) _).setReg (by decide) _

end Sys2Proof.Proofs

/-! The view: what PKT_VIEW checks, delivers and leaves alone (47_packet.md R232). -/

namespace Sys2Proof.Proofs

open Sys2Proof.Machine Sys2Proof.Claims Sys2Proof.Laws

variable {s u : State} {v : PacketView} {type : PacketType} {b : Nat → Byte} {a n : Nat} {written : List Reg}
  {stored : Nat → Prop}

/-! ## Views that are present and views that are not -/

/-- The addresses of `PKT` are present by their flags (10_state.md R40). -/
theorem optIs_flag (flag : Bool) (x : Byte) : OptIs (flag = true) (fun b => b = x) (if flag then some x else none) := by
  cases flag with
  | false => exact optIs_none Bool.false_ne_true
  | true => exact optIs_some rfl rfl

/-- A register that takes a result which may be absent. -/
theorem optIs_getD_map_ite {α : Type} {p : Prop} [Decidable p] {P : α → Prop} {o : Option α} {f : α → Word}
    {w old : Word} (h : OptIs p P o) (hf : ∀ x, P x → f x = w) : (o.map f).getD old = if p then w else old := by
  by_cases hp : p
  · rw [if_pos hp, optIs_getD_map h hp hf]
  · rw [if_neg hp, h.none hp]
    rfl

/-- The packed summary in `x[RES]`, each field below the next. -/
theorem viewResult_eq (p : Packet) : p.viewResult = w32 (p.ptype.number + p.fmt.number.toNat * 2 ^ 4 +
    (if p.isRecord then 2 ^ 8 else 0) + p.dir.number * 2 ^ 9) := by
  have hptype := packetType_number_lt p.ptype
  have hfmt := p.fmt.number.isLt
  have hrecord := p.isRecord.toNat_lt
  simp only [Packet.viewResult, w32, bitAt_eq, ← BitVec.ofNat_toNat]
  rw [ofNat_or_shift (by omega), ofNat_or_shift (by omega), ofNat_or_shift (by omega)]
  cases p.isRecord
  all_goals rfl

/-- The bits of `x[RP]` for the views of a packet type; Flow Control has two more when its status is ContinueToSend. -/
def viewBits : PacketType → Nat → Nat
  | .sf, _ => 0x900
  | .ff, _ => 0x900
  | .cf, _ => 0xA00
  | .fc, status => if status = 0 then 0x4C0 else 0x400

/-- `x[RP]` after PKT_VIEW: the registers every view writes, the addresses present, and those of the packet type. -/
theorem presenceMask_view (p : Packet) (h : ViewIs type b a n v) : presenceMask (viewPresence p v) =
    w32 (0x31 + (if p.tap then 0x02 else 0) + (if p.sap then 0x04 else 0) + (if p.aep then 0x08 else 0) +
      viewBits type (lo (b a))) := by
  simp only [viewPresence, presenceMask_append, presenceMask_present _ (optIs_flag p.tap p.ta), Packet.ta?, Packet.sa?,
    Packet.ae?, presenceMask_present _ (optIs_flag p.sap p.sa), presenceMask_present _ (optIs_flag p.aep p.ae),
    presenceMask_present _ h.dl, presenceMask_present _ h.sn, presenceMask_present _ h.fs, presenceMask_present _ h.bs,
    presenceMask_present _ h.st, presenceMask_present _ h.pay]
  generalize p.tap = tap, p.sap = sap, p.aep = aep, lo (b a) = status
  by_cases h0 : status = 0
  all_goals
    cases type
    all_goals
      simp only [h0, viewBits]
      revert tap sap aep
      decide

/-! ## What a view leaves alone -/

theorem effect_deliverPayload? (h : Effect s u written stored) (hr : Reg.plen ∈ written) {pay? : Option (List Byte)}
    (hs : ∀ pay, pay? = some pay → ∀ k, pbSpan pay.length k → stored k) :
    Effect s (u.deliverPayload? pay?) written stored := by
  cases pay? with
  | none => exact h
  | some pay => exact h.deliverPayload hr (hs pay rfl)

theorem effect_deliverAddressing (h : Effect s u (mayWrite .pktView) stored) (p : Packet) :
    Effect s (u.deliverAddressing p) (mayWrite .pktView) stored :=
  (((((h.setReg (by decide) _).setReg (by decide) _).setReg (by decide) _).setRegByte? (by decide) _).setRegByte?
    (by decide) _).setRegByte? (by decide) _

theorem effect_deliverRecord (h : Effect s u (mayWrite .pktView) stored) (p : Packet) :
    Effect s (u.deliverRecord p) (mayWrite .pktView) stored :=
  ((h.setReg (by decide) _).setReg (by decide) _).setReg (by decide) _

theorem effect_deliverView (h : Effect s u (mayWrite .pktView) stored)
    (hs : ∀ pay, v.pay? = some pay → ∀ k, pbSpan pay.length k → stored k) :
    Effect s (u.deliverView v) (mayWrite .pktView) stored :=
  (((((effect_deliverPayload? h (by decide) hs).setRegNat? (by decide) _).setRegNat? (by decide) _).setRegNat?
    (by decide) _).setRegByte? (by decide) _).setRegByte? (by decide) _

/-- PKT_VIEW stores the frame in `FB` and the payload view in `PB`. -/
theorem effect_viewed (s : State) (h : ViewIs type b a n v) :
    Effect s (viewed s v) (mayWrite .pktView)
      (fun k => fbSpan 0 s.pkt.len.toNat k ∨ pbSpan (viewBytes type b a n) k) := by
  have hpay : ∀ pay, v.pay? = some pay → ∀ k, pbSpan pay.length k → pbSpan (viewBytes type b a n) k := by
    intro pay hp k hk
    obtain ⟨x, hx, rfl⟩ := h.pay.some (h.pay.isSome_iff.1 (by rw [hp]; rfl))
    obtain rfl := Option.some.inj (hp.symm.trans hx)
    rwa [length_bytesFrom] at hk
  refine ((effect_deliverView (effect_deliverRecord (((effect_deliverAddressing (Effect.refl s _ _)
    s.pkt).storeBytes fun k hlow hhigh => .inl ⟨hlow, ?_⟩).setReg (by decide) _) _)
    fun pay hp k hk => .inr (hpay pay hp k hk)).setReg (by decide) _).setReg (by decide) _
  rwa [State.packetFrame, length_bytesFrom] at hhigh

/-- PKT_VIEW before its end: the check of `PKT.VALID`, those of the strict decoder, then the view. -/
theorem yields_pktViewResult (s : State) :
    Yields (pktViewResult s) ((s.pkt.valid = false, .illegal) ::
        decChecks s.pkt.ptype s.packetByte (addrBytes s.pkt.fmt.number) s.pkt.len.toNat)
      (fun u => ∃ v, ViewIs s.pkt.ptype s.packetByte (addrBytes s.pkt.fmt.number) s.pkt.len.toNat v ∧
        u = viewed s v) := by
  refine (yields_raiseIf .illegal Iff.rfl).bind fun _ _ => ?_
  rw [State.packetFrame, aiBytes_eq]
  exact (yields_viewFrame _ _ (addrBytes_le _) _).last fun v hv => yields_ok ⟨v, hv, rfl⟩

/-- The two halves of the timestamp. -/
theorem lowWord_eq (ts : BitVec 64) : ts.extractLsb' 0 32 = w32 (ts.toNat % 2 ^ 32) :=
  BitVec.eq_of_toNat_eq (by simp [w32])
theorem highWord_eq (ts : BitVec 64) : ts.extractLsb' 32 32 = w32 (ts.toNat / 2 ^ 32) :=
  BitVec.eq_of_toNat_eq (by simp [w32, BitVec.extractLsb'_toNat, Nat.shiftRight_eq_div_pow])

/-- An address of `PKT` goes to its register when its flag is set. -/
theorem address_viewed (flag : Bool) (x : Byte) (old : Word) :
    ((if flag then some x else none).map (BitVec.setWidth 32)).getD old = if flag then w32 x.toNat else old :=
  optIs_getD_map_ite (optIs_flag flag x) fun _ hx => byte_setWidth (hx ▸ rfl)

/-- The announced length goes to `x[DL]` for the two packet types that have one. -/
theorem length_viewed (h : ViewIs type b a n v) (old : Word) : (v.dl?.map w32).getD old =
    if type = .sf then w32 (sfDecLength b a n) else if type = .ff then w32 (ffDecLength b a) else old := by
  rw [optIs_getD_map_ite h.dl fun _ => congrArg w32]
  cases type
  all_goals rfl

/-- The payload goes to `PB` and its length to `x[PLEN]`, but for Flow Control. -/
theorem payload_viewed_all (h : ViewIs type b a n v) (s : State) :
    (∀ j, j < viewBytes type b a n → (viewed s v).pb j = b (viewStart type b a n + j)) ∧
      (viewed s v).reg .plen = if type = .fc then s.reg .plen else w32 (viewBytes type b a n) := by
  by_cases hfc : type = .fc
  · subst hfc
    refine ⟨fun j hj => absurd hj (Nat.not_lt_zero j), ?_⟩
    rw [(viewRegisters_viewed s v).plen, h.pay.none (by simp)]
    rfl
  · obtain ⟨hplen, hpb⟩ := payload_viewed h hfc s
    exact ⟨hpb, hplen.trans (if_neg hfc).symm⟩

theorem pkt_viewed (s : State) (v : PacketView) : (viewed s v).pkt = s.pkt := by
  simp [viewed, State.deliverAddressing, State.deliverRecord, State.deliverView]

/-- Settles O54: the check of `PKT.VALID`, those of the strict decoder, then each view to its register or buffer. -/
theorem pktView : Obligations.PktView := by
  rintro s a n type rfl rfl rfl
  refine command_of_yields rfl rfl ((yields_pktViewResult s).mono ?_)
  rintro _ ⟨v, hv, rfl⟩
  have hr := viewRegisters_viewed s v
  obtain ⟨hpb, hplen⟩ := payload_viewed_all hv s
  refine ⟨hr.id, hr.aty, hr.dlc, hr.ta.trans (address_viewed _ _ _), hr.sa.trans (address_viewed _ _ _),
    hr.ae.trans (address_viewed _ _ _), fun k hk => fb_viewed s v hk (legal_le _ hv.legal), hr.flen, hr.dir,
    hr.tsl.trans (lowWord_eq _), hr.tsh.trans (highWord_eq _), hpb, hplen, hr.dl.trans (length_viewed hv _),
    hr.sn.trans (optIs_getD_map_ite hv.sn fun _ => congrArg w32),
    hr.fs.trans (optIs_getD_map_ite hv.fs fun _ => congrArg w32),
    hr.bs.trans (optIs_getD_map_ite hv.bs fun _ hx => byte_setWidth (hx ▸ rfl)),
    hr.st.trans (optIs_getD_map_ite hv.st fun _ hx => byte_setWidth (hx ▸ rfl)),
    hr.res.trans (viewResult_eq s.pkt), (hr.rp.trans (presenceMask_view s.pkt hv)).trans ?_, pkt_viewed s v,
    (effect_viewed s hv).kept⟩
  cases s.pkt.ptype
  all_goals rfl

end Sys2Proof.Proofs

/-! How a command ends, by the list of its checks (60_exceptions.md R256, R257). -/

namespace Sys2Proof.Proofs

open Sys2Proof.Machine Sys2Proof.Claims Sys2Proof.Laws

variable {s t : State} {i : Instr} {w : Word} {good : State → Prop}

/-- Of a list of checks one fails in its first part, or that part is passed and the rest decides. -/
theorem firstFailing_append {fails : Err → Prop} {p : Prop} {cs ds : List Check} (h : FirstFailing fails p (cs ++ ds)) :
    (∃ c ∈ cs, c.1 ∧ fails c.2) ∨ ((∀ c ∈ cs, ¬c.1) ∧ FirstFailing fails p ds) := by
  induction cs with
  | nil => exact .inr ⟨nofun, h⟩
  | cons c cs ih =>
    obtain ⟨hfail, hrest⟩ := h
    by_cases hc : c.1
    · exact .inl ⟨c, List.mem_cons_self, hc, hfail hc⟩
    · rcases ih (hrest hc) with ⟨d, hd, hd'⟩ | ⟨hcs, hds⟩
      · exact .inl ⟨d, List.mem_cons_of_mem _ hd, hd'⟩
      · exact .inr ⟨List.forall_mem_cons.2 ⟨hc, hcs⟩, hds⟩

theorem firstFailing_ends {fails : Err → Prop} {p : Prop} {cs : List Check} (h : FirstFailing fails p cs) :
    (∃ c ∈ cs, c.1 ∧ fails c.2) ∨ ((∀ c ∈ cs, ¬c.1) ∧ p) :=
  firstFailing_append (ds := []) ((List.append_nil cs).symm ▸ h)

theorem failsWith_err {e : Err} (h : FailsWith i w s e) (ht : exec i s = .next t) : t.err = e.code := by
  rw [FailsWith, ← endError_eq] at h
  obtain rfl := Host.Outcome.next.inj (ht.symm.trans h)
  exact State.endError_err s e w

/-- The two ends of a command: one of its checks fails and gives the code, or all are passed. -/
theorem command_ends {cs : List Check} (h : Command i w s cs good) (ht : exec i s = .next t) :
    (∃ c ∈ cs, c.1 ∧ t.err = c.2.code) ∨ ((∀ c ∈ cs, ¬c.1) ∧ good t) := by
  rcases firstFailing_ends h.2 with ⟨c, hc, hfail, he⟩ | ⟨hcs, t', ht', hgood⟩
  · exact .inl ⟨c, hc, hfail, failsWith_err he ht⟩
  · obtain rfl := Host.Outcome.next.inj (ht.symm.trans ht')
    exact .inr ⟨hcs, hgood⟩

theorem code_ne_zero (e : Err) : e.code ≠ 0 := by
  cases e
  all_goals decide

/-- A command that ends with code 0 has passed its checks. -/
theorem command_passed {cs : List Check} (h : Command i w s cs good) (ht : exec i s = .next t) (herr : t.err = 0) :
    (∀ c ∈ cs, ¬c.1) ∧ good t := by
  rcases command_ends h ht with ⟨c, _, _, he⟩ | hpassed
  · exact absurd (he.symm.trans herr) (code_ne_zero c.2)
  · exact hpassed

/-- A command whose checks are all passed answers a next state as its statement says. -/
theorem command_all {cs : List Check} (h : Command i w s cs good) (hcs : ∀ c ∈ cs, ¬c.1) :
    ∃ t, exec i s = .next t ∧ good t := by
  rcases firstFailing_ends h.2 with ⟨c, hc, hfail, _⟩ | ⟨_, hgood⟩
  · exact absurd hfail (hcs c hc)
  · exact hgood

theorem kept_err {written : List Reg} {stored : Nat → Prop} (h : Kept s t written stored) : t.err = 0 := by
  rw [State.err, h.status]
  rfl

end Sys2Proof.Proofs

/-! A build command leaves the frame of the leaf commands it stands for: AI_VALIDATE, AI_ENCDATA and the packet type's
encoder (47_packet.md R217). -/

namespace Sys2Proof.Proofs

open Sys2Proof.Machine Sys2Proof.Claims Sys2Proof.Laws

variable {s v : State} {fmt : BitVec 3} {pm : BitVec 8}

/-! ## Presence masks -/

/-- A mask keeps the presence bits it has. -/
theorem given_mask {m : BitVec 8} {n : Nat} (h : m.getLsbD n = true) : Given (pm &&& m) n = Given pm n := by
  simp [Given, BitVec.getLsbD_and, h]

/-- AI_VALIDATE takes the addressing bits of the mask, and reads no others. -/
theorem addressingRange_mask : addressingRange (pm &&& 0x0F#8) s = addressingRange pm s := by
  simp (disch := decide) only [addressingRange, given_mask]
theorem validateChecks_mask (o : Offsets) : validateChecks o fmt (pm &&& 0x0F#8) s = validateChecks o fmt pm s := by
  simp (disch := decide) only [validateChecks, resolveChecks, given_mask]
theorem normId_mask (o : Offsets) : normId o fmt (pm &&& 0x0F#8) s = normId o fmt pm s := by
  simp (disch := decide) only [normId, given_mask]
theorem normTa_mask : normTa fmt (pm &&& 0x0F#8) s = normTa fmt pm s := by
  simp (disch := decide) only [normTa, given_mask]

/-! ## AI_VALIDATE and AI_ENCDATA (R217) -/

/-- The presence mask of AI_ENCDATA with the normalised addresses: the one address that the data byte holds. -/
def encdataMask (fmt : BitVec 3) : BitVec 8 :=
  if fmt.toNat = 2 then 0x02#8 else if hasExtension fmt then 0x08#8 else 0#8

theorem given_encdataMask : ∀ fmt : BitVec 3,
    (Given (encdataMask fmt) 1 ↔ fmt.toNat = 2) ∧ (Given (encdataMask fmt) 3 ↔ hasExtension fmt = true) := by
  decide

theorem extension_of_addrBytes : ∀ fmt : BitVec 3, ¬4 < fmt.toNat → addrBytes fmt = 1 → fmt.toNat ≠ 2 →
    hasExtension fmt = true := by
  decide

theorem normTa_unstructured (h : fmt.toNat = 2) : normTa fmt pm s = num s .ta :=
  if_neg fun hs => by simp [structured, h] at hs

/-- The address that the data byte of a validated packet holds is a byte. -/
theorem addressOperand_lt (hrange : ∀ c ∈ formatCheck fmt :: addressingRange pm s, ¬c.1)
    (hvalid : ∀ c ∈ validateChecks s.offs fmt pm s, ¬c.1) :
    (fmt.toNat = 2 → num s .ta < 256) ∧ (hasExtension fmt = true → num s .ae < 256) := by
  obtain ⟨v, _, hv⟩ := (yields_addressing fmt pm s).all hrange
  obtain ⟨r, _, hr⟩ := (yields_aiValidate s.offs hv).all hvalid
  refine ⟨fun h2 => ?_, fun he => ?_⟩
  · obtain ⟨b, _, hb⟩ := hr.ta.some (by simp [hasTarget, h2])
    exact normTa_unstructured h2 ▸ hb ▸ b.isLt
  · obtain ⟨b, _, hb⟩ := hr.ae.some he
    exact hb ▸ b.isLt

/-- `v` holds all that a leaf encoder reads as `s` does. -/
structure SameOperands (s v : State) : Prop where
  num  : ∀ {r}, r ∉ [Reg.id, .ta, .sa, .res, .rp] → num v r = num s r
  fill : filler v = filler s
  pay  : ∀ k, v.pb k = s.pb k

/-- When the addressing checks are passed, AI_VALIDATE and AI_ENCDATA end `ok` with the normalised identifier and the
addressing byte, and leave the other operands alone. -/
theorem addressing_leaves (hrange : ∀ c ∈ formatCheck fmt :: addressingRange pm s, ¬c.1)
    (hvalid : ∀ c ∈ validateChecks s.offs fmt pm s, ¬c.1) :
    ∃ u v, exec (.aiValidate fmt (pm &&& 0x0F#8)) s = .next u ∧ u.err = 0 ∧
      exec (.aiEncdata fmt (encdataMask fmt)) u = .next v ∧ v.err = 0 ∧ u.reg .id = w32 (normId s.offs fmt pm s) ∧
      (addrBytes fmt = 1 → v.fb 0 = addressByte fmt s) ∧ SameOperands s v := by
  have hfmt : ¬4 < fmt.toNat := hrange _ List.mem_cons_self
  obtain ⟨hta256, hae256⟩ := addressOperand_lt hrange hvalid
  obtain ⟨hmask1, hmask3⟩ := given_encdataMask fmt
  obtain ⟨u, hu, hid, hta, _, hae, _, ⟨hkept, _⟩⟩ := command_all (AiCommands.aiValidate fmt (pm &&& 0x0F#8) s)
    (by rw [addressingRange_mask, validateChecks_mask]; exact List.forall_mem_append.2 ⟨hrange, hvalid⟩)
  have hnumTa : fmt.toNat = 2 → num u .ta = num s .ta := fun h2 => by
    rw [num, hta, if_pos (by simp [hasTarget, h2]), normTa_unstructured h2, w32_num]
    rfl
  have hnumAe : num u .ae = num s .ae := congrArg BitVec.toNat hae
  obtain ⟨v, hv, htarget, hext, _, _, hkept', _⟩ := command_all (addressingByteCommands fmt (encdataMask fmt) u).2 (by
    simp only [passed_cons, passed_nil, and_true, hmask1, hmask3, hnumAe, not_and, not_or, not_not]
    exact ⟨hfmt, fun h2 => by have := hta256 h2; have := hnumTa h2; omega, fun he => by have := hae256 he; omega,
      fun h2 => h2, fun he => he⟩)
  refine ⟨u, v, hu, kept_err hkept, hv, kept_err hkept', normId_mask (pm := pm) s.offs ▸ hid, fun h1 => ?_, ?_⟩
  · unfold addressByte
    split
    · exact hnumTa ‹_› ▸ htarget ‹_›
    · exact hnumAe ▸ hext (extension_of_addrBytes fmt hfmt h1 ‹_›)
  · have hwrites : [Reg.id, .ta, .sa, .rp] ⊆ [.id, .ta, .sa, .res, .rp] := by decide
    have hwrites' : [Reg.res, .rp] ⊆ [.id, .ta, .sa, .res, .rp] := by decide
    refine ⟨fun {r} hr => ?_, ?_, fun k => ?_⟩
    · exact congrArg BitVec.toNat ((hkept'.regs r (mt (@hwrites' r) hr)).trans (hkept.regs r (mt (@hwrites r) hr)))
    · rw [filler, filler, hkept'.cfg, hkept.cfg]
    · refine (hkept'.bytes _ fun hk => ?_).trans (hkept.bytes _ id)
      have := addrBytes_le fmt
      obtain ⟨_, hk⟩ := hk
      simp only [pbBase] at hk
      omega

/-! ## The leaf encoder on the same operands -/

/-- The bytes of a body are those of the PCI bytes, the payload and the filler, so two such bodies agree. -/
theorem body_unique {b b' pay pay' : Nat → Byte} {start n len : Nat} {pci : List Byte} {fill : Byte}
    (h : Body b start n pci pay len fill) (h' : Body b' start n pci pay' len fill) (hpay : ∀ j, pay' j = pay j)
    {k : Nat} (hstart : start ≤ k) (hn : k < n) : b k = b' k := by
  by_cases hpci : k < start + pci.length
  · obtain ⟨j, rfl⟩ := Nat.exists_eq_add_of_le hstart
    rw [h.pciAt j (by omega), h'.pciAt j (by omega)]
  · by_cases hlen : k < start + pci.length + len
    · obtain ⟨j, rfl⟩ := Nat.exists_eq_add_of_le (Nat.le_of_not_lt hpci)
      rw [h.payAt j (by omega), h'.payAt j (by omega), hpay]
    · rw [h.fillAt k (by omega) hn, h'.fillAt k (by omega) hn]

/-- A build command and a leaf encoder with the same checks, code, PCI bytes and payload length on the same operands. -/
theorem sameAsLeaves_of {build leaf : Instr} {wb wl : Word} {range own : List Check} {type : PacketType} {c : Nat}
    {pci : List Byte} {len : Nat}
    (hbuild : Command build wb s (buildChecks fmt pm s range own c) (fun t => Built s t fmt pm type c pci len))
    (hleaf : ∀ v, SameOperands s v → Command leaf wl v (formatCheck fmt :: range ++ own)
      (fun x => LeafEncoded v x (addrBytes fmt) c pci len)) : SameAsLeaves build leaf fmt pm s := by
  intro t ht herr
  obtain ⟨hchecks, hb⟩ := command_passed hbuild ht herr
  rw [buildChecks_eq] at hchecks
  simp only [List.forall_mem_append] at hchecks
  obtain ⟨haddr, hrange, ⟨hvalid, hown⟩, _⟩ := hchecks
  obtain ⟨u, v, hu, huerr, hv, hverr, hid, hbyte, hops⟩ := addressing_leaves haddr hvalid
  obtain ⟨x, hx, hl⟩ := command_all (hleaf v hops)
    (List.forall_mem_append.2 ⟨List.forall_mem_cons.2 ⟨haddr _ List.mem_cons_self, hrange⟩, hown⟩)
  refine ⟨u, v, x, hu, huerr, hv, hverr, hx, kept_err hl.kept, hb.flen.trans hl.flen.symm, hb.dlc.trans hl.dlc.symm,
    hb.id.trans hid.symm, fun k hk => ?_⟩
  have h64 := frameBytes_le64 c
  rw [num, hb.flen, w32, BitVec.toNat_ofNat, Nat.mod_eq_of_lt (by omega)] at hk
  by_cases ha : addrBytes fmt ≤ k
  · exact body_unique hb.body (hops.fill ▸ hl.body) hops.pay ha hk
  · have h1 := addrBytes_le fmt
    obtain rfl : k = 0 := by omega
    have hone : addrBytes fmt = 1 := by omega
    refine (hb.address hone).trans ((hbyte hone).symm.trans (hl.kept.bytes _ fun hspan => ?_).symm)
    obtain ⟨hlow, _⟩ := hspan
    simp only [fbBase] at hlow
    omega

theorem pktSf_sameAsLeaves (any : Bool) (fmt : BitVec 3) (pm : BitVec 8) (s : State) :
    SameAsLeaves (.pktSf any fmt pm) (.sfEnc any fmt (pm &&& 0x20#8)) fmt pm s := by
  refine sameAsLeaves_of (wl := cmdWord 0x41 any fmt (pm &&& 0x20#8)) (pktSf any fmt pm s) fun v hv => ?_
  have h := sfEnc any fmt (pm &&& 0x20#8) v
  simp (disch := decide) only [sfRange, sfOwn, sfFrameCode, sfPci, sfLength, given_mask, hv.num] at h ⊢
  exact h

theorem pktFf_sameAsLeaves (any : Bool) (fmt : BitVec 3) (pm : BitVec 8) (s : State) :
    SameAsLeaves (.pktFf any fmt pm) (.ffEnc any fmt (pm &&& 0x20#8)) fmt pm s := by
  refine sameAsLeaves_of (wl := cmdWord 0x43 any fmt (pm &&& 0x20#8)) (pktFf any fmt pm s) fun v hv => ?_
  have h := ffEnc any fmt (pm &&& 0x20#8) v
  simp (disch := decide) only [sfRange, ffOwn, ffFrameCode, ffPciCount, ffPciList, given_mask, hv.num] at h ⊢
  exact h

theorem pktCf_sameAsLeaves (any : Bool) (fmt : BitVec 3) (pm : BitVec 8) (s : State) :
    SameAsLeaves (.pktCf any fmt pm) (.cfEnc any fmt (pm &&& 0x20#8)) fmt pm s := by
  refine sameAsLeaves_of (wl := cmdWord 0x45 any fmt (pm &&& 0x20#8)) (pktCf any fmt pm s) fun v hv => ?_
  have h := cfEnc any fmt (pm &&& 0x20#8) v
  simp (disch := decide) only [cfRange, cfOwn, cfFrameCode, cfPci, given_mask, hv.num] at h ⊢
  exact h

theorem pktFc_sameAsLeaves (any : Bool) (fmt : BitVec 3) (pm : BitVec 8) (s : State) :
    SameAsLeaves (.pktFc any fmt pm) (.fcEnc any fmt (pm &&& 0xE0#8)) fmt pm s := by
  refine sameAsLeaves_of (wl := cmdWord 0x47 any fmt (pm &&& 0xE0#8)) (pktFc any fmt pm s) fun v hv => ?_
  have h := fcEnc any fmt (pm &&& 0xE0#8) v
  simp (disch := decide) only [fcRange, fcOwn, fcFrameCode, fcPci, given_mask, hv.num, hv.fill] at h ⊢
  exact h

/-- Settles O56: each leaf encoder reads the same operands as its build command, so it makes the same checks and the
same body. -/
theorem buildEqualsLeafSequence : Obligations.BuildEqualsLeafSequence := fun any fmt pm s =>
  ⟨pktSf_sameAsLeaves any fmt pm s, pktFf_sameAsLeaves any fmt pm s, pktCf_sameAsLeaves any fmt pm s,
    pktFc_sameAsLeaves any fmt pm s⟩

end Sys2Proof.Proofs

/-! The status codes that a command can end with (60_exceptions.md R260), and the guard of PKT_SETAI (47_packet.md
R229). -/

namespace Sys2Proof.Proofs

open Sys2Proof.Machine Sys2Proof.Claims Sys2Proof.Laws

variable {s t : State} {i : Instr} {w : Word} {good : State → Prop} {fmt : BitVec 3} {pm : BitVec 8} {o : Offsets}
  {cs ds : List Check} {ns ms : List Nat}

/-! ## The codes of a list of checks -/

/-- The checks of the list give codes of `ns` only. -/
def CodesIn (ns : List Nat) (cs : List Check) : Prop := ∀ c ∈ cs, c.2.code ∈ ns

@[simp] theorem codesIn_nil : CodesIn ns [] := nofun
@[simp] theorem codesIn_cons {p : Prop} {e : Err} : CodesIn ns ((p, e) :: cs) ↔ e.code ∈ ns ∧ CodesIn ns cs :=
  List.forall_mem_cons
@[simp] theorem codesIn_append : CodesIn ns (cs ++ ds) ↔ CodesIn ns cs ∧ CodesIn ns ds := List.forall_mem_append

theorem CodesIn.mono (h : CodesIn ns cs) (hsub : ns ⊆ ms) : CodesIn ms cs := fun c hc => hsub (h c hc)

theorem idChecks_codes (n : Nat) : CodesIn [3, 5] (idChecks o fmt n) := by
  simp [idChecks, Err.code]

theorem aiDecodeChecks_codes (id n : Nat) : CodesIn [3, 5] (aiDecodeChecks o fmt id n) := by
  unfold aiDecodeChecks
  split
  all_goals simp [idChecks_codes, Err.code]

theorem resolveChecks_codes : CodesIn [3, 5] (resolveChecks o fmt pm s) := by
  unfold resolveChecks
  split
  all_goals simp [idChecks_codes, Err.code]

theorem validateChecks_codes : CodesIn [2, 3, 5] (validateChecks o fmt pm s) := by
  unfold validateChecks
  split
  all_goals simp [resolveChecks_codes.mono, Err.code]

theorem decChecks_codes (type : PacketType) (b : Nat → Byte) (a n : Nat) : CodesIn [1, 3] (decChecks type b a n) := by
  cases type
  all_goals simp [decChecks, sfDecChecks, ffDecChecks, cfDecChecks, fcDecChecks, Err.code]

theorem buildChecks_codes {range own : List Check} (hrange : CodesIn [1, 3] range) (hown : CodesIn [1, 3] own)
    (c : Nat) : CodesIn [0, 1, 2, 3, 5] (buildChecks fmt pm s range own c) := by
  simp [buildChecks, formatCheck, addressingRange, hrange.mono, hown.mono, validateChecks_codes.mono, Err.code]

/-! ## The codes of a command (R260) -/

/-- Every row of the table has code 0. -/
theorem zero_mem (herr : t.err = 0) : t.err ∈ possibleCodes i := by
  rw [herr]
  cases i
  all_goals exact List.mem_cons_self

/-- A command without checks ends with code 0. -/
theorem code_mem_of_ok {u : State} (hu : commandResult i s = .ok u) (h : exec i s = .next t) :
    t.err ∈ possibleCodes i := by
  rw [exec_eq, hu] at h
  cases h
  exact zero_mem (State.endOk_err _ _)

/-- A command ends with code 0 or with the code of one of its checks. -/
theorem code_mem (hc : Command i w s cs good) (hgood : ∀ t, good t → t.err = 0) (hcs : CodesIn (possibleCodes i) cs)
    (h : exec i s = .next t) : t.err ∈ possibleCodes i := by
  rcases command_ends hc h with ⟨c, hmem, _, he⟩ | ⟨_, hg⟩
  · exact he ▸ hcs c hmem
  · exact zero_mem (hgood t hg)

/-- A nibble names a packet type or none. -/
theorem exists_packetType (b : Byte) : ∃ type : PacketType, hi b = type.number ∨ 3 < hi b := by
  rw [← hi4_toNat]
  cases htype : packetTypeOf (hi4 b) with
  | none => exact ⟨.sf, .inr ((packetTypeOf_isSome _).1 htype)⟩
  | some type => exact ⟨type, .inl ((packetTypeOf_eq _ type).1 htype)⟩

/-- The codes of the table are all that a command can end with: those of its own checks, and 0. -/
theorem err_mem_possibleCodes (h : exec i s = .next t) : t.err ∈ possibleCodes i := by
  cases i with
  | nop => exact code_mem_of_ok rfl h
  | sreset => exact code_mem_of_ok rfl h
  | clrstk => exact code_mem_of_ok rfl h
  | idIsstd => exact code_mem_of_ok rfl h
  | idIsext => exact code_mem_of_ok rfl h
  | idClassify fmt pm =>
    exact code_mem (IdCommands.idClassify fmt pm s) (fun _ ⟨_, _, _, _, _, _, h⟩ => kept_err h.kept)
      (by simp [formatCheck, possibleCodes, Err.code]) h
  | idEncode fmt =>
    exact code_mem (IdCommands.idEncode fmt s) (fun _ ⟨_, _, h⟩ => kept_err h.kept)
      (by simp [formatCheck, possibleCodes, Err.code]) h
  | idDecode fmt =>
    exact code_mem (IdCommands.idDecode fmt s) (fun _ ⟨_, _, _, _, h⟩ => kept_err h.kept)
      (by simp [formatCheck, idChecks, possibleCodes, Err.code]) h
  | dlcDecode =>
    exact code_mem (dataLengthCommands s).1 (fun _ ⟨_, _, h⟩ => kept_err h.kept)
      (by simp [possibleCodes, Err.code]) h
  | dlcEncode =>
    exact code_mem (dataLengthCommands s).2.1 (fun _ ⟨_, _, _, h⟩ => kept_err h.kept)
      (by simp [possibleCodes, Err.code]) h
  | dlcMin =>
    exact code_mem (dataLengthCommands s).2.2 (fun _ ⟨_, _, h⟩ => kept_err h.kept)
      (by simp [possibleCodes, Err.code]) h
  | aiNbytes fmt =>
    exact code_mem (addressingByteCommands fmt 0 s).1 (fun _ ⟨_, _, h⟩ => kept_err h.kept)
      (by simp [formatCheck, possibleCodes, Err.code]) h
  | aiEncdata fmt pm =>
    exact code_mem (addressingByteCommands fmt pm s).2 (fun _ ⟨_, _, _, _, h, _⟩ => kept_err h)
      (by simp [formatCheck, possibleCodes, Err.code]) h
  | aiDecode fmt =>
    exact code_mem (AiCommands.aiDecode fmt s) (fun _ ⟨_, _, _, _, _, h⟩ => kept_err h.kept)
      (by simp [formatCheck, (aiDecodeChecks_codes _ _).mono, possibleCodes, Err.code]) h
  | aiValidate fmt pm =>
    exact code_mem (AiCommands.aiValidate fmt pm s) (fun _ ⟨_, _, _, _, _, h⟩ => kept_err h.kept)
      (by simp [formatCheck, addressingRange, validateChecks_codes.mono, possibleCodes, Err.code]) h
  | ptGet fmt =>
    exact code_mem (ptGet fmt s) (fun _ ⟨_, _, h⟩ => kept_err h.kept)
      (by simp [formatCheck, possibleCodes, Err.code]) h
  | sfEnc any fmt pm =>
    exact code_mem (sfEnc any fmt pm s) (fun _ h => kept_err h.kept)
      (by simp [formatCheck, sfRange, sfOwn, possibleCodes, Err.code]) h
  | sfDec fmt =>
    exact code_mem (sfDec fmt s) (fun _ ⟨_, _, _, _, _, h, _⟩ => kept_err h)
      (by simp [formatCheck, sfDecChecks, possibleCodes, Err.code]) h
  | ffEnc any fmt pm =>
    exact code_mem (ffEnc any fmt pm s) (fun _ h => kept_err h.kept)
      (by simp [formatCheck, sfRange, ffOwn, possibleCodes, Err.code]) h
  | ffDec fmt =>
    exact code_mem (ffDec fmt s) (fun _ ⟨_, _, _, _, _, h, _⟩ => kept_err h)
      (by simp [formatCheck, ffDecChecks, possibleCodes, Err.code]) h
  | cfEnc any fmt pm =>
    exact code_mem (cfEnc any fmt pm s) (fun _ h => kept_err h.kept)
      (by simp [formatCheck, cfRange, cfOwn, possibleCodes, Err.code]) h
  | cfDec fmt =>
    exact code_mem (cfDec fmt s) (fun _ ⟨_, _, _, _, _, h, _⟩ => kept_err h)
      (by simp [formatCheck, cfDecChecks, possibleCodes, Err.code]) h
  | fcEnc any fmt pm =>
    exact code_mem (fcEnc any fmt pm s) (fun _ h => kept_err h.kept)
      (by simp [formatCheck, fcRange, fcOwn, possibleCodes, Err.code]) h
  | fcDec fmt =>
    exact code_mem (fcDec fmt s) (fun _ ⟨_, _, _, _, h⟩ => kept_err h.kept)
      (by simp [formatCheck, fcDecChecks, possibleCodes, Err.code]) h
  | stminDec =>
    rcases exec_next h with ⟨u, _, rfl⟩ | ⟨e, he, rfl⟩
    · exact zero_mem (State.endOk_err _ _)
    · obtain ⟨c, hc, _, rfl⟩ := (yields_stminDecResult s).failed he
      obtain rfl := List.mem_singleton.1 hc
      exact List.mem_cons_of_mem _ (List.mem_singleton.2 (State.endError_err _ _ _))
  | stminEnc =>
    exact code_mem (separationTimeCommands s).2 (fun _ ⟨_, _, h⟩ => kept_err h.kept)
      (by simp [possibleCodes, Err.code]) h
  | pktSf any fmt pm =>
    exact code_mem (pktSf any fmt pm s) (fun _ h => kept_err h.kept)
      (buildChecks_codes (by simp [sfRange, Err.code]) (by simp [sfOwn, Err.code]) _) h
  | pktFf any fmt pm =>
    exact code_mem (pktFf any fmt pm s) (fun _ h => kept_err h.kept)
      (buildChecks_codes (by simp [sfRange, Err.code]) (by simp [ffOwn, Err.code]) _) h
  | pktCf any fmt pm =>
    exact code_mem (pktCf any fmt pm s) (fun _ h => kept_err h.kept)
      (buildChecks_codes (by simp [cfRange, Err.code]) (by simp [cfOwn, Err.code]) _) h
  | pktFc any fmt pm =>
    exact code_mem (pktFc any fmt pm s) (fun _ h => kept_err h.kept)
      (buildChecks_codes (by simp [fcRange, Err.code]) (by simp [fcOwn, Err.code]) _) h
  | pktLoad fmt =>
    obtain ⟨type, htype⟩ := exists_packetType (s.fb (addrBytes fmt))
    exact code_mem (pktLoad fmt s type htype) (fun _ ⟨_, _, _, _, _, _, _, _, _, _, _, h⟩ => kept_err h)
      (by simp [formatCheck, (aiDecodeChecks_codes _ _).mono, (decChecks_codes _ _ _ _).mono, possibleCodes,
        Err.code]) h
  | pktSetai fmt pm =>
    exact code_mem (pktSetai fmt pm s) (fun _ ⟨_, _, _, _, _, _, _, _, _, _, _, _, h⟩ => kept_err h)
      (by simp [formatCheck, addressingRange, validateChecks_codes.mono, possibleCodes, Err.code]) h
  | pktView =>
    exact code_mem (pktView s _ _ _ rfl rfl rfl)
      (fun _ ⟨_, _, _, _, _, _, _, _, _, _, _, _, _, _, _, _, _, _, _, _, _, h⟩ => kept_err h)
      (by simp [(decChecks_codes _ _ _ _).mono, possibleCodes, Err.code]) h
  | pktClear => exact code_mem_of_ok rfl h

/-! ## The guard (R229) -/

/-- The table gives code 4 to PKT_SETAI alone. -/
theorem eq_pktSetai_of_mem (h : 4 ∈ possibleCodes i) : ∃ fmt pm, i = .pktSetai fmt pm := by
  cases i
  case pktSetai fmt pm => exact ⟨fmt, pm, rfl⟩
  all_goals exact absurd h (by simp [possibleCodes])

/-- The checks of PKT_SETAI before the guard. -/
def setaiChecks (fmt : BitVec 3) (pm : BitVec 8) (s : State) : List Check :=
  [(s.pkt.valid = false, .illegal), (s.pkt.isRecord = true, .illegal)] ++ formatCheck fmt :: addressingRange pm s

theorem setaiChecks_passed : (∀ c ∈ setaiChecks fmt pm s, ¬c.1) ↔
    s.pkt.valid = true ∧ s.pkt.isRecord = false ∧ fmt.toNat ≤ 4 ∧ ∀ c ∈ addressingRange pm s, ¬c.1 := by
  simp only [setaiChecks, formatCheck, List.cons_append, List.nil_append, passed_cons, Bool.not_eq_false,
    Bool.not_eq_true, Nat.not_lt]

theorem err_ne_four {c : Check} (hcs : CodesIn ns cs) (hns : 4 ∉ ns) (hc : c ∈ cs) (he : t.err = c.2.code) :
    t.err ≠ 4 :=
  fun h4 => hns (h4 ▸ he ▸ hcs c hc)

/-- PKT_SETAI ends with code 4 exactly when its checks before the guard are passed and the guard is not. -/
theorem pktSetai_ambiguity_iff (h : exec (.pktSetai fmt pm) s = .next t) :
    t.err = 4 ↔ (∀ c ∈ setaiChecks fmt pm s, ¬c.1) ∧ addrBytes fmt ≠ addrBytes s.pkt.fmt.number := by
  have hchecks := (pktSetai fmt pm s).2
  rw [List.append_assoc] at hchecks
  rcases firstFailing_append (cs := setaiChecks fmt pm s) hchecks with ⟨c, hc, hfail, he⟩ | ⟨hpassed, hguard, hrest⟩
  · have hcodes : CodesIn [1, 6] (setaiChecks fmt pm s) := by
      simp [setaiChecks, formatCheck, addressingRange, Err.code]
    exact ⟨fun h4 => absurd h4 (err_ne_four hcodes (by decide) hc (failsWith_err he h)),
      fun hp => absurd hfail (hp.1 c hc)⟩
  · refine ⟨fun h4 => ⟨hpassed, fun hsame => ?_⟩, fun hp => failsWith_err (hguard hp.2) h⟩
    rcases firstFailing_ends (hrest (not_not.2 hsame)) with ⟨c, hc, _, he⟩ | ⟨_, u, hu, hgood⟩
    · exact err_ne_four validateChecks_codes (by decide) hc (failsWith_err he h) h4
    · obtain ⟨_, _, _, _, _, _, _, _, _, _, _, _, hkept⟩ := hgood
      obtain rfl := Host.Outcome.next.inj (h.symm.trans hu)
      exact absurd (h4.symm.trans (kept_err hkept)) (by decide)

/-- Settles O9: the table gives the code to PKT_SETAI alone, and its checks in order give the guard. -/
theorem ambiguityIsExactlyTheGuard : Obligations.AmbiguityIsExactlyTheGuard := by
  refine fun i s t h => ⟨fun h4 => ?_, ?_⟩
  · obtain ⟨fmt, pm, rfl⟩ := eq_pktSetai_of_mem (h4 ▸ err_mem_possibleCodes h)
    obtain ⟨hpassed, hguard⟩ := (pktSetai_ambiguity_iff h).1 h4
    obtain ⟨hvalid, hrecord, hfmt, hrange⟩ := setaiChecks_passed.1 hpassed
    exact ⟨fmt, pm, rfl, hvalid, hrecord, hfmt, hrange, hguard⟩
  · rintro ⟨fmt, pm, rfl, hvalid, hrecord, hfmt, hrange, hguard⟩
    exact (pktSetai_ambiguity_iff h).2 ⟨setaiChecks_passed.2 ⟨hvalid, hrecord, hfmt, hrange⟩, hguard⟩

end Sys2Proof.Proofs

/-! The status after a command word, whole (60_exceptions.md R250 to R256, R260). -/

namespace Sys2Proof.Proofs

open Sys2Proof.Machine Sys2Proof.Claims Sys2Proof.Laws

variable {s t : State} {i : Instr} {w : Word} {good : State → Prop} {fmt : BitVec 3} {pm : BitVec 8}
  {gate rest : List Check} {ns : List Nat} {e : Err}

/-! ## Every word ends, and every step (R250, R252, R270) -/

/-- A command word ends `ok`, or with an error that leaves the state it met but for the status registers. -/
theorem runCommand_ends (w : Word) (s : State) :
    (∃ u warn, runCommand w s = .next (State.endOk u warn)) ∨ ∃ e, runCommand w s = .next (s.endError e w) := by
  cases hw : decode w with
  | error b => exact .inr ⟨.illegal, (runCommand_of_error hw s).trans (congrArg _ (endError_eq s .illegal w).symm)⟩
  | ok i =>
    rw [runCommand_of_ok hw, exec_eq, (encode_of_decode hw).1]
    cases commandResult i s with
    | ok u => exact .inl ⟨u, warns i s, rfl⟩
    | error e => exact .inr ⟨e, rfl⟩

theorem runCommand_answers (w : Word) (s : State) : ∃ t, runCommand w s = .next t := by
  rcases runCommand_ends w s with ⟨u, warn, h⟩ | ⟨e, h⟩
  · exact ⟨_, h⟩
  · exact ⟨_, h⟩

theorem writeWord_answers (off : Nat) (v : Word) (s : State) : ∃ t, writeWord off v s = .next t := by
  unfold writeWord
  split
  case h_1 => exact runCommand_answers v s
  all_goals exact ⟨_, rfl⟩

theorem perform_answers (i : Input) (s : State) : ∃ t, perform i s = .next t := by
  cases i with
  | hardReset => exact ⟨_, rfl⟩
  | host a =>
    cases a with
    | wr off v => exact writeWord_answers off v s
    | cmd w => exact runCommand_answers w s
    | rd | wrb | rdb => exact ⟨_, rfl⟩

theorem step_answers (s : State) : ∃ t, step s = .next t := by
  cases hp : s.pending with
  | nil => exact ⟨s, step_of_idle hp⟩
  | cons i rest =>
    rw [step, takeInput, hp]
    exact perform_answers i _

theorem endOk_status_lt (u : State) (warn : Bool) : (u.endOk warn).status.toNat < 0x20 := by
  rw [State.endOk_status]
  cases warn
  all_goals decide

theorem endError_status_lt (s : State) (e : Err) (w : Word) : (s.endError e w).status.toNat < 0x20 := by
  rw [State.endError_status]
  cases e
  all_goals decide

theorem code_le_six (e : Err) : e.code ≤ 6 := by
  cases e
  all_goals decide

/-- Settles O5: each of the two ends of a word leaves such a status, and every input is answered. -/
theorem everyCommandEndsWithOneCode : Obligations.EveryCommandEndsWithOneCode := by
  refine ⟨fun w s => ?_, step_answers⟩
  rcases runCommand_ends w s with ⟨u, warn, h⟩ | ⟨e, h⟩
  · exact ⟨_, h, (State.endOk_err u warn).trans_le (Nat.zero_le 6), endOk_status_lt u warn⟩
  · exact ⟨_, h, (State.endError_err s e w).trans_le (code_le_six e), endError_status_lt s e w⟩

/-! ## What an error changes (R256), and where the warning comes from (R254) -/

/-- Settles O6: of the two ends of a word the one with a code is the error's, which writes the status registers. -/
theorem failedCommandChangesOnlyStatus : Obligations.FailedCommandChangesOnlyStatus := by
  intro w s t h herr
  rcases runCommand_ends w s with ⟨u, warn, hok⟩ | ⟨e, herror⟩
  · obtain rfl := Host.Outcome.next.inj (h.symm.trans hok)
    exact absurd (State.endOk_err u warn) herr
  · obtain rfl := Host.Outcome.next.inj (h.symm.trans herror)
    rw [State.endError_err]
    exact endError_eq s e w

/-- A command that fails is none that warns: STMIN_DEC refuses only an operand that is no raw value at all. -/
theorem warns_of_error (h : commandResult i s = .error e) : warns i s = false := by
  by_cases hi : i = .stminDec
  · subst hi
    obtain ⟨c, hc, hfail, _⟩ := (yields_stminDecResult s).failed h
    obtain rfl := List.mem_singleton.1 hc
    have hrange : 0xFF < num s .st := hfail
    simp only [warns, reservedRaw, decide_eq_true_eq, decide_eq_false_iff_not, not_and]
    omega
  · simp [warns, hi]

theorem statusWord_zero_eq_ite (warn : Bool) : statusWord 0 warn = if warn then 0x10#32 else 0#32 := by
  cases warn
  all_goals rfl

/-- Settles O7: the warning is that of the end `ok`, and an error has none. -/
theorem warningOnlyFromReservedSeparationTime : Obligations.WarningOnlyFromReservedSeparationTime := by
  intro i s t h
  rcases exec_next h with ⟨u, hu, rfl⟩ | ⟨e, he, rfl⟩
  · refine ⟨State.endOk_warn u _, fun _ => State.endOk_err u _, fun _ => ⟨statusWord_zero_eq_ite _, fun h1 h2 => ?_⟩⟩
    have heff := commandResult_effect hu h1 h2
    rw [State.endOk_esticky, State.endOk_ecmd, heff.esticky, heff.ecmd]
    exact ⟨rfl, rfl⟩
  · have hwarn := State.endError_warn s e (encode i)
    have herr := State.endError_err s e (encode i)
    exact ⟨hwarn.trans (warns_of_error he).symm, fun hw => absurd (hwarn.symm.trans hw) Bool.false_ne_true,
      fun h0 => absurd (herr.symm.trans h0) (code_ne_zero e)⟩

/-! ## The codes of a command (R260), and the causes of `E_ILLEGAL` (R253) -/

/-- Settles O8: the codes of the checks of each command are those of its row. -/
theorem commandsEndOnlyWithTheirCodes : Obligations.CommandsEndOnlyWithTheirCodes := fun _ _ _ => err_mem_possibleCodes

/-- When the first checks of a command all give one error and the others never do, the command ends with that error
exactly when one of the first fails. -/
theorem err_eq_code_iff (hc : Command i w s (gate ++ rest) good) (hgate : ∀ c ∈ gate, c.2 = e) (hrest : CodesIn ns rest)
    (hns : e.code ∉ ns) (hgood : ∀ t, good t → t.err = 0) (h : exec i s = .next t) :
    t.err = e.code ↔ ∃ c ∈ gate, c.1 := by
  rcases firstFailing_append hc.2 with ⟨c, hmem, hfail, he⟩ | ⟨hpassed, hends⟩
  · exact ⟨fun _ => ⟨c, hmem, hfail⟩, fun _ => (failsWith_err he h).trans (congrArg Err.code (hgate c hmem))⟩
  · refine ⟨fun herr => ?_, fun ⟨c, hmem, hfail⟩ => absurd hfail (hpassed c hmem)⟩
    rcases firstFailing_ends hends with ⟨c, hmem, _, he⟩ | ⟨_, u, hu, hu'⟩
    · exact absurd (herr ▸ failsWith_err he h ▸ hrest c hmem) hns
    · obtain rfl := Host.Outcome.next.inj (h.symm.trans hu)
      exact absurd (herr.symm.trans (hgood t hu')) (code_ne_zero e)

theorem pktView_illegal_iff (h : exec .pktView s = .next t) : t.err = 6 ↔ s.pkt.valid = false := by
  have hview := err_eq_code_iff (e := .illegal) (gate := [(s.pkt.valid = false, .illegal)])
    (pktView s _ _ _ rfl rfl rfl) (by simp) (decChecks_codes _ _ _ _) (by decide)
    (fun _ ⟨_, _, _, _, _, _, _, _, _, _, _, _, _, _, _, _, _, _, _, _, _, hkept⟩ => kept_err hkept) h
  exact hview.trans (by simp)

theorem pktSetai_illegal_iff (h : exec (.pktSetai fmt pm) s = .next t) :
    t.err = 6 ↔ s.pkt.valid = false ∨ s.pkt.isRecord = true := by
  have hcommand := pktSetai fmt pm s
  rw [List.append_assoc, List.append_assoc] at hcommand
  have hsetai := err_eq_code_iff (e := .illegal) (ns := [1, 2, 3, 4, 5]) hcommand (by simp)
    (by simp [formatCheck, addressingRange, validateChecks_codes.mono, Err.code]) (by decide)
    (fun _ ⟨_, _, _, _, _, _, _, _, _, _, _, _, hkept⟩ => kept_err hkept) h
  exact hsetai.trans (by simp)

/-- The table gives code 6 to PKT_VIEW and PKT_SETAI alone. -/
theorem eq_pktView_or_pktSetai_of_mem (h : 6 ∈ possibleCodes i) : i = .pktView ∨ ∃ fmt pm, i = .pktSetai fmt pm := by
  cases i
  case pktView => exact .inl rfl
  case pktSetai fmt pm => exact .inr ⟨fmt, pm, rfl⟩
  all_goals exact absurd h (by simp [possibleCodes])

/-- Settles O10: an illegal word, or one of the two commands that the table gives the code, on a packet it refuses. -/
theorem illegalHasTwoCauses : Obligations.IllegalHasTwoCauses := by
  intro w s t h
  constructor
  · intro h6
    cases hw : decode w with
    | error b => exact .inl fun ⟨_, hi⟩ => nomatch hi
    | ok i =>
      have hexec : exec i s = .next t := (runCommand_of_ok hw s).symm.trans h
      rcases eq_pktView_or_pktSetai_of_mem (h6 ▸ err_mem_possibleCodes hexec) with rfl | ⟨fmt, pm, rfl⟩
      · exact .inr (.inl ⟨rfl, (pktView_illegal_iff hexec).1 h6⟩)
      · exact .inr (.inr ⟨fmt, pm, rfl, (pktSetai_illegal_iff hexec).1 h6⟩)
  · rintro (hbad | ⟨hw, hvalid⟩ | ⟨fmt, pm, hw, hrefused⟩)
    · cases hw : decode w with
      | ok i => exact absurd ⟨i, hw⟩ hbad
      | error b =>
        obtain rfl := Host.Outcome.next.inj (h.symm.trans (runCommand_of_error hw s))
        rfl
    · exact (pktView_illegal_iff ((runCommand_of_ok hw s).symm.trans h)).2 hvalid
    · exact (pktSetai_illegal_iff ((runCommand_of_ok hw s).symm.trans h)).2 hrefused

end Sys2Proof.Proofs

/-! The state right after a reset (70_reset_and_hazards.md R280 to R282). -/

namespace Sys2Proof.Proofs

open Sys2Proof.Machine Sys2Proof.Claims Sys2Proof.Laws

variable {s : State}

/-- Settles O14: the storage invariant holds by its parts, and `PKT` is not valid. -/
theorem resetMeetsTheInvariant : Obligations.ResetMeetsTheInvariant := ⟨reset_storageOk, nofun⟩

theorem step_of_hardReset {rest : List Input} (h : s.pending = .hardReset :: rest) :
    step s = .next (State.hardReset { s with pending := rest }) := by
  rw [step, takeInput, h]
  rfl

theorem hardReset_reg (s : State) (r : Reg) : s.hardReset.reg r = 0#32 := by
  show (Vector.replicate 19 0#32)[r.index] = 0#32
  simp

theorem packetStatus_reset : packetStatus Packet.reset = 0#32 := by decide

theorem hardReset_byteAt (s : State) (k : Nat) : s.hardReset.byteAt k = Config.initByte s.hardReset.epoch k := rfl

theorem hardReset_packetByte (s : State) (k : Nat) :
    s.hardReset.packetByte k = Config.initPacketByte s.hardReset.epoch k := rfl

/-- Settles O17: the step takes the reset, which writes the reset values and lists no byte as written. -/
theorem hardwareResetGivesTheResetValues : Obligations.HardwareResetGivesTheResetValues := fun _ _ h =>
  ⟨_, step_of_hardReset h, hardReset_reg _, rfl, rfl, rfl, rfl, packetStatus_reset, rfl, rfl, rfl, rfl, rfl, rfl, rfl,
    rfl, hardReset_byteAt _, hardReset_packetByte _, rfl, rfl, rfl, rfl⟩

end Sys2Proof.Proofs
